-- ==== Sys2Proof/Word.lean ====
section
/-! DEFINITION. The word types of the pb224 sequencer and the type of a state element that may be unknown. -/

namespace Sys2Proof

/-- One word of a command or response frame (30_encoding.md R71). -/
abbrev Word := BitVec 32

/-- An SRAM word address (`ADDR_W`, 00_scope.md R5). -/
abbrev Addr := BitVec 16

/-- An SRAM data word (`DATA_W`, 00_scope.md R5). -/
abbrev Data := BitVec 24

abbrev Byte := BitVec 8

/-- The value of a state element that the spec lets be `⊥` (00_scope.md R7): `bot` is `⊥`, never a zero. -/
inductive Val (α : Type) where
  | bot
  | known (v : α)
deriving DecidableEq, Repr

/-- One bit of a shift register, in {0, 1, ⊥} (10_state.md R30). -/
abbrev Bit := Val Bool

/-- The bits of an `n`-stage register, index `k` being bit `k` (00_scope.md R6). -/
abbrev Bits (n : Nat) := Vector Bit n

end Sys2Proof
end

