-- ==== Sys2Proof/Syntax.lean ====
section
/-! DEFINITION. The ten host commands of 30_encoding.md R70, with every field of their frames (R72 to R75, R87), reserved fields among them: a set reserved bit is no other command but the same command, answered with BAD_OPERAND (R80). -/

namespace Sys2Proof

/-- The assigned opcodes (30_encoding.md R70). -/
inductive Opcode where
  | clrAddr | clrData | write | read | dump | verify | bulkRead | checksum | lowerMargin | upperMargin
deriving DecidableEq, Repr

/-- One program record in its binary form (30_encoding.md R74). No bit of it is reserved. -/
structure Record where
  bc : Byte
  addr : Addr
  type : Byte
  data : Data
  ck : Byte
deriving DecidableEq, Repr

/-- One mapping entry (30_encoding.md R75); `rsv` is bits [31:24]. -/
structure Entry where
  rsv : Byte
  addr : Addr
  ck : Byte
deriving DecidableEq, Repr

/-- One command. `rsv`, `rsv0`, `rsv1` are reserved bits, in the order of the frame's words. -/
inductive Instr where
  /-- `W0 = 01 rsv` (43_memory_driver.md R140) -/
  | clrAddr (rsv : BitVec 24)
  /-- `W0 = 02 rsv` (R141) -/
  | clrData (rsv : BitVec 24)
  /-- `W0 = 03 rsv0 A`, `W1 = rsv1 D` (R143) -/
  | write (rsv0 : Byte) (a : Addr) (rsv1 : Byte) (d : Data)
  /-- `W0 = 04 rsv A` (R145) -/
  | read (rsv : Byte) (a : Addr)
  /-- `W0 = 05 rsv N`, then `N` record pairs (44_batch.md R161) -/
  | dump (rsv : Byte) (records : List Record)
  /-- `W0 = 06 rsv0 BC RT`, `W1 = rsv1 M`, then `M` entries (R163) -/
  | verify (rsv0 bc rt : Byte) (rsv1 : BitVec 15) (entries : List Entry)
  /-- `W0 = 07 rsv0 L`, `W1 = rsv1 U` (R170) -/
  | bulkRead (rsv0 : Byte) (l : Addr) (rsv1 : BitVec 16) (u : Addr)
  /-- `W0 = 10 rsv n`, then the `n` bytes and the pad bytes of the last word (42_hexcodec.md R130) -/
  | checksum (rsv : BitVec 16) (bytes pad : List Byte)
  /-- `W0 = 11 rsv A` (44_batch.md R168) -/
  | lowerMargin (rsv : Byte) (a : Addr)
  /-- `W0 = 12 rsv A` (R169) -/
  | upperMargin (rsv : Byte) (a : Addr)
deriving DecidableEq, Repr

def Instr.opcode : Instr → Opcode
  | .clrAddr _ => .clrAddr
  | .clrData _ => .clrData
  | .write _ _ _ _ => .write
  | .read _ _ => .read
  | .dump _ _ => .dump
  | .verify _ _ _ _ _ => .verify
  | .bulkRead _ _ _ _ => .bulkRead
  | .checksum _ _ _ => .checksum
  | .lowerMargin _ _ => .lowerMargin
  | .upperMargin _ _ => .upperMargin

end Sys2Proof
end

