-- ==== Sys2Proof/WellFormed.lean ====
section
/-! DEFINITION. Which commands a frame can carry (`encodable`: the counts fit their fields) and which of those the block does not refuse with BAD_OPERAND (`legal`: 30_encoding.md R80). -/

namespace Sys2Proof

/-- The number of pad bytes after `n` packed bytes (30_encoding.md R87). -/
def padLength (n : Nat) : Nat := (4 - n % 4) % 4

/-- The counts of the command fit their fields (30_encoding.md R72): `N` in 16 bits, `M` in 17, `n` in 8,
and the pad fills the last word. -/
def Instr.encodable : Instr → Bool
  | .dump _ records => decide (records.length < 2 ^ 16)
  | .verify _ _ _ _ entries => decide (entries.length < 2 ^ 17)
  | .checksum _ bytes pad => decide (bytes.length < 2 ^ 8) && decide (pad.length = padLength bytes.length)
  | .clrAddr _ | .clrData _ | .write _ _ _ _ | .read _ _ | .bulkRead _ _ _ _ | .lowerMargin _ _
  | .upperMargin _ _ => true

/-- `MAX_VERIFY_ENTRIES` of 00_scope.md R5. -/
def maxVerifyEntries : Nat := 65536

/-- Reserved bits are 0 and operands are in their legal range (30_encoding.md R80 (b) and (c)). -/
def Instr.legal : Instr → Bool
  | .clrAddr rsv => rsv == 0
  | .clrData rsv => rsv == 0
  | .write rsv0 _ rsv1 _ => rsv0 == 0 && rsv1 == 0
  | .read rsv _ => rsv == 0
  | .dump rsv _ => rsv == 0
  | .verify rsv0 _ _ rsv1 entries =>
    rsv0 == 0 && rsv1 == 0 && entries.all (fun e => e.rsv == 0) && decide (entries.length ≤ maxVerifyEntries) &&
      decide (entries.map Entry.addr).Nodup
  | .bulkRead rsv0 l rsv1 u => rsv0 == 0 && rsv1 == 0 && decide (l ≤ u)
  | .checksum rsv bytes pad => rsv == 0 && !bytes.isEmpty && pad.all (fun b => b == 0)
  | .lowerMargin rsv _ => rsv == 0
  | .upperMargin rsv _ => rsv == 0

/-- A command that a frame can carry and that the block does not refuse as a BAD_OPERAND. -/
abbrev WellFormed (i : Instr) : Prop := i.encodable = true ∧ i.legal = true

end Sys2Proof
end

