-- ==== Sys2Proof/Decode.lean ====
section
/-! DEFINITION. From frame words to commands (30_encoding.md R70 to R76, R81, R82, R87), total on any words, and the encoder back. -/

namespace Sys2Proof

/-! ## Opcodes -/

/-- The opcode byte of 30_encoding.md R70. -/
def Opcode.byte : Opcode → Byte
  | .clrAddr => 0x01
  | .clrData => 0x02
  | .write => 0x03
  | .read => 0x04
  | .dump => 0x05
  | .verify => 0x06
  | .bulkRead => 0x07
  | .checksum => 0x10
  | .lowerMargin => 0x11
  | .upperMargin => 0x12

/-- Selection uses `OPC` only; every byte outside the table of 30_encoding.md R70 is unassigned. -/
def opcodeOfByte (b : Byte) : Option Opcode :=
  if b = 0x01 then some .clrAddr
  else if b = 0x02 then some .clrData
  else if b = 0x03 then some .write
  else if b = 0x04 then some .read
  else if b = 0x05 then some .dump
  else if b = 0x06 then some .verify
  else if b = 0x07 then some .bulkRead
  else if b = 0x10 then some .checksum
  else if b = 0x11 then some .lowerMargin
  else if b = 0x12 then some .upperMargin
  else none

/-- `W[31:24]`. -/
def byte3 (w : Word) : Byte := w.extractLsb' 24 8
/-- `W[23:16]`. -/
def byte2 (w : Word) : Byte := w.extractLsb' 16 8
/-- `W[15:8]`. -/
def byte1 (w : Word) : Byte := w.extractLsb' 8 8
/-- `W[7:0]`. -/
def byte0 (w : Word) : Byte := w.extractLsb' 0 8
/-- `W[15:0]`. -/
def half0 (w : Word) : BitVec 16 := w.extractLsb' 0 16
/-- `W[31:16]`. -/
def half1 (w : Word) : BitVec 16 := w.extractLsb' 16 16
/-- `W[23:0]`. -/
def low24 (w : Word) : BitVec 24 := w.extractLsb' 0 24

/-! ## Frame length -/

/-- `ceil(n/4)`, the words that `n` packed bytes take (30_encoding.md R87). -/
def packedWords (n : Nat) : Nat := (n + 3) / 4

/-- 30_encoding.md R76: the length of the frame that begins with these words, `none` while they do not
yet determine it. -/
def frameLength : List Word → Option Nat
  | [] => none
  | w0 :: rest =>
    match opcodeOfByte (byte3 w0) with
    | none => some 1
    | some .clrAddr | some .clrData | some .read | some .lowerMargin | some .upperMargin => some 1
    | some .write | some .bulkRead => some 2
    | some .dump => some (1 + 2 * (half0 w0).toNat)
    | some .verify =>
      match rest with
      | [] => none
      | w1 :: _ => some (2 + (w1.extractLsb' 0 17).toNat)
    | some .checksum => some (1 + packedWords (byte0 w0).toNat)

/-! ## Operand words -/

/-- 30_encoding.md R74. -/
def recordOf (rw0 rw1 : Word) : Record :=
  { bc := byte3 rw0, addr := rw0.extractLsb' 8 16, type := byte0 rw0, data := rw1.extractLsb' 8 24, ck := byte0 rw1 }

def recordsOf : List Word → List Record
  | rw0 :: rw1 :: ws => recordOf rw0 rw1 :: recordsOf ws
  | _ => []

/-- 30_encoding.md R75. -/
def entryOf (w : Word) : Entry := { rsv := byte3 w, addr := w.extractLsb' 8 16, ck := byte0 w }

/-- The bytes of a word, most significant first (30_encoding.md R87). -/
def bytesOf (w : Word) : List Byte := [byte3 w, byte2 w, byte1 w, byte0 w]

/-! ## Decode -/

/-- Why no command is decoded. -/
inductive DecodeError where
  /-- an unassigned `OPC` (30_encoding.md R80 (a)): the frame is word 0 alone -/
  | illegalCommand (opc : Byte)
  /-- the frame is not complete: the port waits for its next word (R77) -/
  | incompleteFrame
deriving DecidableEq, Repr

/-- The command of a whole frame whose first word holds `op`, from word 0 and the further words. -/
def instrOf (op : Opcode) (w0 : Word) (args : List Word) : Instr :=
  match op with
  | .clrAddr => .clrAddr (low24 w0)
  | .clrData => .clrData (low24 w0)
  | .write => .write (byte2 w0) (half0 w0) (byte3 (args.headD 0)) (low24 (args.headD 0))
  | .read => .read (byte2 w0) (half0 w0)
  | .dump => .dump (byte2 w0) (recordsOf args)
  | .verify => .verify (byte2 w0) (byte1 w0) (byte0 w0) ((args.headD 0).extractLsb' 17 15) (args.tail.map entryOf)
  | .bulkRead => .bulkRead (byte2 w0) (half0 w0) (half1 (args.headD 0)) (half0 (args.headD 0))
  | .checksum =>
    .checksum (w0.extractLsb' 8 16) ((args.flatMap bytesOf).take (byte0 w0).toNat)
      ((args.flatMap bytesOf).drop (byte0 w0).toNat)
  | .lowerMargin => .lowerMargin (byte2 w0) (half0 w0)
  | .upperMargin => .upperMargin (byte2 w0) (half0 w0)

/-- 30_encoding.md R81: the command at the head of the words and the number of words of its frame. -/
def decode (ws : List Word) : Except DecodeError (Instr × Nat) :=
  match ws with
  | [] => .error .incompleteFrame
  | w0 :: rest =>
    match opcodeOfByte (byte3 w0) with
    | none => .error (.illegalCommand (byte3 w0))
    | some op =>
      match frameLength ws with
      | none => .error .incompleteFrame
      | some n => if ws.length < n then .error .incompleteFrame else .ok (instrOf op w0 (rest.take (n - 1)), n)

/-! ## Encode -/

/-- 30_encoding.md R74. -/
def encodeRecord (r : Record) : List Word := [r.bc ++ r.addr ++ r.type, r.data ++ r.ck]

/-- 30_encoding.md R75. -/
def encodeEntry (e : Entry) : Word := e.rsv ++ e.addr ++ e.ck

/-- 30_encoding.md R87: four bytes to a word, the first in bits [31:24]. -/
def packBytes : List Byte → List Word
  | b0 :: b1 :: b2 :: b3 :: bs => (b0 ++ b1 ++ b2 ++ b3) :: packBytes bs
  | _ => []

/-- The words of a command's frame (30_encoding.md R72). -/
def encode : Instr → List Word
  | .clrAddr rsv => [Opcode.clrAddr.byte ++ rsv]
  | .clrData rsv => [Opcode.clrData.byte ++ rsv]
  | .write rsv0 a rsv1 d => [Opcode.write.byte ++ rsv0 ++ a, rsv1 ++ d]
  | .read rsv a => [Opcode.read.byte ++ rsv ++ a]
  | .dump rsv records =>
    (Opcode.dump.byte ++ rsv ++ BitVec.ofNat 16 records.length) :: records.flatMap encodeRecord
  | .verify rsv0 bc rt rsv1 entries =>
    (Opcode.verify.byte ++ rsv0 ++ bc ++ rt) :: (rsv1 ++ BitVec.ofNat 17 entries.length) :: entries.map encodeEntry
  | .bulkRead rsv0 l rsv1 u => [Opcode.bulkRead.byte ++ rsv0 ++ l, rsv1 ++ u]
  | .checksum rsv bytes pad =>
    (Opcode.checksum.byte ++ rsv ++ BitVec.ofNat 8 bytes.length) :: packBytes (bytes ++ pad)
  | .lowerMargin rsv a => [Opcode.lowerMargin.byte ++ rsv ++ a]
  | .upperMargin rsv a => [Opcode.upperMargin.byte ++ rsv ++ a]

/-! ## The host's numbering of an instruction's bits -/

/-- Word `k` of an instruction whose bits are `w`, bit 0 the least significant bit of word 0. -/
def tableWord (w k : Nat) : Word := BitVec.ofNat 32 (w >>> (32 * k))

/-- The whole frame of the instruction whose low `nbits` bits are those of `w` and whose other bits are 0. -/
def tableFrame (nbits w : Nat) : List Word :=
  let v := w % 2 ^ nbits
  let n := (frameLength [tableWord v 0, tableWord v 1]).getD 1
  (List.range n).map (tableWord v)

/-- The command the decoder reads from an instruction whose bits are `w`. -/
def decodeTableWord (nbits w : Nat) : Option Instr :=
  match decode (tableFrame nbits w) with
  | .ok (i, _) => some i
  | .error _ => none

end Sys2Proof
end

