-- ==== Sys2Proof/Config.lean ====
section
/-! DEFINITION. What an instance fixes (10_state.md R20 to R22: pin roles, pin map, polarities, delays) and the free values of 00_scope.md R7. Every `opaque` constant here has no body: nothing can be proved about its value. -/

namespace Sys2Proof

/-- The two shift chains: the address chain `A` and the data chain `D` (41_shift_chain.md). -/
inductive Chain where
  | addr
  | data
deriving DecidableEq, Repr

/-- The thirteen output roles of 10_state.md R21, in the table's order. -/
inductive OutRole where
  | aSer | aSclk | aRclk | aClr
  | dSer | dSclk | dRclk | dClr
  | rdLatch | rdClk | wrEn | wrClk | notify
deriving DecidableEq, Repr

/-- The fourteen pin roles of 10_state.md R21: `RD_SER` is the one input. -/
inductive Role where
  | out (r : OutRole)
  | rdSer
deriving DecidableEq, Repr

inductive Direction where
  | output
  | input
deriving DecidableEq, Repr

/-- The fixed direction of each role (10_state.md R21). -/
def Role.direction : Role → Direction
  | .out _ => .output
  | .rdSer => .input

/-- The delays the micro-sequences wait for (40_pin.md R104). -/
inductive Delay where
  | hold | settle | blink
deriving DecidableEq, Repr

/-- What the I/O layer answers to one Drive or Sample (40_pin.md R105). -/
inductive IoOutcome where
  | ok | fail | never
deriving DecidableEq, Repr, Inhabited

def OutRole.all : List OutRole :=
  [.aSer, .aSclk, .aRclk, .aClr, .dSer, .dSclk, .dRclk, .dClr, .rdLatch, .rdClk, .wrEn, .wrClk, .notify]

/-- The fourteen roles in the order of the table of 10_state.md R21. -/
def Role.all : List Role :=
  [.out .aSer, .out .aSclk, .out .aRclk, .out .aClr, .out .dSer, .out .dSclk, .out .dRclk, .out .dClr,
   .out .rdLatch, .out .rdClk, .rdSer, .out .wrEn, .out .wrClk, .out .notify]

/-- The place of a role in the table of 10_state.md R21. -/
def Role.index : Role → Fin 28
  | .out .aSer => 0 | .out .aSclk => 1 | .out .aRclk => 2 | .out .aClr => 3
  | .out .dSer => 4 | .out .dSclk => 5 | .out .dRclk => 6 | .out .dClr => 7
  | .out .rdLatch => 8 | .out .rdClk => 9 | .rdSer => 10 | .out .wrEn => 11 | .out .wrClk => 12 | .out .notify => 13

namespace Config

/-- `PINMAP`, a parameter (00_scope.md R5, 92_eei_decisions.md D6). A well-formed map gives the fourteen
roles distinct ids in 0..27 (10_state.md R21), that is: it is the restriction of a permutation of the 28
ids, and every such restriction is well-formed. A configuration that fails the check has no instance
(60_exceptions.md R206), so none is represented. Assumption log 5. -/
opaque pinOrder : Equiv.Perm (Fin 28)

/-- The pin id of a role. -/
def pinMap (r : Role) : Nat := (pinOrder r.index).val

/-- The parameters of an instance that are no pin map (00_scope.md R5, 10_state.md R20). -/
structure Parameters where
  /-- `ASSERT_LEVEL`, of the roles whose polarity an instance chooses (10_state.md R22) -/
  assertLevel : OutRole → Bool
  /-- `T_HOLD` in ms -/
  tHold : Nat
  /-- `T_SETTLE` in ms -/
  tSettle : Nat
  /-- `T_BLINK` in ms -/
  tBlink : Nat
deriving Inhabited

/-- The defaults (00_scope.md R5 for the times, 10_state.md R22 for the levels). The serial roles have no default
of their own, and `RD_LATCH` no choice: `Parameters.assertLvl` does not look at them. -/
def Parameters.default : Parameters where
  assertLevel
    | .aClr | .dClr | .wrEn | .rdLatch => false
    | .aSclk | .aRclk | .dSclk | .dRclk | .rdClk | .wrClk | .notify | .aSer | .dSer => true
  tHold := 50
  tSettle := 50
  tBlink := 500

/-- `assert_lvl(r)` of 10_state.md R22 under these parameters: `RD_LATCH` asserts at 0 (the source fixes it), the
serial roles' released level is 0, and every other role's level is its parameter. `NOTIFY` is on at its asserted
level (assumption log 3). -/
def Parameters.assertLvl (p : Parameters) : OutRole → Bool
  | .rdLatch => false
  | .aSer => true
  | .dSer => true
  | r => p.assertLevel r

/-- `release_lvl(r)` of 10_state.md R22. -/
def Parameters.releaseLvl (p : Parameters) (r : OutRole) : Bool := !p.assertLvl r

/-- The least length of a wait (40_pin.md R104). -/
def Parameters.minTime (p : Parameters) : Delay → Nat
  | .hold => p.tHold
  | .settle => p.tSettle
  | .blink => p.tBlink

/-- This instance's parameters: any, of which `Parameters.default` is one (assumption log 4 and 6). -/
opaque parameters : Parameters

/-- `assert_lvl(r)` of this instance. -/
def assertLvl (r : OutRole) : Bool := parameters.assertLvl r

/-- `release_lvl(r)` of this instance. -/
def releaseLvl (r : OutRole) : Bool := parameters.releaseLvl r

/-- `T_HOLD` of this instance. -/
def tHold : Nat := parameters.tHold
/-- `T_SETTLE` of this instance. -/
def tSettle : Nat := parameters.tSettle
/-- `T_BLINK` of this instance. -/
def tBlink : Nat := parameters.tBlink

/-- The free value of the `n`-th draw of one bit (00_scope.md R7). -/
opaque freeBit : Nat → Bool
/-- The free value of the `n`-th draw of one SRAM word (00_scope.md R7, 20_memory.md R55). -/
opaque freeWord : Nat → Data
/-- The free answer of the I/O layer at the `n`-th draw (40_pin.md R105). -/
opaque freeOutcome : Nat → IoOutcome

end Config

/-- One pin of a raw configuration, before the check of 40_pin.md R100. -/
structure RawPin where
  role : Role
  id : Int
  direction : Direction
  /-- the level driven at bind time (outputs only; one given to the input role RD_SER is not looked at, which is a
  DESIGN CHOICE, assumption log 31) -/
  initial : Option Bool
deriving DecidableEq, Repr

/-- Why a configuration is refused at bind time (40_pin.md R100, 60_exceptions.md R206). -/
inductive ConfigurationError where
  /-- a role has no pin (10_state.md R21 (a)) -/
  | roleUnmapped (r : Role)
  /-- a pin id outside 0..27 (R21 (b)) -/
  | idOutOfRange (r : Role)
  /-- a role is bound with the wrong direction (R21 (c)) -/
  | wrongDirection (r : Role)
  /-- two roles share a pin id (R21 (d), 92_eei_decisions.md D6) -/
  | idShared (r : Role)
  /-- an output's initial level is not its released level (92_eei_decisions.md D5) -/
  | initialLevel (r : Role)
deriving DecidableEq, Repr

end Sys2Proof
end

