-- ==== Sys2Proof/Machine/State.lean ====
section
/-! DEFINITION. The state of the block, its host port, its inputs and the devices it drives (10_state.md R20 to R39), as plain data, and the state after reset. -/

namespace Sys2Proof.Machine

/-- Why the machine stops. -/
inductive Fault where
  /-- DirectionError (60_exceptions.md R207): a Drive of an input role or a Sample of an output role. Raised by
  the Drive and Sample operations; the spec says it is unreachable and must be a fault. Safe. -/
  | directionError (r : Role)
deriving DecidableEq, Repr

/-- Why the model gives an instruction no meaning. -/
inductive Refusal where
  /-- Raised by a dispatch arm whose instruction has no meaning yet; no arm does. Safe. -/
  | notModelled (mnemonic : String)
deriving DecidableEq, Repr

/-- `LVL(r)` of 10_state.md R29, told by the role's own polarity: at its released level, at its asserted
level, or `⊥`. The level in {0, 1, ⊥} is `State.lvl` (assumption log 2). -/
inductive Level where
  | released
  | asserted
  | bot
deriving DecidableEq, Repr

/-- The levels of the thirteen output roles (10_state.md R21, R29). -/
structure Pins where
  aSer : Level
  aSclk : Level
  aRclk : Level
  aClr : Level
  dSer : Level
  dSclk : Level
  dRclk : Level
  dClr : Level
  rdLatch : Level
  rdClk : Level
  wrEn : Level
  wrClk : Level
  notify : Level
deriving DecidableEq, Repr

/-- One SRAM word that holds a value: its address and the value. -/
abbrev WordCell := Nat × Data

/-- `MEM` of 10_state.md R36: the words that hold a value, addresses strictly rising; an unlisted word is `⊥`
(10_state.md R38). -/
abbrev Memory := List WordCell

/-- Where the block stands between two steps of the model (10_state.md R26, R27). BUSY is `receiving` or
`hung`; while a command runs the block is inside a step. -/
inductive Phase where
  /-- waits for word 0 of a frame -/
  | idle
  /-- BUSY, the frame in `rx` is not complete (30_encoding.md R77) -/
  | receiving
  /-- BUSY for ever: an I/O operation never completes (60_exceptions.md R204) -/
  | hung
  /-- the reset input was asserted; the bind is still to be performed (70_reset_and_hazards.md R230) -/
  | resetting
  /-- the bind failed or hangs: the block does not leave reset (R230, 60_exceptions.md R206) -/
  | held
deriving DecidableEq, Repr

structure State where
  /-- the command words the host has still to present, in order (30_encoding.md R77) -/
  words : List Word
  /-- the words of a partly received frame (70_reset_and_hazards.md R230) -/
  rx : List Word
  /-- the response words the host has taken, oldest first (30_encoding.md R77) -/
  out : List Word
  /-- the pulses made on the progress output (44_batch.md R160) -/
  progress : Nat
  /-- the reset input: micro-steps until it is next asserted, then until the time after, ... (assumption log 8) -/
  resets : List Nat
  /-- the I/O layer's next answers (40_pin.md R105; assumption log 7) -/
  io : List IoOutcome
  /-- what it answers after them: always the same, or a free value each time -/
  ioRest : Option IoOutcome
  /-- which chain engine moves next inside WRITE (43_memory_driver.md R142; assumption log 9) -/
  sched : List Chain
  /-- the command pointer (10_state.md R26) -/
  cmdPtr : Nat
  /-- idle, BUSY or in reset (10_state.md R26, R27) -/
  phase : Phase
  /-- the micro-step: how many micro-steps of the current command were begun, 0 being `IDLE` (10_state.md R26) -/
  micro : Nat
  /-- `CLRA` (10_state.md R25) -/
  clra : Bool
  /-- `CLRD` -/
  clrd : Bool
  /-- `IOERR` -/
  ioerr : Bool
  /-- `OPC` (10_state.md R23, and so down to `idx`) -/
  opc : Val Byte
  opa : Val Addr
  opb : Val Addr
  opd : Val Data
  bc : Val Byte
  rt : Val Byte
  acc : Val Data
  ckacc : Val Byte
  bitcnt : Val (BitVec 5)
  idx : Val (BitVec 17)
  /-- `LVL` of every output role (10_state.md R29) -/
  pins : Pins
  /-- `SA[0..15]` (10_state.md R30) -/
  sa : Bits 16
  /-- `OA[0..15]` -/
  oa : Bits 16
  /-- `SD[0..23]` (10_state.md R31) -/
  sd : Bits 24
  /-- `OD[0..23]` -/
  od : Bits 24
  /-- `Q[0..23]` (10_state.md R33) -/
  q : Bits 24
  /-- `MEM` (10_state.md R36) -/
  mem : Memory
  /-- the model's own: the index of the next free value (assumption log 1) -/
  draws : Nat
deriving DecidableEq, Repr

/-- Every output role at its released level (10_state.md R38, R39). -/
def Pins.released : Pins :=
  ⟨.released, .released, .released, .released, .released, .released, .released, .released, .released, .released,
   .released, .released, .released⟩

/-- Every output level unknown (60_exceptions.md R203, 70_reset_and_hazards.md R231). -/
def Pins.unknown : Pins :=
  ⟨.bot, .bot, .bot, .bot, .bot, .bot, .bot, .bot, .bot, .bot, .bot, .bot, .bot⟩

/-- The block after power-on and reset (10_state.md R38): bound and idle, every device element and every SRAM
word `⊥`. The host has presented no word and nothing is scheduled on the inputs (assumption log 7 to 9, 12). -/
def State.reset : State where
  words := []
  rx := []
  out := []
  progress := 0
  resets := []
  io := []
  ioRest := some .ok
  sched := []
  cmdPtr := 0
  phase := .idle
  micro := 0
  clra := false
  clrd := false
  ioerr := false
  opc := .bot
  opa := .bot
  opb := .bot
  opd := .bot
  bc := .bot
  rt := .bot
  acc := .bot
  ckacc := .bot
  bitcnt := .bot
  idx := .bot
  pins := Pins.released
  sa := Vector.replicate 16 .bot
  oa := Vector.replicate 16 .bot
  sd := Vector.replicate 24 .bot
  od := Vector.replicate 24 .bot
  q := Vector.replicate 24 .bot
  mem := []
  draws := 0

/-- The block at power-on, before the bind (70_reset_and_hazards.md R231): every output level is `⊥` too. -/
def State.powerOn : State := { State.reset with phase := .resetting, pins := Pins.unknown }

end Sys2Proof.Machine
end

