-- ==== Sys2Proof/Machine/Flags.lean ====
section
/-! DEFINITION. Status codes, the flag field and the response header (60_exceptions.md R200, 10_state.md R28, 30_encoding.md R78). -/

namespace Sys2Proof.Machine

/-- The outcome codes of 60_exceptions.md R200. -/
inductive Status where
  | ok
  | illegalCommand
  | badOperand
  | notCleared
  | transportError
deriving DecidableEq, Repr

/-- The code of a status (60_exceptions.md R200). -/
def statusCode : Status → Byte
  | .ok => 0x00
  | .illegalCommand => 0x01
  | .badOperand => 0x02
  | .notCleared => 0x03
  | .transportError => 0x04

/-- `FLAGS` of 10_state.md R28: bit 2 `IOERR`, bit 1 `CLRD`, bit 0 `CLRA`. -/
def flagField (s : State) : BitVec 3 := BitVec.ofBool s.ioerr ++ BitVec.ofBool s.clrd ++ BitVec.ofBool s.clra

/-- `header(opc, status)` of 30_encoding.md R78, with the flags as they stand in `s`. -/
def header (opc : Byte) (st : Status) (s : State) : Word := opc ++ statusCode st ++ (0 : BitVec 13) ++ flagField s

end Sys2Proof.Machine
end

