-- ==== Sys2Proof/Machine/Operands.lean ====
section
/-! DEFINITION. What a command needs before it runs, the order of the checks, and the operand registers that decode writes (60_exceptions.md R202, 30_encoding.md R73 and R80). -/

namespace Sys2Proof.Machine

/-- Check 2 of 60_exceptions.md R202: reserved bits and operand ranges (30_encoding.md R80). -/
def operandsLegal (i : Instr) : Bool := i.legal

/-- The command shifts the address chain, so it needs `CLRA` (60_exceptions.md R202, check 4). -/
def needsAddrChain : Opcode → Bool
  | .write | .dump | .read | .verify | .bulkRead => true
  | .clrAddr | .clrData | .checksum | .lowerMargin | .upperMargin => false

/-- The command shifts the data chain, so it needs `CLRD`. -/
def needsDataChain : Opcode → Bool
  | .write | .dump => true
  | .read | .verify | .bulkRead | .clrAddr | .clrData | .checksum | .lowerMargin | .upperMargin => false

/-- The chain flags the command needs are set. -/
def chainsCleared (op : Opcode) (s : State) : Bool :=
  (!needsAddrChain op || s.clra) && (!needsDataChain op || s.clrd)

/-- 60_exceptions.md R202, checks 2 to 4 in their order: the status a decoded command is refused with, or
`none` where it is admitted. (Check 1, an unassigned `OPC`, is decided before there is a command.) -/
def admission (i : Instr) (s : State) : Option Status :=
  if operandsLegal i = false then some .badOperand
  else if s.ioerr then some .transportError
  else if chainsCleared i.opcode s = false then some .notCleared
  else none

/-- Decode's writes of the datapath registers (30_encoding.md R73, 10_state.md R23), made for an admitted
command only: a refused one changes no state (60_exceptions.md R208; assumption log 14). -/
def latchOperands (opc : Byte) (i : Instr) (s : State) : State :=
  match i with
  | .write _ a _ d => { s with opc := .known opc, opa := .known a, opd := .known d }
  | .read _ a => { s with opc := .known opc, opa := .known a }
  | .verify _ bc rt _ _ => { s with opc := .known opc, bc := .known bc, rt := .known rt }
  | .bulkRead _ l _ u => { s with opc := .known opc, opa := .known l, opb := .known u }
  | .lowerMargin _ a => { s with opc := .known opc, opa := .known a }
  | .upperMargin _ a => { s with opc := .known opc, opa := .known a }
  | .clrAddr _ => { s with opc := .known opc }
  | .clrData _ => { s with opc := .known opc }
  | .dump _ _ => { s with opc := .known opc }
  | .checksum _ _ _ => { s with opc := .known opc }

end Sys2Proof.Machine
end

