-- ==== Sys2Proof/Machine/Ops.lean ====
section
/-! DEFINITION. The named operations: memory, pin levels, shift registers and their edges (10_state.md R29 to R36, 20_memory.md R53 to R55), Drive, Sample and Wait (40_pin.md), the two concurrent engines (43_memory_driver.md R142), the transport failure (60_exceptions.md R203), the block reset (70_reset_and_hazards.md R230) and the response (30_encoding.md R78). -/

namespace Sys2Proof.Machine

/-! ## Memory -/

/-- `MEM[a]`, `⊥` where nothing is listed (10_state.md R38). -/
def Memory.read : Memory → Nat → Val Data
  | [], _ => .bot
  | (k, v) :: m, a => if k = a then .known v else Memory.read m a

/-- `MEM[a] <- v`, keeping the addresses rising. -/
def Memory.set : Memory → Nat → Data → Memory
  | [], a, v => [(a, v)]
  | (k, w) :: m, a, v =>
    if a < k then (a, v) :: (k, w) :: m
    else if a = k then (a, v) :: m
    else (k, w) :: Memory.set m a v

/-- `MEM[a] <- ⊥`: the word is no longer listed. -/
def Memory.forget (m : Memory) (a : Nat) : Memory := m.filter fun c => c.1 != a

/-- `MEM[a] <- v` for every `a` is `⊥`. -/
def Memory.unknown : Memory := []

/-- The canonical form: addresses strictly rising, every one of them in the space of 20_memory.md R50. -/
abbrev Memory.wf (m : Memory) : Prop := m.Pairwise (fun c d => c.1 < d.1) ∧ ∀ c ∈ m, c.1 < 2 ^ 16

/-! ## Shift registers -/

/-- Every bit `⊥`. -/
def allBot (n : Nat) : Bits n := Vector.replicate n .bot

/-- Every bit 0. -/
def allZero (n : Nat) : Bits n := Vector.replicate n (.known false)

/-- The bits of a value. -/
def bitsOf {n : Nat} (w : BitVec n) : Bits n := Vector.ofFn fun k => .known w[k]

/-- One bit is not `⊥`. -/
def bitKnown : Bit → Bool
  | .known _ => true
  | .bot => false

/-- A known bit is 1. -/
def bitIsOne : Bit → Bool
  | .known b => b
  | .bot => false

/-- The value of a register, defined only when no bit of it is `⊥` (20_memory.md R53). -/
def wordOf {n : Nat} (v : Bits n) : Val (BitVec n) :=
  if v.toList.all bitKnown then .known (BitVec.ofFnLE fun k : Fin n => bitIsOne v[k]) else .bot

/-- A SIPO shift-clock edge (10_state.md R32): `S[k] <- S[k+1]`, `S[L-1] <- b`. -/
def shiftIn {n : Nat} (v : Bits n) (b : Bit) : Bits n := ⟨((v.toList ++ [b]).drop 1).toArray, by simp⟩

/-- A PISO clock edge (10_state.md R34): `Q[k] <- Q[k-1]`, `Q[0] <- ⊥`. -/
def shiftOut {n : Nat} (v : Bits n) : Bits n := ⟨((.bot :: v.toList).take n).toArray, by simp⟩

/-! ## Pin levels -/

/-- The level of an output role. -/
def Pins.get (p : Pins) : OutRole → Level
  | .aSer => p.aSer
  | .aSclk => p.aSclk
  | .aRclk => p.aRclk
  | .aClr => p.aClr
  | .dSer => p.dSer
  | .dSclk => p.dSclk
  | .dRclk => p.dRclk
  | .dClr => p.dClr
  | .rdLatch => p.rdLatch
  | .rdClk => p.rdClk
  | .wrEn => p.wrEn
  | .wrClk => p.wrClk
  | .notify => p.notify

/-- `LVL(r) <- l`. -/
def Pins.set (p : Pins) (r : OutRole) (l : Level) : Pins :=
  match r with
  | .aSer => { p with aSer := l }
  | .aSclk => { p with aSclk := l }
  | .aRclk => { p with aRclk := l }
  | .aClr => { p with aClr := l }
  | .dSer => { p with dSer := l }
  | .dSclk => { p with dSclk := l }
  | .dRclk => { p with dRclk := l }
  | .dClr => { p with dClr := l }
  | .rdLatch => { p with rdLatch := l }
  | .rdClk => { p with rdClk := l }
  | .wrEn => { p with wrEn := l }
  | .wrClk => { p with wrClk := l }
  | .notify => { p with notify := l }

/-- The level in {0, 1, ⊥} that a role has at a `Level` (10_state.md R22). -/
def physicalLevel (r : OutRole) : Level → Bit
  | .released => .known (Config.releaseLvl r)
  | .asserted => .known (Config.assertLvl r)
  | .bot => .bot

/-- `LVL(r)` in {0, 1, ⊥} (10_state.md R29). -/
def State.lvl (s : State) (r : OutRole) : Bit := physicalLevel r (s.pins.get r)

/-- The levels of the output roles become `p`. -/
def State.withPins (s : State) (p : Pins) : State := { s with pins := p }

/-- The schedule of the two chain engines becomes `sc`. -/
def State.withSched (s : State) (sc : List Chain) : State := { s with sched := sc }

/-- The level a Drive gives: asserted or released. -/
def driven (on : Bool) : Level := if on then .asserted else .released

/-! ## Micro-steps and the inputs -/

/-- The reset input is asserted before the next micro-step (70_reset_and_hazards.md R232). -/
def State.resetDue (s : State) : Bool :=
  match s.resets with
  | 0 :: _ => true
  | _ => false

/-- One micro-step fewer until the reset input is asserted. -/
def countDown (k : Nat) : List Nat → List Nat
  | [] => []
  | d :: ds => (d - k) :: ds

/-- A micro-step is begun. -/
def State.tick (s : State) : State := { s with micro := s.micro + 1, resets := countDown 1 s.resets }

/-- The next answer of the I/O layer (40_pin.md R105). -/
def State.ioNow (s : State) : IoOutcome :=
  match s.io with
  | o :: _ => o
  | [] => s.ioRest.getD (Config.freeOutcome s.draws)

/-- The answer is used up. -/
def State.ioUsed (s : State) : State :=
  match s.io with
  | _ :: os => { s with io := os }
  | [] => if s.ioRest.isSome then s else { s with draws := s.draws + 1 }

/-- A free value is used up (00_scope.md R7: independently at each read). -/
def State.drawn (s : State) : State := { s with draws := s.draws + 1 }

/-! ## Reactions of the devices to assert edges -/

/-- `SramOut` at the load edge of the PISO (20_memory.md R55, 10_state.md R34). A `⊥` word is a draw. -/
def latchEdge (s : State) : State :=
  match s.pins.wrEn, wordOf s.oa with
  | .released, .known a =>
    match Memory.read s.mem a.toNat with
    | .known d => { s with q := bitsOf d }
    | .bot => { s with q := bitsOf (Config.freeWord s.draws), draws := s.draws + 1 }
  | _, _ => { s with q := allBot 24 }

/-- What the write edge does to `MEM` (20_memory.md R54). -/
def writeEdge (wrEn : Level) (addr : Val Addr) (data : Val Data) (m : Memory) : Memory :=
  match wrEn, addr, data with
  | .released, _, _ => m
  | .bot, _, _ => Memory.unknown
  | .asserted, .bot, _ => Memory.unknown
  | .asserted, .known a, .bot => Memory.forget m a.toNat
  | .asserted, .known a, .known d => Memory.set m a.toNat d

/-- What a clock edge gives while `gate`, the clear or the latch that must be released, is at this level; an
edge while it is not released is never produced, and leaves the register unknown (U15; assumption log 18). -/
def clocked {n : Nat} (gate : Level) (v : Bits n) : Bits n :=
  match gate with
  | .released => v
  | .asserted => allBot n
  | .bot => allBot n

/-- The device wired to `r` reacts to an assert edge (10_state.md R32, R34, R35; 20_memory.md R54). -/
def react (r : OutRole) (s : State) : State :=
  match r with
  | .aClr => { s with sa := allZero 16, oa := allBot 16 }
  | .aSclk => { s with sa := clocked s.pins.aClr (shiftIn s.sa (physicalLevel .aSer s.pins.aSer)) }
  | .aRclk => { s with oa := clocked s.pins.aClr s.sa }
  | .dClr => { s with sd := allZero 24, od := allBot 24 }
  | .dSclk => { s with sd := clocked s.pins.dClr (shiftIn s.sd (physicalLevel .dSer s.pins.dSer)) }
  | .dRclk => { s with od := clocked s.pins.dClr s.sd }
  | .rdLatch => latchEdge s
  | .rdClk => { s with q := clocked s.pins.rdLatch (shiftOut s.q) }
  | .wrClk => { s with mem := writeEdge s.pins.wrEn (wordOf s.oa) (wordOf s.od) s.mem }
  | .aSer | .dSer | .wrEn | .notify => s

/-! ## Micro-operations -/

/-- How a piece of a command ends: `done`; `failed`, a TransportError; `hung`, an operation never completes;
`cut`, the reset input was asserted; `fault`. -/
inductive Run (ε α : Type) where
  | done (a : α) (s : State)
  | failed (e : ε) (s : State)
  | hung (s : State)
  | cut (s : State)
  | fault (f : Fault)
deriving DecidableEq, Repr

/-- Go on with `k` where the piece is done; a failure is reported as `e`. -/
def Run.bind {ε ε' α β : Type} (r : Run ε α) (e : ε') (k : α → State → Run ε' β) : Run ε' β :=
  match r with
  | .done a s => k a s
  | .failed _ s => .failed e s
  | .hung s => .hung s
  | .cut s => .cut s
  | .fault f => .fault f

/-- The micro-operations of a micro-sequence (40_pin.md; `on` drives the role to its asserted level). -/
inductive MicroOp where
  /-- `BITCNT <- i` (41_shift_chain.md R111): no pin operation -/
  | bitcnt (i : BitVec 5)
  | drive (r : Role) (on : Bool)
  | sample (r : Role)
  | wait (d : Delay)
deriving DecidableEq, Repr

/-- The drive to level `on` is an assert edge (10_state.md R29); from an unknown level it is one as a draw. -/
def isEdge (l : Level) (on : Bool) (s : State) : Bool :=
  match on, l with
  | false, _ => false
  | true, .released => true
  | true, .asserted => false
  | true, .bot => Config.freeBit s.draws

/-- The state in which a Drive's level takes effect: the draw of 10_state.md R29 is used up. -/
def edgeDrawn (l : Level) (on : Bool) (s : State) : State :=
  match on, l with
  | true, .bot => s.drawn
  | true, .released => s
  | true, .asserted => s
  | false, _ => s

/-- A Drive that the I/O layer completes (40_pin.md R101). -/
def driveOk (r : OutRole) (on : Bool) (s : State) : State :=
  let t := edgeDrawn (s.pins.get r) on s
  let u := t.withPins (t.pins.set r (driven on))
  if isEdge (s.pins.get r) on s then react r u else u

/-- DRIVE (40_pin.md R101). -/
def drive (r : Role) (on : Bool) (s : State) : Run Unit (List Bool) :=
  match r with
  | .rdSer => .fault (.directionError .rdSer)
  | .out r =>
    if s.resetDue then .cut s
    else
      match s.tick.ioNow with
      | .ok => .done [] (driveOk r on s.tick.ioUsed)
      | .fail => .failed () (s.tick.ioUsed.withPins (s.pins.set r .bot))
      | .never => .hung s.tick.ioUsed

/-- A Sample that the I/O layer completes (40_pin.md R102): `Q[23]`, a draw where it is `⊥`. -/
def sampleOk (s : State) : Run Unit (List Bool) :=
  match s.q[23] with
  | .known b => .done [b] s
  | .bot => .done [Config.freeBit s.draws] s.drawn

/-- SAMPLE (40_pin.md R102). -/
def sample (r : Role) (s : State) : Run Unit (List Bool) :=
  match r with
  | .out r => .fault (.directionError (.out r))
  | .rdSer =>
    if s.resetDue then .cut s
    else
      match s.tick.ioNow with
      | .ok => sampleOk s.tick.ioUsed
      | .fail => .failed () s.tick.ioUsed
      | .never => .hung s.tick.ioUsed

/-- WAIT (40_pin.md R104): a micro-step that only orders the steps around it. -/
def wait (s : State) : Run Unit (List Bool) := if s.resetDue then .cut s else .done [] s.tick

/-- One micro-operation; a Sample answers the sampled bit. -/
def stepOp (op : MicroOp) (s : State) : Run Unit (List Bool) :=
  match op with
  | .bitcnt i => .done [] { s with bitcnt := .known i }
  | .drive r on => drive r on s
  | .sample r => sample r s
  | .wait _ => wait s

/-- A micro-sequence, in order (40_pin.md R107); it answers the sampled bits in order. -/
def runOps : List MicroOp → State → Run Unit (List Bool)
  | [], s => .done [] s
  | op :: ops, s => (stepOp op s).bind () fun bs t => (runOps ops t).bind () fun cs u => .done (bs ++ cs) u

/-! ## The two chain engines (43_memory_driver.md R142) -/

/-- Where an engine stands. -/
inductive Engine where
  | running
  | failed
  | stuck
deriving DecidableEq, Repr

/-- The order in which the two engines' steps come, by the schedule; an engine whose turn it is and that has
no step left is passed over, and where the schedule is used up the address engine goes first. -/
def interleave : List Chain → List MicroOp → List MicroOp → List (Chain × MicroOp)
  | .addr :: sc, a :: as, ds => (.addr, a) :: interleave sc as ds
  | .addr :: sc, [], ds => interleave sc [] ds
  | .data :: sc, as, d :: ds => (.data, d) :: interleave sc as ds
  | .data :: sc, as, [] => interleave sc as []
  | [], as, ds => as.map (Prod.mk .addr) ++ ds.map (Prod.mk .data)

/-- The barrier: passed where both engines completed, TransportError where both ended and one failed, never
passed where one never ends. -/
def barrier (ea ed : Engine) (s : State) : Run Unit (List Bool) :=
  if ea = .stuck ∨ ed = .stuck then .hung s
  else if ea = .failed ∨ ed = .failed then .failed () s
  else .done [] s

/-- The interleaved steps. An engine that failed or hangs takes no further step; the other runs to its end
(92_eei_decisions.md D40). -/
def runPar : List (Chain × MicroOp) → Engine → Engine → State → Run Unit (List Bool)
  | [], ea, ed, s => barrier ea ed s
  | (.addr, op) :: ops, ea, ed, s =>
    if ea = .running then
      match stepOp op s with
      | .done _ t => runPar ops .running ed t
      | .failed _ t => runPar ops .failed ed t
      | .hung t => runPar ops .stuck ed t
      | .cut t => .cut t
      | .fault f => .fault f
    else runPar ops ea ed s
  | (.data, op) :: ops, ea, ed, s =>
    if ed = .running then
      match stepOp op s with
      | .done _ t => runPar ops ea .running t
      | .failed _ t => runPar ops ea .failed t
      | .hung t => runPar ops ea .stuck t
      | .cut t => .cut t
      | .fault f => .fault f
    else runPar ops ea ed s

/-- `par { as || ds }`: the schedule decides the order, and its used part is dropped. -/
def par (as ds : List MicroOp) (s : State) : Run Unit (List Bool) :=
  runPar (interleave (s.sched.take (as.length + ds.length)) as ds) .running .running
    (s.withSched (s.sched.drop (as.length + ds.length)))

/-- `Progress()` (44_batch.md R160). -/
def pulseProgress (s : State) : Run Unit Unit :=
  if s.resetDue then .cut s else .done () { s.tick with progress := s.progress + 1 }

/-! ## Failure, reset and response -/

/-- What a transport failure leaves (60_exceptions.md R203): the one way an error changes state. -/
def transportFailure (s : State) : State :=
  { s with
    ioerr := true, clra := false, clrd := false
    pins := Pins.unknown
    sa := allBot 16, sd := allBot 24, oa := allBot 16, od := allBot 24, q := allBot 24
    mem := Memory.unknown }

/-- A reset that finds the block BUSY with this `OPC` leaves every SRAM word unknown: `OPC` is WRITE or DUMP
(70_reset_and_hazards.md R230, R232). -/
def resetHavocsSram : Val Byte → Bool
  | .bot => false
  | .known b => b == Opcode.write.byte || b == Opcode.dump.byte

/-- The reset input is asserted (70_reset_and_hazards.md R230): the work is abandoned and every element but
the pin levels takes its reset value; the bind is the next step's. `found` is the `OPC` of the command the
reset found BUSY, `⊥` where it found none (assumption log 15, 16). -/
def blockReset (found : Val Byte) (s : State) : State :=
  { s with
    resets := s.resets.tail
    rx := []
    phase := .resetting, micro := 0
    clra := false, clrd := false, ioerr := false
    opc := .bot, opa := .bot, opb := .bot, opd := .bot, bc := .bot, rt := .bot
    acc := .bot, ckacc := .bot, bitcnt := .bot, idx := .bot
    sa := allBot 16, sd := allBot 24, oa := allBot 16, od := allBot 24, q := allBot 24
    mem := if resetHavocsSram found then Memory.unknown else s.mem }

/-- Time passes for a block that waits: a reset may arrive (70_reset_and_hazards.md R230). -/
def waitForHost (found : Val Byte) (s : State) : State :=
  if s.resetDue then blockReset found s else { s with resets := countDown 1 s.resets }

/-- How an emission ends. -/
inductive Sent where
  | whole (s : State)
  | cut (s : State)
deriving DecidableEq, Repr

/-- `Emit` of each word in turn (30_encoding.md R77); a reset discards the words not yet sent. -/
def emit : List Word → State → Sent
  | [], s => .whole s
  | w :: ws, s => if s.resetDue then .cut s else emit ws { s.tick with out := s.out ++ [w] }

/-- The response frame (30_encoding.md R78, R79), after which the block is idle. -/
def respond (opc : Byte) (st : Status) (payload : List Word) (s : State) : Host.Outcome State Fault Refusal :=
  match emit (header opc st s :: payload) s with
  | .whole t => .next { t with micro := 0 }
  | .cut t => .next (blockReset (.known opc) t)

/-- The end of an admitted command (60_exceptions.md R201): OK or TRANSPORT_ERROR with its payload, the hang,
or the reset. -/
def conclude (opc : Byte) (r : Run (List Word) (List Word)) : Host.Outcome State Fault Refusal :=
  match r with
  | .done payload s => respond opc .ok payload s
  | .failed payload s => respond opc .transportError payload (transportFailure s)
  | .hung s => .next { s with phase := .hung }
  | .cut s => .next (blockReset (.known opc) s)
  | .fault f => .fault f

/-- A command: admission, then its operands, its work and its end (30_encoding.md R81). -/
def perform (i : Instr) (work : State → Run (List Word) (List Word)) (s : State) :
    Host.Outcome State Fault Refusal :=
  match admission i s with
  | some st => respond i.opcode.byte st [] s
  | none => conclude i.opcode.byte (work (latchOperands i.opcode.byte i s))

end Sys2Proof.Machine
end

