-- ==== Sys2Proof/Machine/Sequences.lean ====
section
/-! DEFINITION. The micro-sequences, as data, in the order the spec lists their operations (40_pin.md R103, 41_shift_chain.md R110 and R111, 43_memory_driver.md R143 and R145, 44_batch.md R164, 70_reset_and_hazards.md R230 and R245). -/

namespace Sys2Proof.Machine

/-- The roles of a chain (10_state.md R21). -/
def serRole : Chain → OutRole
  | .addr => .aSer
  | .data => .dSer

def sclkRole : Chain → OutRole
  | .addr => .aSclk
  | .data => .dSclk

def rclkRole : Chain → OutRole
  | .addr => .aRclk
  | .data => .dRclk

def clrRole : Chain → OutRole
  | .addr => .aClr
  | .data => .dClr

/-- The length of a chain (00_scope.md R5). -/
def chainLength : Chain → Nat
  | .addr => 16
  | .data => 24

/-- `Pulse(r)` (40_pin.md R103). -/
def pulseOps (r : OutRole) : List MicroOp := [.drive (.out r) true, .wait .hold, .drive (.out r) false]

/-- `Clear(c)` (41_shift_chain.md R110). -/
def clearOps (c : Chain) : List MicroOp := pulseOps (clrRole c)

/-- One turn of the loop of `Shift` (41_shift_chain.md R111): bit `i`, of value `b`. -/
def shiftBitOps (c : Chain) (i : Nat) (b : Bool) : List MicroOp :=
  .bitcnt (BitVec.ofNat 5 i) :: .drive (.out (serRole c)) b :: .wait .settle :: pulseOps (sclkRole c)

/-- The turns for the bits `i`, `i+1`, ... of these values. -/
def shiftLoopOps (c : Chain) : Nat → List Bool → List MicroOp
  | _, [] => []
  | i, b :: bs => shiftBitOps c i b ++ shiftLoopOps c (i + 1) bs

/-- The end of `Shift`: the register clock, and the serial pin dropped to 0. -/
def shiftEndOps (c : Chain) : List MicroOp := pulseOps (rclkRole c) ++ [.drive (.out (serRole c)) false]

/-- The bits of a value, least significant first. -/
def bitList {n : Nat} (v : BitVec n) : List Bool := (List.finRange n).map fun k => v[k]

/-- `Shift(c, v, n)` (41_shift_chain.md R111). -/
def shiftOps {n : Nat} (c : Chain) (v : BitVec n) : List MicroOp := shiftLoopOps c 0 (bitList v) ++ shiftEndOps c

/-- Step 2 of WRITE (43_memory_driver.md R143), after the barrier. -/
def writeStrobeOps : List MicroOp :=
  [.wait .settle, .drive (.out .wrEn) true, .wait .settle] ++ pulseOps .wrClk ++
    [.wait .settle, .drive (.out .wrEn) false, .wait .settle]

/-- `WriteSeq(a, d)`: the body of WRITE (43_memory_driver.md R143, 44_batch.md). -/
def writeSeq (a : Addr) (d : Data) (s : State) : Run Unit (List Bool) :=
  (par (shiftOps .addr a) (shiftOps .data d) s).bind () fun _ t => runOps writeStrobeOps t

/-- One turn of READ's sampling loop (43_memory_driver.md R145). -/
def sampleBitOps (j : Nat) : List MicroOp :=
  .bitcnt (BitVec.ofNat 5 j) :: (pulseOps .rdClk ++ [.wait .settle, .sample .rdSer, .wait .settle])

/-- READ up to the load of the PISO: write-enable released, the address shifted, the latch pulsed. -/
def readLoadOps (a : Addr) : List MicroOp :=
  .drive (.out .wrEn) false :: (shiftOps .addr a ++ .wait .settle :: pulseOps .rdLatch)

/-- READ's samples: one before any clock, then 23 after one clock each (43_memory_driver.md R147). -/
def readSampleOps : List MicroOp :=
  [.wait .settle, .sample .rdSer] ++ (List.range' 1 23).flatMap sampleBitOps

/-- The micro-sequence of READ (43_memory_driver.md R145). -/
def readOps (a : Addr) : List MicroOp := readLoadOps a ++ readSampleOps

/-- `b_0 ++ b_1 ++ ... ++ b_23`, the first sample most significant (43_memory_driver.md R145, step 5). -/
def assemble (bits : List Bool) : Data := bits.foldl (fun acc b => acc.shiftConcat b) 0

/-- `ReadSeq(a)`: the body of READ (43_memory_driver.md R145, 44_batch.md), answering `ACC`. -/
def readSeq (a : Addr) (s : State) : Run Unit Data :=
  (runOps (readOps a) s).bind () fun bits t => .done (assemble bits) { t with acc := .known (assemble bits) }

/-- `Blink()` (44_batch.md R164). -/
def blinkOps : List MicroOp :=
  [.drive (.out .notify) true, .wait .blink, .drive (.out .notify) false, .wait .blink,
   .drive (.out .notify) true, .wait .blink, .drive (.out .notify) false]

/-- BIND's drives (40_pin.md R100, 70_reset_and_hazards.md R230): every output role at its released level. -/
def bindOps : List MicroOp := OutRole.all.map fun r => .drive (.out r) false

/-- The least time that the waits of a micro-sequence take, under these least times of each
(70_reset_and_hazards.md R245). -/
def waitTimeBy (least : Delay → Nat) : List MicroOp → Nat
  | [] => 0
  | .wait d :: ops => least d + waitTimeBy least ops
  | .bitcnt _ :: ops => waitTimeBy least ops
  | .drive _ _ :: ops => waitTimeBy least ops
  | .sample _ :: ops => waitTimeBy least ops

/-- That time for this instance. -/
def waitTime (ops : List MicroOp) : Nat := waitTimeBy Config.parameters.minTime ops

/-- The drives of a micro-sequence, in order (41_shift_chain.md R115). -/
def drivesOf : List MicroOp → List (Role × Bool)
  | [] => []
  | .drive r on :: ops => (r, on) :: drivesOf ops
  | .wait _ :: ops => drivesOf ops
  | .bitcnt _ :: ops => drivesOf ops
  | .sample _ :: ops => drivesOf ops

/-- The level in {0, 1} that a drive gives under these parameters (10_state.md R22). -/
def driveLevel (p : Config.Parameters) : Role × Bool → Role × Bool
  | (.out r, on) => (.out r, if on then p.assertLvl r else p.releaseLvl r)
  | (.rdSer, on) => (.rdSer, on)

/-- How many Samples a micro-sequence takes (43_memory_driver.md R147). -/
def sampleCount : List MicroOp → Nat
  | [] => 0
  | .sample _ :: ops => sampleCount ops + 1
  | .wait _ :: ops => sampleCount ops
  | .bitcnt _ :: ops => sampleCount ops
  | .drive _ _ :: ops => sampleCount ops

end Sys2Proof.Machine
end

