-- ==== Sys2Proof/Machine/Checksum.lean ====
section
/-! DEFINITION. The checksum validator and the CHECKSUM command (42_hexcodec.md R125, R126, R129, R130). -/

namespace Sys2Proof.Machine

/-- The accumulator after the bytes, one a step in list order (42_hexcodec.md R126). -/
def ckAccumulate (bytes : List Byte) : Byte := bytes.foldl (· + ·) 0

/-- `ck8` by the datapath: `(0 - CKACC) mod 256` (42_hexcodec.md R126). -/
def ck8 (bytes : List Byte) : Byte := 0 - ckAccumulate bytes

/-- `CKACC` holds the sum of the bytes after the checksum is computed. -/
def withChecksum (bytes : List Byte) (s : State) : State := { s with ckacc := .known (ckAccumulate bytes) }

/-- The canonical bytes of a record (42_hexcodec.md R129). -/
def canon (bc : Byte) (a : Addr) (rt : Byte) (d : Data) : List Byte :=
  [bc, a.extractLsb' 8 8, a.extractLsb' 0 8, rt, d.extractLsb' 16 8, d.extractLsb' 8 8, d.extractLsb' 0 8]

/-- CHECKSUM (42_hexcodec.md R130). -/
def execChecksum (rsv : BitVec 16) (bytes pad : List Byte) (s : State) : Host.Outcome State Fault Refusal :=
  perform (.checksum rsv bytes pad) (fun t => .done [(ck8 bytes).setWidth 32] (withChecksum bytes t)) s

end Sys2Proof.Machine
end

