-- ==== Sys2Proof/Machine/Batch.lean ====
section
/-! DEFINITION. The batch commands and the window alignment (44_batch.md R160 to R172). -/

namespace Sys2Proof.Machine

/-- `IDX <- i` (10_state.md R23). -/
def withIdx (i : Nat) (s : State) : State := { s with idx := .known (BitVec.ofNat 17 i) }

/-- A count field of a payload: bits [31:17] 0, [16:0] the count (30_encoding.md R79). -/
def countWord (n : Nat) : Word := (BitVec.ofNat 17 n).setWidth 32

/-! ## DUMP -/

/-- The mapping address to checksum, in order of each address's first appearance (44_batch.md R162). -/
abbrev Mapping := List (Addr × Byte)

/-- `MapPut` (44_batch.md R162). -/
def mapPut : Mapping → Addr → Byte → Mapping
  | [], a, c => [(a, c)]
  | (k, v) :: m, a, c => if k = a then (a, c) :: m else (k, v) :: mapPut m a c

/-- A mapping entry's word (30_encoding.md R75). -/
def mappingWord (e : Addr × Byte) : Word := (0 : Byte) ++ e.1 ++ e.2

/-- DUMP's payload (30_encoding.md R79). -/
def dumpPayload (m : Mapping) : List Word := countWord m.length :: m.map mappingWord

/-- DUMP's loop from record `i` on, with the mapping so far (44_batch.md R161); a failure answers the
mapping of the records already written (R172). -/
def dumpLoop : Nat → Mapping → List Record → State → Run (List Word) (List Word)
  | _, m, [], s => .done (dumpPayload m) s
  | i, m, r :: rs, s =>
    (writeSeq r.addr r.data (withIdx i s)).bind (dumpPayload m) fun _ t =>
      (pulseProgress t).bind (dumpPayload m) fun _ u => dumpLoop (i + 1) (mapPut m r.addr r.ck) rs u

/-- DUMP (44_batch.md R161). -/
def execDump (rsv : Byte) (records : List Record) (s : State) : Host.Outcome State Fault Refusal :=
  perform (.dump rsv records) (dumpLoop 0 [] records) s

/-! ## VERIFY -/

/-- One line of VERIFY's report: the entry's address, its expected checksum, the data read and the checksum
computed (44_batch.md R163). -/
structure Line where
  addr : Addr
  expected : Byte
  data : Data
  computed : Byte
deriving DecidableEq, Repr

/-- `PASS`: a numeric comparison (44_batch.md R163, 92_eei_decisions.md D15). -/
def linePass (l : Line) : Bool := l.computed == l.expected

/-- The line of an entry whose word read back as `d` (44_batch.md R163). -/
def lineOf (bc rt : Byte) (e : Entry) (d : Data) : Line :=
  { addr := e.addr, expected := e.ck, data := d, computed := ck8 (canon bc e.addr rt d) }

/-- The two words of a line (30_encoding.md R79). -/
def lineWords (l : Line) : List Word :=
  [BitVec.ofBool (linePass l) ++ (0 : BitVec 7) ++ l.addr ++ l.computed, l.expected ++ l.data]

/-- VERIFY's payload (30_encoding.md R79). -/
def verifyPayload (allpass blinked : Bool) (lines : List Line) : List Word :=
  (BitVec.ofBool allpass ++ BitVec.ofBool blinked ++ (0 : BitVec 13) ++ BitVec.ofNat 17 lines.length)
    :: lines.flatMap lineWords

/-- VERIFY's end: the blink if and only if every line passes (44_batch.md R163); a failure inside the blink
answers every line with `BLINKED` = 0 (R172). -/
def verifyEnd (lines : List Line) (s : State) : Run (List Word) (List Word) :=
  if lines.all linePass then
    (runOps blinkOps s).bind (verifyPayload true false lines) fun _ t => .done (verifyPayload true true lines) t
  else .done (verifyPayload false false lines) s

/-- VERIFY's loop from entry `i` on, with the lines so far (44_batch.md R163); a failure answers the lines
completed, with `ALLPASS` = 0 since a line is missing (R172). -/
def verifyLoop (bc rt : Byte) : Nat → List Line → List Entry → State → Run (List Word) (List Word)
  | _, lines, [], s => verifyEnd lines s
  | i, lines, e :: es, s =>
    (readSeq e.addr (withIdx i s)).bind (verifyPayload false false lines) fun d t =>
      (pulseProgress (withChecksum (canon bc e.addr rt d) t)).bind (verifyPayload false false lines) fun _ u =>
        verifyLoop bc rt (i + 1) (lines ++ [lineOf bc rt e d]) es u

/-- VERIFY (44_batch.md R163). -/
def execVerify (rsv0 bc rt : Byte) (rsv1 : BitVec 15) (entries : List Entry) (s : State) :
    Host.Outcome State Fault Refusal :=
  perform (.verify rsv0 bc rt rsv1 entries) (verifyLoop bc rt 0 [] entries) s

/-! ## Windows -/

/-- `lowerMargin` (44_batch.md R166). -/
def lowerMargin (l : Addr) : Addr := l - l % 8

/-- `upperMargin` (44_batch.md R167). -/
def upperMargin (h : Addr) : Addr := h + (7 - h % 8)

/-- LOWER_MARGIN (44_batch.md R168). -/
def execLowerMargin (rsv : Byte) (a : Addr) (s : State) : Host.Outcome State Fault Refusal :=
  perform (.lowerMargin rsv a) (fun t => .done [(lowerMargin a).setWidth 32] t) s

/-- UPPER_MARGIN (44_batch.md R169). -/
def execUpperMargin (rsv : Byte) (a : Addr) (s : State) : Host.Outcome State Fault Refusal :=
  perform (.upperMargin rsv a) (fun t => .done [(upperMargin a).setWidth 32] t) s

/-! ## BULK_READ -/

/-- A value word of BULK_READ: bit 24 the in-range mark, [23:0] the data (44_batch.md R170). -/
def valueWord (l u a : Addr) (d : Data) : Word :=
  (0 : BitVec 7) ++ BitVec.ofBool (decide (l ≤ a) && decide (a ≤ u)) ++ d

/-- The number of addresses in the window (44_batch.md R170). -/
def windowSize (l u : Addr) : Nat := (upperMargin u).toNat - (lowerMargin l).toNat + 1

/-- BULK_READ's payload (30_encoding.md R79). -/
def bulkPayload (l u : Addr) (values : List Word) : List Word :=
  (upperMargin u ++ lowerMargin l) :: countWord values.length :: values

/-- BULK_READ's loop from address number `i` of the window on, `n` addresses to go, with the values so far
(44_batch.md R170); a failure answers the values read (R172). -/
def bulkLoop (l u : Addr) : Nat → Nat → List Word → State → Run (List Word) (List Word)
  | 0, _, values, s => .done (bulkPayload l u values) s
  | n + 1, i, values, s =>
    (readSeq (lowerMargin l + BitVec.ofNat 16 i) (withIdx i s)).bind (bulkPayload l u values) fun d t =>
      (pulseProgress t).bind (bulkPayload l u values) fun _ v =>
        bulkLoop l u n (i + 1) (values ++ [valueWord l u (lowerMargin l + BitVec.ofNat 16 i) d]) v

/-- BULK_READ (44_batch.md R170). -/
def execBulkRead (rsv0 : Byte) (l : Addr) (rsv1 : BitVec 16) (u : Addr) (s : State) :
    Host.Outcome State Fault Refusal :=
  perform (.bulkRead rsv0 l rsv1 u) (bulkLoop l u (windowSize l u) 0 []) s

end Sys2Proof.Machine
end

