-- ==== Sys2Proof/Machine/Single.lean ====
section
/-! DEFINITION. The single-address commands (43_memory_driver.md R140, R141, R143, R145). -/

namespace Sys2Proof.Machine

/-- CLR_ADDR (43_memory_driver.md R140). -/
def execClrAddr (rsv : BitVec 24) (s : State) : Host.Outcome State Fault Refusal :=
  perform (.clrAddr rsv)
    (fun t => (runOps (clearOps .addr) t).bind [] fun _ u => .done [] { u with clra := true }) s

/-- CLR_DATA (43_memory_driver.md R141). -/
def execClrData (rsv : BitVec 24) (s : State) : Host.Outcome State Fault Refusal :=
  perform (.clrData rsv)
    (fun t => (runOps (clearOps .data) t).bind [] fun _ u => .done [] { u with clrd := true }) s

/-- WRITE (43_memory_driver.md R143). -/
def execWrite (rsv0 : Byte) (a : Addr) (rsv1 : Byte) (d : Data) (s : State) : Host.Outcome State Fault Refusal :=
  perform (.write rsv0 a rsv1 d) (fun t => (writeSeq a d t).bind [] fun _ u => .done [] u) s

/-- READ (43_memory_driver.md R145). -/
def execRead (rsv : Byte) (a : Addr) (s : State) : Host.Outcome State Fault Refusal :=
  perform (.read rsv a) (fun t => (readSeq a t).bind [] fun d u => .done [d.setWidth 32] u) s

end Sys2Proof.Machine
end

