-- ==== Sys2Proof/Machine/Dispatch.lean ====
section
/-! DEFINITION. One arm per command of 30_encoding.md R70. -/

namespace Sys2Proof.Machine

def exec (i : Instr) (s : State) : Host.Outcome State Fault Refusal :=
  match i with
  | .clrAddr rsv => Sys2Proof.Machine.execClrAddr rsv s
  | .clrData rsv => Sys2Proof.Machine.execClrData rsv s
  | .write rsv0 a rsv1 d => Sys2Proof.Machine.execWrite rsv0 a rsv1 d s
  | .read rsv a => Sys2Proof.Machine.execRead rsv a s
  | .dump rsv records => Sys2Proof.Machine.execDump rsv records s
  | .verify rsv0 bc rt rsv1 entries => Sys2Proof.Machine.execVerify rsv0 bc rt rsv1 entries s
  | .bulkRead rsv0 l rsv1 u => Sys2Proof.Machine.execBulkRead rsv0 l rsv1 u s
  | .checksum rsv bytes pad => Sys2Proof.Machine.execChecksum rsv bytes pad s
  | .lowerMargin rsv a => Sys2Proof.Machine.execLowerMargin rsv a s
  | .upperMargin rsv a => Sys2Proof.Machine.execUpperMargin rsv a s

end Sys2Proof.Machine
end

