-- ==== Sys2Proof/Machine/Fetch.lean ====
section
/-! DEFINITION. The host port: receiving a frame (30_encoding.md R77, R81), the unassigned opcode (R80), the bind after a reset (70_reset_and_hazards.md R230) and the placing of a frame at the head of the host's words. -/

namespace Sys2Proof.Machine

/-- What the command port has after it accepted what the host presents. -/
inductive Received where
  /-- a whole frame: the command, and the state with the frame consumed -/
  | command (i : Instr) (s : State)
  /-- an unassigned `OPC`, one word consumed (30_encoding.md R80 (a)) -/
  | illegal (opc : Byte) (s : State)
  /-- no whole frame yet, or a reset came first -/
  | waiting (s : State)
deriving DecidableEq, Repr

/-- Accepting `k` words takes `k` micro-steps; the reset input is asserted before the last of them is done:
how many words were accepted by then (assumption log 8). -/
def resetWithin (k : Nat) : List Nat → Option Nat
  | [] => none
  | d :: _ => if d < k then some d else none

/-- The `OPC` a reset finds BUSY while a frame is received: that of its first word, if one was accepted. -/
def opcReceived (accepted : List Word) : Val Byte :=
  match accepted with
  | [] => .bot
  | w :: _ => .known (byte3 w)

/-- The state after `k` more words are accepted and the frame of `n` words is consumed. -/
def consumeFrame (k n : Nat) (s : State) : State :=
  { s with
    words := (s.rx ++ s.words).drop n, rx := [], resets := countDown k s.resets
    phase := .idle, cmdPtr := s.cmdPtr + n }

/-- A reset after `d` more words are accepted: the partly received frame is discarded, and the next word the
host presents is word 0 of a new frame (70_reset_and_hazards.md R230, 10_state.md R38). -/
def cutReception (d : Nat) (s : State) : State :=
  blockReset (opcReceived (s.rx ++ s.words.take d))
    { s with words := s.words.drop d, cmdPtr := s.cmdPtr + s.rx.length + d }

/-- Every word the host presents is accepted, and the frame is not complete; where the host presents none,
time passes. -/
def acceptAll (s : State) : State :=
  if s.words = [] then
    if s.resetDue then cutReception 0 s else { s with resets := countDown 1 s.resets }
  else
    { s with
      rx := s.rx ++ s.words, words := [], resets := countDown s.words.length s.resets
      phase := .receiving }

/-- The words up to the end of the frame are accepted one by one, unless a reset comes first. -/
def receive (s : State) : Received :=
  match decode (s.rx ++ s.words) with
  | .ok (i, n) =>
    match resetWithin (n - s.rx.length) s.resets with
    | some d => .waiting (cutReception d s)
    | none => .command i (consumeFrame (n - s.rx.length) n s)
  | .error (.illegalCommand opc) =>
    match resetWithin (1 - s.rx.length) s.resets with
    | some d => .waiting (cutReception d s)
    | none => .illegal opc (consumeFrame (1 - s.rx.length) 1 s)
  | .error .incompleteFrame =>
    match resetWithin s.words.length s.resets with
    | some d => .waiting (cutReception d s)
    | none => .waiting (acceptAll s)

/-- The answer to an unassigned `OPC` (30_encoding.md R80 (a), 60_exceptions.md R202 check 1). -/
def illegalCommand (opc : Byte) (s : State) : Host.Outcome State Fault Refusal :=
  respond opc .illegalCommand [] s

/-- The bind that ends a block reset (70_reset_and_hazards.md R230): where its drives all complete the block
is idle; one that fails or never completes leaves the block in reset. -/
def bindPins (s : State) : Host.Outcome State Fault Refusal :=
  match runOps bindOps s with
  | .done _ t => .next { t with phase := .idle, micro := 0 }
  | .failed _ t => .next { t with phase := .held }
  | .hung t => .next { t with phase := .held }
  | .cut t => .next (blockReset .bot t)
  | .fault f => .fault f

/-- The first check of BIND that a raw configuration fails (40_pin.md R100, 10_state.md R21). R100 and
92_eei_decisions.md D5 check the initial level of an output, and the spec does not say what becomes of a pin that gives
the input role RD_SER a level: DESIGN CHOICE, the level is not looked at, and such a pin is accepted where it passes
every other check (assumption log 31). -/
def checkPin (seen : List Int) (p : RawPin) : Option ConfigurationError :=
  if p.id < 0 ∨ 27 < p.id then some (.idOutOfRange p.role)
  else if p.direction ≠ p.role.direction then some (.wrongDirection p.role)
  else if p.id ∈ seen then some (.idShared p.role)
  else
    match p.role with
    | .rdSer => none
    | .out r => if p.initial = some (Config.releaseLvl r) then none else some (.initialLevel p.role)

/-- The pins in order; each is checked against the ids bound before it. -/
def checkPins (seen : List Int) : List RawPin → Option ConfigurationError
  | [] => none
  | p :: ps =>
    match checkPin seen p with
    | some e => some e
    | none => checkPins (p.id :: seen) ps

/-- The roles that no pin of the configuration is bound to (10_state.md R21 (a)). -/
def unmappedRoles (pins : List RawPin) : List Role :=
  Role.all.filter fun r => !(pins.any fun p => p.role == r)

/-- BIND's check of a raw configuration (40_pin.md R100): `none` where it is well-formed. A configuration that
fails it has no instance (60_exceptions.md R206). `PINMAP` is a map (10_state.md R21), so the spec does not say what
becomes of a list that binds one role to two different ids: DESIGN CHOICE, it is not looked for, and such a list is
accepted where it passes every other check (assumption log 27). -/
def checkConfiguration (pins : List RawPin) : Option ConfigurationError :=
  match unmappedRoles pins with
  | r :: _ => some (.roleUnmapped r)
  | [] => checkPins [] pins

/-- The raw configuration that this instance's `Config` stands for. -/
def boundPins : List RawPin :=
  Role.all.map fun r =>
    { role := r, id := Config.pinMap r, direction := r.direction
      initial := match r with
        | .out o => some (Config.releaseLvl o)
        | .rdSer => none }

/-- The words of a frame stand next on the command port of an idle block, and no reset is under way. -/
def placeFrame (frame : List Word) (s : State) : State :=
  { s with words := frame ++ s.words, rx := [], phase := .idle, resets := [] }

end Sys2Proof.Machine
end

