-- ==== Sys2Proof/Machine/Step.lean ====
section
/-! DEFINITION. One step of the block (10_state.md R26, R27): a whole command of an idle block, the bind of a block in reset, or time passing. -/

namespace Sys2Proof.Machine

def step (s : State) : Host.Outcome State Fault Refusal :=
  match s.phase with
  | .idle | .receiving =>
    match receive s with
    | .command i t => exec i t
    | .illegal opc t => illegalCommand opc t
    | .waiting t => .next t
  | .hung => .next (waitForHost s.opc s)
  | .resetting => bindPins s
  | .held => .next (waitForHost .bot s)

/-- The frame of the instruction whose low bits are `w` stands where the next step reads its command. -/
def State.withFetchWord (s : State) (nbits w : Nat) : State := placeFrame (tableFrame nbits w) s

end Sys2Proof.Machine
end

