-- ==== Sys2Proof/Machine/HexCodec.lean ====
section
/-! DEFINITION. The hex text conversions of the transcriber and of the READ datapath (42_hexcodec.md R120 to R124, R128). Text is a list of characters. -/

namespace Sys2Proof.Machine

/-- Why a text is refused: FORMAT_ERROR is a verdict of the transcriber, no status of the block
(30_encoding.md R85). -/
inductive TextError where
  | formatError
deriving DecidableEq, Repr

/-- The value of a hex digit of either case (42_hexcodec.md R120). -/
def hexDigitValue (c : Char) : Option Nat :=
  if 48 ≤ c.toNat ∧ c.toNat ≤ 57 then some (c.toNat - 48)
  else if 97 ≤ c.toNat ∧ c.toNat ≤ 102 then some (c.toNat - 87)
  else if 65 ≤ c.toNat ∧ c.toNat ≤ 70 then some (c.toNat - 55)
  else none

/-- The value of a binary digit. -/
def binDigitValue (c : Char) : Option Nat :=
  if c.toNat = 48 then some 0 else if c.toNat = 49 then some 1 else none

/-- The number written by these digits in a base, most significant first, from the value so far. -/
def readDigits (base : Nat) (digit : Char → Option Nat) : Nat → List Char → Option Nat
  | acc, [] => some acc
  | acc, c :: cs =>
    match digit c with
    | some d => readDigits base digit (acc * base + d) cs
    | none => none

/-- `hexval` (30_encoding.md R85). -/
def hexValue (cs : List Char) : Option Nat := readDigits 16 hexDigitValue 0 cs

/-- A hex value in text (42_hexcodec.md R120): its value and its digit count. -/
structure HexWord where
  value : Nat
  digits : Nat
deriving DecidableEq, Repr

/-- `byteWidth` (42_hexcodec.md R120). -/
def byteWidth (h : HexWord) : Nat := h.digits / 2

/-- `bitLength` (42_hexcodec.md R120). -/
def bitLength (h : HexWord) : Nat := 4 * h.digits

/-- The digits after a hex literal's prefix; an upper-case `0X` is refused (92_eei_decisions.md D36). -/
def hexDigitsOf : List Char → Option (List Char)
  | '0' :: 'x' :: ds => some ds
  | _ => none

/-- `parse` (42_hexcodec.md R120). -/
def parseHex (s : List Char) : Except TextError HexWord :=
  match hexDigitsOf s with
  | none => .error .formatError
  | some ds =>
    if ds.length < 2 ∨ ds.length % 2 = 1 then .error .formatError
    else
      match hexValue ds with
      | some v => .ok { value := v, digits := ds.length }
      | none => .error .formatError

/-- `toDecimal` (42_hexcodec.md R121). -/
def toDecimal (s : List Char) : Except TextError Nat := (parseHex s).map HexWord.value

/-- The digit characters, lower case (42_hexcodec.md R124). -/
def digitChar (d : Nat) : Char := if d < 10 then Char.ofNat (48 + d) else Char.ofNat (87 + d)

/-- The low `w` digits of `n` in a base, most significant first. -/
def digitsOf (base : Nat) : Nat → Nat → List Char
  | 0, _ => []
  | w + 1, n => digitsOf base w (n / base) ++ [digitChar (n % base)]

/-- `toBinaryString` (42_hexcodec.md R122). -/
def toBinaryString (s : List Char) : Except TextError (List Char) :=
  (parseHex s).map fun h => ['0', 'b'] ++ digitsOf 2 (bitLength h) h.value

/-- `hexRender(n, w)` (42_hexcodec.md R124). The rule gives it for `0 <= n < 16^w` only. DESIGN CHOICE: for a greater
`n` this total function keeps the low `w` digits (assumption log 32); no caller in the model gives it one. -/
def hexRender (n w : Nat) : List Char := ['0', 'x'] ++ digitsOf 16 w n

/-- `decimalToHex` (42_hexcodec.md R124): refused above 0xFFFF. The spec names no verdict for that refusal: DESIGN
CHOICE, it is FORMAT_ERROR (assumption log 29). -/
def decimalToHex (n : Nat) : Except TextError (List Char) :=
  if n ≤ 0xFFFF then .ok (hexRender n 4) else .error .formatError

/-- `binToHex` (42_hexcodec.md R123): `ceil(m/4)` digits for `m` binary digits. The spec gives no outcome for a text
that is not `0b` and at least one binary digit: DESIGN CHOICE, it is refused with FORMAT_ERROR (assumption log
28). -/
def binToHex (b : List Char) : Except TextError (List Char) :=
  match b with
  | '0' :: 'b' :: ds =>
    if ds = [] then .error .formatError
    else
      match readDigits 2 binDigitValue 0 ds with
      | some v => .ok (hexRender v ((ds.length + 3) / 4))
      | none => .error .formatError
  | _ => .error .formatError

/-- One upper-case hex digit to lower case (42_hexcodec.md R124). -/
def lowerChar (c : Char) : Char := if 65 ≤ c.toNat ∧ c.toNat ≤ 70 then Char.ofNat (c.toNat + 32) else c

/-- The bytes of digit pairs from the left (42_hexcodec.md R128). -/
def bytesOfDigits : List Char → Option (List Byte)
  | [] => some []
  | c :: d :: cs =>
    match hexValue [c, d], bytesOfDigits cs with
    | some v, some bs => some (BitVec.ofNat 8 v :: bs)
    | _, _ => none
  | [_] => none

/-- `bytes(word)` (42_hexcodec.md R128). -/
def bytesOfText (s : List Char) : Except TextError (List Byte) :=
  match parseHex s, hexDigitsOf s with
  | .ok _, some ds =>
    match bytesOfDigits ds with
    | some bs => .ok bs
    | none => .error .formatError
  | _, _ => .error .formatError

/-- `checksum(word)` (42_hexcodec.md R128), a zero-padded 2-digit hex byte (R125). -/
def checksumText (s : List Char) : Except TextError (List Char) :=
  (bytesOfText s).map fun bs => hexRender (ck8 bs).toNat 2

end Sys2Proof.Machine
end

