-- ==== Sys2Proof/Machine/Transcriber.lean ====
section
/-! DEFINITION. The transcriber: text records and the assembler (30_encoding.md R83 to R85). It runs on the host's side and has no state. -/

namespace Sys2Proof.Machine

/-! ## Records -/

/-- `RECORD_LEN` (00_scope.md R5). -/
def recordLength : Nat := 17

/-- `s[i:j]` (00_scope.md R6). -/
def slice (i j : Nat) (s : List Char) : List Char := (s.drop i).take (j - i)

/-- 30_encoding.md R85, with the offsets of R84: the marker is not checked (92_eei_decisions.md D27). -/
def decodeRecord (s : List Char) : Except TextError Record :=
  if s.length ≠ recordLength then .error .formatError
  else
    match hexValue (slice 1 3 s), hexValue (slice 3 7 s), hexValue (slice 7 9 s), hexValue (slice 9 15 s),
      hexValue (slice 15 17 s) with
    | some bc, some addr, some type, some data, some ck =>
      .ok { bc := BitVec.ofNat 8 bc, addr := BitVec.ofNat 16 addr, type := BitVec.ofNat 8 type
            data := BitVec.ofNat 24 data, ck := BitVec.ofNat 8 ck }
    | _, _, _, _, _ => .error .formatError

/-! ## Assembler (30_encoding.md R83; assumption logs 23 and 30) -/

/-- The pieces between separators. -/
def splitText (sep : Char) : List Char → List (List Char)
  | [] => [[]]
  | c :: cs =>
    if c = sep then [] :: splitText sep cs
    else
      match splitText sep cs with
      | p :: ps => (c :: p) :: ps
      | [] => [[c]]

/-- Spaces before a piece are dropped. -/
def dropSpaces : List Char → List Char
  | [] => []
  | c :: cs => if c = ' ' then dropSpaces cs else c :: cs

/-- Spaces around a piece are dropped. -/
def trimText (s : List Char) : List Char := (dropSpaces (dropSpaces s).reverse).reverse

/-- A literal of one of these digit counts, as a field of `w` bits (30_encoding.md R83). A hex literal of another digit
count is no operand by R83, which names no verdict: DESIGN CHOICE, FORMAT_ERROR (assumption log 30). -/
def literal (w : Nat) (counts : List Nat) (s : List Char) : Except TextError (BitVec w) :=
  match parseHex s with
  | .ok h => if h.digits ∈ counts then .ok (BitVec.ofNat w h.value) else .error .formatError
  | .error e => .error e

def addrLiteral (s : List Char) : Except TextError Addr := literal 16 [2, 4] s

def dataLiteral (s : List Char) : Except TextError Data := literal 24 [2, 4, 6] s

def byteLiteral (s : List Char) : Except TextError Byte := literal 8 [2] s

/-- `<addr>:<ck>`, a mapping entry of VERIFY. The verdict for a text without exactly one colon is the model's: DESIGN
CHOICE, FORMAT_ERROR (assumption log 30). -/
def entryLiteral (s : List Char) : Except TextError Entry :=
  match splitText ':' s with
  | [a, c] =>
    match addrLiteral a, byteLiteral c with
    | .ok a, .ok c => .ok { rsv := 0, addr := a, ck := c }
    | _, _ => .error .formatError
  | _ => .error .formatError

/-- Every operand read, or the refusal. -/
def readAll {α : Type} (read : List Char → Except TextError α) : List (List Char) → Except TextError (List α)
  | [] => .ok []
  | s :: ss =>
    match read s, readAll read ss with
    | .ok a, .ok as => .ok (a :: as)
    | _, _ => .error .formatError

/-- Word 0's count field holds the number of records, entries or bytes (00_scope.md R5). The spec names no verdict for
a line whose number it cannot hold: DESIGN CHOICE, FORMAT_ERROR (assumption log 30). -/
def withinFrame (i : Instr) : Except TextError Instr := if i.encodable then .ok i else .error .formatError

/-- The command of a mnemonic and its operands (30_encoding.md R83). The spec names FORMAT_ERROR for a text that is no
hex value (42_hexcodec.md R120) and for a bad record (R85), and no verdict for any other line that R83 does not
allow: an unknown mnemonic, another number of operands, a hex literal of another digit count, a mapping entry without
its one colon, more records, entries or bytes than the frame's count field holds. DESIGN CHOICE: each of these is
refused with FORMAT_ERROR too (assumption log 30). -/
def assembleOperands (mnemonic : List Char) (ops : List (List Char)) : Except TextError Instr :=
  if mnemonic = ['C', 'L', 'R', '_', 'A', 'D', 'D', 'R'] ∧ ops = [] then .ok (.clrAddr 0)
  else if mnemonic = ['C', 'L', 'R', '_', 'D', 'A', 'T', 'A'] ∧ ops = [] then .ok (.clrData 0)
  else if mnemonic = ['W', 'R', 'I', 'T', 'E'] then
    match ops with
    | [a, d] =>
      match addrLiteral a, dataLiteral d with
      | .ok a, .ok d => .ok (.write 0 a 0 d)
      | _, _ => .error .formatError
    | _ => .error .formatError
  else if mnemonic = ['R', 'E', 'A', 'D'] then
    match ops with
    | [a] => (addrLiteral a).map (.read 0 ·)
    | _ => .error .formatError
  else if mnemonic = ['D', 'U', 'M', 'P'] then
    match readAll decodeRecord ops with
    | .ok rs => withinFrame (.dump 0 rs)
    | .error e => .error e
  else if mnemonic = ['V', 'E', 'R', 'I', 'F', 'Y'] then
    match ops with
    | bc :: rt :: es =>
      match byteLiteral bc, byteLiteral rt, readAll entryLiteral es with
      | .ok bc, .ok rt, .ok es => withinFrame (.verify 0 bc rt 0 es)
      | _, _, _ => .error .formatError
    | _ => .error .formatError
  else if mnemonic = ['B', 'U', 'L', 'K', '_', 'R', 'E', 'A', 'D'] then
    match ops with
    | [l, u] =>
      match addrLiteral l, addrLiteral u with
      | .ok l, .ok u => .ok (.bulkRead 0 l 0 u)
      | _, _ => .error .formatError
    | _ => .error .formatError
  else if mnemonic = ['C', 'H', 'E', 'C', 'K', 'S', 'U', 'M'] then
    match ops with
    | [h] =>
      match bytesOfText h with
      | .ok bs => withinFrame (.checksum 0 bs (List.replicate (padLength bs.length) 0))
      | .error e => .error e
    | _ => .error .formatError
  else if mnemonic = ['L', 'O', 'W', 'E', 'R', '_', 'M', 'A', 'R', 'G', 'I', 'N'] then
    match ops with
    | [a] => (addrLiteral a).map (.lowerMargin 0 ·)
    | _ => .error .formatError
  else if mnemonic = ['U', 'P', 'P', 'E', 'R', '_', 'M', 'A', 'R', 'G', 'I', 'N'] then
    match ops with
    | [a] => (addrLiteral a).map (.upperMargin 0 ·)
    | _ => .error .formatError
  else .error .formatError

/-- The mnemonic up to the first space, and the rest. -/
def splitMnemonic : List Char → List Char × List Char
  | [] => ([], [])
  | c :: cs => if c = ' ' then ([], cs) else (c :: (splitMnemonic cs).1, (splitMnemonic cs).2)

/-- One line of assembler text: a mnemonic, then operands separated by commas (30_encoding.md R83). -/
def assembleLine (s : List Char) : Except TextError Instr :=
  let rest := trimText (splitMnemonic s).2
  assembleOperands (splitMnemonic s).1 (if rest = [] then [] else (splitText ',' rest).map trimText)

end Sys2Proof.Machine
end

