-- ==== Sys2Proof/Safety.lean ====
section
/-! DEFINITION. The terms claims are stated in: an undisturbed command, the invariant of the block, the end of a command with status OK, and what a read of the SRAM answers. -/

namespace Sys2Proof.Machine

/-! ## Undisturbed commands -/

/-- The I/O layer completes every operation: `IO_LIVE` and no FAIL (40_pin.md R105). -/
abbrev IoOk (s : State) : Prop := (∀ o ∈ s.io, o = IoOutcome.ok) ∧ s.ioRest = some .ok

/-- No operation fails; some may never complete (40_pin.md R105). -/
abbrev IoNoFail (s : State) : Prop :=
  (∀ o ∈ s.io, o ≠ IoOutcome.fail) ∧ (s.ioRest = some .ok ∨ s.ioRest = some .never)

/-- The I/O layer completes every operation and no reset arrives. -/
abbrev Calm (s : State) : Prop := s.resets = [] ∧ IoOk s

/-- Every operation is answered, with OK or FAIL: `IO_LIVE` alone (40_pin.md R105). -/
abbrev IoAnswers (s : State) : Prop :=
  (∀ o ∈ s.io, o ≠ IoOutcome.never) ∧ (s.ioRest = some .ok ∨ s.ioRest = some .fail)

/-- Every output role is at its released level (10_state.md R39). -/
abbrev Quiet (s : State) : Prop := s.pins = Pins.released

/-- A block that no failure has hit, its outputs at rest, before an undisturbed command. -/
abbrev Ready (s : State) : Prop := Calm s ∧ Quiet s ∧ s.ioerr = false

/-! ## What a shift and a write leave -/

/-- The address chain holds and presents `a` (41_shift_chain.md R112). -/
def addrHolds (a : Addr) (s : State) : State := { s with sa := bitsOf a, oa := bitsOf a }

/-- The data chain holds and presents `d`. -/
def dataHolds (d : Data) (s : State) : State := { s with sd := bitsOf d, od := bitsOf d }

/-- The SRAM's contents become `m`. -/
def memBecomes (m : Memory) (s : State) : State := { s with mem := m }

/-! ## The invariant -/

/-- No bit of the register is `⊥`. -/
abbrev AllKnown {n : Nat} (v : Bits n) : Prop := v.toList.all bitKnown = true

/-- The devices and the SRAM are as a transport failure left them (60_exceptions.md R203). -/
abbrev Havocked (s : State) : Prop :=
  s.pins = Pins.unknown ∧ s.sa = allBot 16 ∧ s.oa = allBot 16 ∧ s.sd = allBot 24 ∧ s.od = allBot 24 ∧
    s.q = allBot 24 ∧ s.mem = Memory.unknown

/-- The block waits for the host: no command is under way (10_state.md R26, R27). -/
abbrev Waiting (s : State) : Prop := s.phase = .idle ∨ s.phase = .receiving

/-- What holds of the block between two steps. -/
structure Inv (s : State) : Prop where
  /-- the memory has its canonical form -/
  memory : Memory.wf s.mem
  /-- 10_state.md R39, the idle invariant -/
  quiet : Waiting s → s.ioerr = false → Quiet s
  /-- 60_exceptions.md R203: after a failure the flags are clear and the devices unknown -/
  failed : s.ioerr = true → s.clra = false ∧ s.clrd = false ∧ Havocked s
  /-- `IOERR` is seen only by a block that waits: it refuses every command (R203) -/
  failedWaits : s.ioerr = true → Waiting s
  /-- a cleared address chain holds no unknown stage (41_shift_chain.md R110, R112) -/
  addrKnown : Waiting s → s.clra = true → AllKnown s.sa
  /-- and so does a cleared data chain -/
  dataKnown : Waiting s → s.clrd = true → AllKnown s.sd
  /-- between commands the micro-step is `IDLE` (10_state.md R26) -/
  idleStep : Waiting s → s.micro = 0
  /-- only a block that receives holds words of a frame, and no whole frame -/
  partial_frame : if s.phase = .receiving then s.rx ≠ [] ∧ decode s.rx = .error .incompleteFrame else s.rx = []
  /-- a block in reset has its flags clear (70_reset_and_hazards.md R230) -/
  resetFlags : s.phase = .resetting → s.clra = false ∧ s.clrd = false
  /-- a hung block knows its `OPC` (10_state.md R23) -/
  hungOpcode : s.phase = .hung → s.opc ≠ .bot

/-! ## How a command ends -/

/-- The command of opcode `opc` ended with status OK and this payload: its whole response frame, and no more,
was taken by the host (30_encoding.md R78, 60_exceptions.md R200). -/
abbrev EndsOk (opc : Byte) (payload : List Word) (s t : State) : Prop :=
  t.out = s.out ++ header opc .ok t :: payload

/-- The state in which a run stopped, if it did not fault. -/
def runState {ε α : Type} : Run ε α → Option State
  | .done _ s => some s
  | .failed _ s => some s
  | .hung s => some s
  | .cut s => some s
  | .fault _ => none

/-! ## Orders of operations -/

/-- A Drive or a Sample: an operation that asks the I/O layer (40_pin.md R105). -/
def asksIo : MicroOp → Bool
  | .drive _ _ => true
  | .sample _ => true
  | .bitcnt _ => false
  | .wait _ => false

/-- Whose each pin operation of WRITE's two shifts is, in the order of the schedule (43_memory_driver.md R142). -/
def pinTurns (a : Addr) (d : Data) (sched : List Chain) : List Chain :=
  ((interleave sched (shiftOps .addr a) (shiftOps .data d)).filter fun p => asksIo p.2).map Prod.fst

/-- An operation on a pin of the read path (10_state.md R21). -/
def onReadPath : MicroOp → Bool
  | .drive (.out r) _ => r == .rdLatch || r == .rdClk
  | .drive .rdSer _ => true
  | .sample _ => true
  | .bitcnt _ => false
  | .wait _ => false

/-- The operations of a micro-sequence on the pins of the read path, in order. -/
def readPathOps (ops : List MicroOp) : List MicroOp := ops.filter onReadPath

/-! ## The spec's tables, by numbers -/

/-- The `OPC` of a command (30_encoding.md R70). -/
def opcodeNumber : Instr → Nat
  | .clrAddr _ => 0x01
  | .clrData _ => 0x02
  | .write _ _ _ _ => 0x03
  | .read _ _ => 0x04
  | .dump _ _ => 0x05
  | .verify _ _ _ _ _ => 0x06
  | .bulkRead _ _ _ _ => 0x07
  | .checksum _ _ _ => 0x10
  | .lowerMargin _ _ => 0x11
  | .upperMargin _ _ => 0x12

/-- `OPC` of a frame's first word, as a number. -/
def opcField (w0 : Word) : Nat := w0.toNat / 2 ^ 24

/-- An unassigned `OPC` (30_encoding.md R70). -/
abbrev Unassigned (opc : Nat) : Prop := opc = 0x00 ∨ (0x08 ≤ opc ∧ opc ≤ 0x0F) ∨ (0x13 ≤ opc ∧ opc ≤ 0xFF)

/-- The frame length of 30_encoding.md R76, from word 0 and, for VERIFY, word 1. -/
def tableLength (w0 : Word) (w1 : Option Word) : Option Nat :=
  if opcField w0 ∈ [0x01, 0x02, 0x04, 0x11, 0x12] then some 1
  else if opcField w0 ∈ [0x03, 0x07] then some 2
  else if opcField w0 = 0x05 then some (1 + 2 * (w0.toNat % 2 ^ 16))
  else if opcField w0 = 0x06 then w1.map fun w => 2 + w.toNat % 2 ^ 17
  else if opcField w0 = 0x10 then some (1 + (w0.toNat % 2 ^ 8 + 3) / 4)
  else some 1

/-- Word `k` of a frame. -/
def frameWord (ws : List Word) (k : Nat) : Word := ws.getD k 0

/-- A reserved bit of the frame is set: a bit marked `0` in 30_encoding.md R72 or R75. -/
abbrev ReservedSet (ws : List Word) : Prop :=
  if opcField (frameWord ws 0) ∈ [0x01, 0x02] then frameWord ws 0 &&& 0x00FFFFFF ≠ 0
  else if opcField (frameWord ws 0) ∈ [0x04, 0x05, 0x11, 0x12] then frameWord ws 0 &&& 0x00FF0000 ≠ 0
  else if opcField (frameWord ws 0) = 0x03 then
    frameWord ws 0 &&& 0x00FF0000 ≠ 0 ∨ frameWord ws 1 &&& 0xFF000000 ≠ 0
  else if opcField (frameWord ws 0) = 0x07 then
    frameWord ws 0 &&& 0x00FF0000 ≠ 0 ∨ frameWord ws 1 &&& 0xFFFF0000 ≠ 0
  else if opcField (frameWord ws 0) = 0x06 then
    frameWord ws 0 &&& 0x00FF0000 ≠ 0 ∨ frameWord ws 1 &&& 0xFFFE0000 ≠ 0 ∨
      ∃ w ∈ ws.drop 2, w &&& 0xFF000000 ≠ 0
  else frameWord ws 0 &&& 0x00FFFF00 ≠ 0

/-- Byte `j` of the bytes packed after word 0 (30_encoding.md R87). -/
def packedByte (ws : List Word) (j : Nat) : Nat :=
  (frameWord ws (1 + j / 4)).toNat / 2 ^ (24 - 8 * (j % 4)) % 2 ^ 8

/-- The address of a mapping entry's word (30_encoding.md R75). -/
def entryAddress (w : Word) : Nat := w.toNat / 2 ^ 8 % 2 ^ 16

/-- An operand of the frame is outside its legal range (30_encoding.md R80 (c)). -/
abbrev OutOfRange (ws : List Word) : Prop :=
  if opcField (frameWord ws 0) = 0x06 then
    65536 < (frameWord ws 1).toNat % 2 ^ 17 ∨ ¬ ((ws.drop 2).map entryAddress).Nodup
  else if opcField (frameWord ws 0) = 0x07 then
    (frameWord ws 1).toNat % 2 ^ 16 < (frameWord ws 0).toNat % 2 ^ 16
  else if opcField (frameWord ws 0) = 0x10 then
    (frameWord ws 0).toNat % 2 ^ 8 = 0 ∨
      ∃ j, (frameWord ws 0).toNat % 2 ^ 8 ≤ j ∧ j < 4 * (((frameWord ws 0).toNat % 2 ^ 8 + 3) / 4) ∧
        packedByte ws j ≠ 0
  else False

/-- The header word of 30_encoding.md R78 from its fields. -/
def headerWord (opc status : Byte) (ioerr clrd clra : Bool) : Word :=
  opc ++ status ++ (0 : BitVec 13) ++ BitVec.ofBool ioerr ++ BitVec.ofBool clrd ++ BitVec.ofBool clra

/-- The chains a command needs cleared, by number (60_exceptions.md R202, check 4): `CLRA`. -/
abbrev NeedsClra (opc : Nat) : Prop := opc ∈ [0x03, 0x04, 0x05, 0x06, 0x07]

/-- And `CLRD`. -/
abbrev NeedsClrd (opc : Nat) : Prop := opc ∈ [0x03, 0x05]

/-! ## What the SRAM answers -/

/-- What a READ of `a` answers where draw `n` is the next free value: the word, or the free value of a `⊥` word
(20_memory.md R55). -/
def readValue (m : Memory) (n : Nat) (a : Addr) : Data :=
  match Memory.read m a.toNat with
  | .known d => d
  | .bot => Config.freeWord n

/-- The index of the next free value after that READ. -/
def drawsAfter (m : Memory) (n : Nat) (a : Addr) : Nat :=
  match Memory.read m a.toNat with
  | .known _ => n
  | .bot => n + 1

/-- What the READs of these addresses, one after the other, answer. -/
def readValues (m : Memory) : Nat → List Addr → List Data
  | _, [] => []
  | n, a :: as => readValue m n a :: readValues m (drawsAfter m n a) as

/-- The index of the next free value after those READs. -/
def drawsAfterAll (m : Memory) : Nat → List Addr → Nat
  | n, [] => n
  | n, a :: as => drawsAfterAll m (drawsAfter m n a) as

/-- The addresses of BULK_READ's window in ascending order (44_batch.md R170). -/
def windowAddrs (l u : Addr) : List Addr := (List.range (windowSize l u)).map fun i => lowerMargin l + BitVec.ofNat 16 i

end Sys2Proof.Machine
end

