-- ==== Sys2Proof/Certificates/Slice0/Obligations.lean ====
section
/-! DEFINITION. The statements for the provers. Each docstring names the rule of spec/ it comes from; where the rule is one the spec marks "[derived: ...]", or the statement rests on an entry of the assumption log, the docstring says so. -/

open Sys2Proof Sys2Proof.Machine

/-! ## Encoding -/

/-- Words written out from the encodings of 30_encoding.md R72, one frame of each command; the frames of WRITE,
READ, DUMP, VERIFY, BULK_READ and CHECKSUM are the spec's own examples (43_memory_driver.md R143 and R145,
44_batch.md R161, R163 and R170, 42_hexcodec.md R130). -/
def Obligations.SampleWordsDecode : Prop :=
  decode [0x01000000] = .ok (.clrAddr 0, 1) ∧
  decode [0x02000000] = .ok (.clrData 0, 1) ∧
  decode [0x03001000, 0x00020023] = .ok (.write 0 0x1000 0 0x020023, 2) ∧
  decode [0x04001000] = .ok (.read 0 0x1000, 1) ∧
  decode [0x05000002, 0x03000000, 0x020023D8, 0x03000100, 0x0A0B0CDB] =
    .ok (.dump 0 [⟨0x03, 0x0000, 0x00, 0x020023, 0xD8⟩, ⟨0x03, 0x0001, 0x00, 0x0A0B0C, 0xDB⟩], 5) ∧
  decode [0x06000300, 0x00000002, 0x000000D8, 0x000001DB] =
    .ok (.verify 0 0x03 0x00 0 [⟨0, 0x0000, 0xD8⟩, ⟨0, 0x0001, 0xDB⟩], 4) ∧
  decode [0x07001001, 0x00001007] = .ok (.bulkRead 0 0x1001 0 0x1007, 2) ∧
  decode [0x10000007, 0x03000000, 0x02002300] =
    .ok (.checksum 0 [0x03, 0x00, 0x00, 0x00, 0x02, 0x00, 0x23] [0x00], 3) ∧
  decode [0x11000002] = .ok (.lowerMargin 0 0x0002, 1) ∧
  decode [0x12000006] = .ok (.upperMargin 0 0x0006, 1)

/-- The decoder reads back every command from its frame, whatever words follow, with every operand at every value
and every reserved bit (30_encoding.md R72 to R76, R87). -/
def Obligations.DecodeEncode : Prop :=
  ∀ (i : Instr) (rest : List Word), i.encodable = true →
    decode (encode i ++ rest) = .ok (i, (encode i).length)

/-- A decoded frame is the frame of its command: no bit of it is dropped (30_encoding.md R72 to R76, R87). -/
def Obligations.EncodeDecode : Prop :=
  ∀ (ws : List Word) (i : Instr) (n : Nat), decode ws = .ok (i, n) →
    i.encodable = true ∧ encode i = ws.take n ∧ n ≤ ws.length

/-- 30_encoding.md R70: which opcode bytes are commands, and which command each is. -/
def Obligations.OpcodeMap : Prop :=
  ∀ (w0 : Word) (rest : List Word),
    (decode (w0 :: rest) = .error (.illegalCommand (byte3 w0)) ↔ Unassigned (opcField w0)) ∧
    (¬ Unassigned (opcField w0) → ∀ n, tableLength w0 rest.head? = some n → n ≤ rest.length + 1 →
      ∃ i, decode (w0 :: rest) = .ok (i, n)) ∧
    ∀ i n, decode (w0 :: rest) = .ok (i, n) → opcodeNumber i = opcField w0

/-- 30_encoding.md R73: each operand is its field as it stands, and what decode writes into the datapath
registers. -/
def Obligations.OperandFields : Prop :=
  (∀ (w0 : Word) (rest : List Word) (i : Instr) (n : Nat), decode (w0 :: rest) = .ok (i, n) →
    match i with
    | .clrAddr _ => True
    | .clrData _ => True
    | .write _ a _ d => a.toNat = w0.toNat % 2 ^ 16 ∧ d.toNat = (frameWord rest 0).toNat % 2 ^ 24
    | .read _ a => a.toNat = w0.toNat % 2 ^ 16
    | .dump _ records => records.length = w0.toNat % 2 ^ 16
    | .verify _ bc rt _ entries =>
      bc.toNat = w0.toNat / 2 ^ 8 % 2 ^ 8 ∧ rt.toNat = w0.toNat % 2 ^ 8 ∧
        entries.length = (frameWord rest 0).toNat % 2 ^ 17
    | .bulkRead _ l _ u => l.toNat = w0.toNat % 2 ^ 16 ∧ u.toNat = (frameWord rest 0).toNat % 2 ^ 16
    | .checksum _ bytes _ => bytes.length = w0.toNat % 2 ^ 8
    | .lowerMargin _ a => a.toNat = w0.toNat % 2 ^ 16
    | .upperMargin _ a => a.toNat = w0.toNat % 2 ^ 16) ∧
  ∀ (i : Instr) (s t : State), s.phase = .idle → admission i s = none → exec i s = .next t →
    t.phase ≠ .resetting →
    t.opc = .known (BitVec.ofNat 8 (opcodeNumber i)) ∧
    match i with
    | .write _ a _ d => t.opa = .known a ∧ t.opd = .known d
    | .read _ a => t.opa = .known a
    | .verify _ bc rt _ _ => t.bc = .known bc ∧ t.rt = .known rt
    | .bulkRead _ l _ u => t.opa = .known l ∧ t.opb = .known u
    | .lowerMargin _ a => t.opa = .known a
    | .upperMargin _ a => t.opa = .known a
    | .clrAddr _ => t.opa = s.opa
    | .clrData _ => t.opa = s.opa
    | .dump _ _ => t.opa = s.opa
    | .checksum _ _ _ => t.opa = s.opa

/-- 30_encoding.md R74 and R75: the two words of each record of a DUMP, that no bit of them is reserved and that
`BC` and `TYPE` are ignored; the word of each mapping entry of a VERIFY, whose top byte is reserved, and that DUMP's
entries have the same format. -/
def Obligations.RecordAndEntryWords : Prop :=
  (∀ (w0 : Word) (rest : List Word) (rsv : Byte) (records : List Record) (n : Nat),
    decode (w0 :: rest) = .ok (.dump rsv records, n) → ∀ (k : Nat) (h : k < records.length),
      records[k].bc.toNat = (frameWord rest (2 * k)).toNat / 2 ^ 24 ∧
      records[k].addr.toNat = (frameWord rest (2 * k)).toNat / 2 ^ 8 % 2 ^ 16 ∧
      records[k].type.toNat = (frameWord rest (2 * k)).toNat % 2 ^ 8 ∧
      records[k].data.toNat = (frameWord rest (2 * k + 1)).toNat / 2 ^ 8 ∧
      records[k].ck.toNat = (frameWord rest (2 * k + 1)).toNat % 2 ^ 8) ∧
  (∀ (rsv : Byte) (rs rs' : List Record) (s : State),
    rs.map (fun r => (r.addr, r.data, r.ck)) = rs'.map (fun r => (r.addr, r.data, r.ck)) →
      exec (.dump rsv rs) s = exec (.dump rsv rs') s) ∧
  (∀ (w0 : Word) (rest : List Word) (rsv0 bc rt : Byte) (rsv1 : BitVec 15) (entries : List Entry) (n : Nat),
    decode (w0 :: rest) = .ok (.verify rsv0 bc rt rsv1 entries, n) → ∀ (k : Nat) (h : k < entries.length),
      entries[k].rsv.toNat = (frameWord rest (1 + k)).toNat / 2 ^ 24 ∧
      entries[k].addr.toNat = (frameWord rest (1 + k)).toNat / 2 ^ 8 % 2 ^ 16 ∧
      entries[k].ck.toNat = (frameWord rest (1 + k)).toNat % 2 ^ 8) ∧
  (∀ (a : Addr) (c : Byte), entryOf (mappingWord (a, c)) = ⟨0, a, c⟩) ∧
  (∀ (records : List Record) (s : State), admission (.dump 0 records) s ≠ some .badOperand) ∧
  ∀ (bc rt : Byte) (entries : List Entry) (s : State), (∃ e ∈ entries, e.rsv ≠ 0) →
    admission (.verify 0 bc rt 0 entries) s = some .badOperand

/-- 30_encoding.md R87: where each byte of a CHECKSUM frame lies, and that a pad byte that is not 0 is a bad
operand, whatever the state of the block. -/
def Obligations.PackedBytes : Prop :=
  ∀ (w0 : Word) (rest : List Word) (rsv : BitVec 16) (bytes pad : List Byte) (n : Nat),
    decode (w0 :: rest) = .ok (.checksum rsv bytes pad, n) →
      (∀ (j : Nat) (h : j < bytes.length), bytes[j].toNat = packedByte (w0 :: rest) j) ∧
      bytes.length + pad.length = 4 * ((w0.toNat % 2 ^ 8 + 3) / 4) ∧
      (∀ (j : Nat) (h : j < pad.length), pad[j].toNat = packedByte (w0 :: rest) (bytes.length + j)) ∧
      ∀ (s : State) (j : Nat) (h : j < pad.length), pad[j] ≠ 0 →
        admission (.checksum rsv bytes pad) s = some .badOperand

/-! ## The host port -/

/-- A step of a block that has its whole frame runs exactly the decoded command, on the state with the frame's
words taken and the command pointer moved past them (10_state.md R26, 30_encoding.md R77 and R81). -/
def Obligations.StepRunsDecodedCommand : Prop :=
  ∀ (s : State) (i : Instr) (n : Nat), Waiting s → decode (s.rx ++ s.words) = .ok (i, n) →
    resetWithin (n - s.rx.length) s.resets = none →
      step s = exec i
        { s with
          words := (s.rx ++ s.words).drop n, rx := [], cmdPtr := s.cmdPtr + n, phase := .idle
          resets := countDown (n - s.rx.length) s.resets }

/-- 30_encoding.md R76: a whole frame moves the command pointer by the length of the table, whatever answer the
command gets. -/
def Obligations.FrameLength : Prop :=
  ∀ (s t : State) (w0 : Word) (rest : List Word) (n : Nat), Waiting s → s.rx = [] → s.resets = [] →
    s.words = w0 :: rest → tableLength w0 rest.head? = some n → n ≤ rest.length + 1 → step s = .next t →
      t.cmdPtr = s.cmdPtr + n ∧ t.words = s.words.drop n ∧ t.rx = []

/-- A frame presented in two pieces is taken as the same frame presented at once (30_encoding.md R77). -/
def Obligations.FrameInPieces : Prop :=
  ∀ (s u : State) (ws₁ ws₂ : List Word), s.phase = .idle → s.rx = [] → s.resets = [] → ws₁ ≠ [] →
    decode ws₁ = .error .incompleteFrame → step { s with words := ws₁ } = .next u →
      u.phase = .receiving ∧ u.out = s.out ∧
        step { u with words := ws₂ } = step { s with words := ws₁ ++ ws₂ }

/-- The block never drops, repeats or reorders a command word (10_state.md R26, 30_encoding.md R77): what is left
of the host's words is what lies past the command pointer; only a reset throws away the words of a partly
received frame (70_reset_and_hazards.md R230), and it counts them as passed. -/
def Obligations.CommandWordsConserved : Prop :=
  ∀ (s t : State), Inv s → step s = .next t →
    s.cmdPtr ≤ t.cmdPtr ∧ t.rx ++ t.words = (s.rx ++ s.words).drop (t.cmdPtr - s.cmdPtr)

/-! ## Admission and response -/

/-- 30_encoding.md R80: unassigned opcodes, reserved bits and operand ranges, and that no other frame is refused
for its encoding. -/
def Obligations.RefusedEncodings : Prop :=
  (∀ (s : State) (w0 : Word) (rest : List Word), Waiting s → s.rx = [] → s.resets = [] →
    s.words = w0 :: rest → Unassigned (opcField w0) →
      step s = .next
        { s with
          words := rest, cmdPtr := s.cmdPtr + 1, phase := .idle, micro := 0
          out := s.out ++ [headerWord (byte3 w0) 0x01 s.ioerr s.clrd s.clra] }) ∧
  (∀ (s : State) (w0 : Word) (rest : List Word) (i : Instr) (n : Nat), Waiting s → s.rx = [] → s.resets = [] →
    s.words = w0 :: rest → decode s.words = .ok (i, n) →
    ReservedSet (s.words.take n) ∨ OutOfRange (s.words.take n) →
      step s = .next
        { s with
          words := s.words.drop n, cmdPtr := s.cmdPtr + n, phase := .idle, micro := 0
          out := s.out ++ [headerWord (byte3 w0) 0x02 s.ioerr s.clrd s.clra] }) ∧
  ∀ (ws : List Word) (i : Instr) (n : Nat) (s : State), decode ws = .ok (i, n) →
    ¬ ReservedSet (ws.take n) → ¬ OutOfRange (ws.take n) → admission i s ≠ some .badOperand

/-- 60_exceptions.md R202: the checks in their order, the first that fails giving the answer, and that a command
that fails one makes no pin operation and changes no state. -/
def Obligations.AdmissionOrder : Prop :=
  (∀ (i : Instr) (s : State), s.resets = [] →
    let refusedWith (status : Byte) : State :=
      { s with
        micro := 0
        out := s.out ++ [headerWord (BitVec.ofNat 8 (opcodeNumber i)) status s.ioerr s.clrd s.clra] }
    (i.legal = false → exec i s = .next (refusedWith 0x02)) ∧
    (i.legal = true → s.ioerr = true → exec i s = .next (refusedWith 0x04)) ∧
    (i.legal = true → s.ioerr = false → (NeedsClra (opcodeNumber i) ∧ s.clra = false) ∨
      (NeedsClrd (opcodeNumber i) ∧ s.clrd = false) → exec i s = .next (refusedWith 0x03)) ∧
    (i.legal = true → s.ioerr = false → (NeedsClra (opcodeNumber i) → s.clra = true) →
      (NeedsClrd (opcodeNumber i) → s.clrd = true) → ∀ t, exec i s = .next t → t.phase = s.phase →
        t.out ≠ s.out → ∃ status payload, (status = 0x00 ∨ status = 0x04 ∧ t.ioerr = true) ∧
          t.out = s.out ++ headerWord (BitVec.ofNat 8 (opcodeNumber i)) status t.ioerr t.clrd t.clra :: payload)) ∧
  ∀ (s : State) (w0 : Word) (rest : List Word), Waiting s → s.rx = [] → s.resets = [] → s.words = w0 :: rest →
    Unassigned (opcField w0) → step s = .next
      { s with
        words := rest, cmdPtr := s.cmdPtr + 1, phase := .idle, micro := 0
        out := s.out ++ [headerWord (byte3 w0) 0x01 s.ioerr s.clrd s.clra] }

/-- 60_exceptions.md R201: a command ends in exactly one of three ways: with its response frame, never (and then
the I/O layer left an operation unanswered), or cut off by a reset. The three phases exclude each other. -/
def Obligations.CommandOutcome : Prop :=
  ∀ (i : Instr) (s t : State), s.phase = .idle → exec i s = .next t →
    (t.phase = .idle ∧ t.micro = 0 ∧
      ∃ status payload, t.out = s.out ++ header (BitVec.ofNat 8 (opcodeNumber i)) status t :: payload) ∨
    (t.phase = .hung ∧ t.out = s.out ∧ ¬ IoAnswers s) ∨
    (t.phase = .resetting ∧ s.resets ≠ [] ∧ ∃ sent, t.out = s.out ++ sent)

/-- 60_exceptions.md R207: no command and no step faults, and none is refused by the model; and an operation
against a role's direction is a fault. -/
def Obligations.NeverFaults : Prop :=
  (∀ (i : Instr) (s : State), ∃ t, exec i s = .next t) ∧ (∀ s : State, ∃ t, step s = .next t) ∧
  (∀ (on : Bool) (s : State), drive .rdSer on s = .fault (.directionError .rdSer)) ∧
  ∀ (r : OutRole) (s : State), sample (.out r) s = .fault (.directionError (.out r))

/-- The fields of a response header and its status codes (30_encoding.md R78, 10_state.md R28, 60_exceptions.md
R200), and of the payload words (30_encoding.md R79), BULK_READ's value words with their in-range mark among them
(44_batch.md R170). -/
def Obligations.ResponseFields : Prop :=
  (∀ (opc : Byte) (st : Status) (s : State),
    (header opc st s).toNat / 2 ^ 24 = opc.toNat ∧ (header opc st s).toNat / 2 ^ 16 % 2 ^ 8 ≤ 4 ∧
    (header opc st s).toNat / 2 ^ 3 % 2 ^ 13 = 0 ∧ (header opc st s).getLsbD 2 = s.ioerr ∧
    (header opc st s).getLsbD 1 = s.clrd ∧ (header opc st s).getLsbD 0 = s.clra) ∧
  (∀ (allpass blinked : Bool) (lines : List Line), lines.length ≤ 65536 →
    ∃ w, verifyPayload allpass blinked lines = w :: lines.flatMap lineWords ∧ w.getLsbD 31 = allpass ∧
      w.getLsbD 30 = blinked ∧ w.toNat % 2 ^ 30 = lines.length) ∧
  (∀ l : Line, ∃ l0 l1, lineWords l = [l0, l1] ∧ l0.getLsbD 31 = (l.computed == l.expected) ∧
    l0.toNat % 2 ^ 31 = l.addr.toNat * 2 ^ 8 + l.computed.toNat ∧
    l1.toNat = l.expected.toNat * 2 ^ 24 + l.data.toNat) ∧
  (∀ m : Mapping, m.length ≤ 65536 →
    ∃ w, dumpPayload m = w :: m.map (fun e => BitVec.ofNat 32 (e.1.toNat * 2 ^ 8 + e.2.toNat)) ∧
      w.toNat = m.length) ∧
  (∀ (l u : Addr) (values : List Word), values.length ≤ 65536 →
    ∃ w0 w1, bulkPayload l u values = w0 :: w1 :: values ∧ w1.toNat = values.length ∧
      w0.toNat = (upperMargin u).toNat * 2 ^ 16 + (lowerMargin l).toNat) ∧
  ∀ (l u a : Addr) (d : Data),
    (valueWord l u a d).toNat = (if l.toNat ≤ a.toNat ∧ a.toNat ≤ u.toNat then 2 ^ 24 else 0) + d.toNat

/-! ## Every command completes: the next state of an undisturbed command -/

/-- CLR_ADDR and CLR_DATA complete (43_memory_driver.md R140 and R141): the chain's stages are 0, its outputs
unknown, its flag set, nothing else changed. -/
def Obligations.ClearsComplete : Prop :=
  ∀ s : State, Ready s →
    exec (.clrAddr 0) s = .next
      { s with
        opc := .known 0x01, sa := allZero 16, oa := allBot 16, clra := true, io := s.io.drop 2, micro := 0
        out := s.out ++ [headerWord 0x01 0x00 false s.clrd true] } ∧
    exec (.clrData 0) s = .next
      { s with
        opc := .known 0x02, sd := allZero 24, od := allBot 24, clrd := true, io := s.io.drop 2, micro := 0
        out := s.out ++ [headerWord 0x02 0x00 false true s.clra] }

/-- WRITE completes, whatever the interleaving of the two engines (43_memory_driver.md R142 to R144). Which value
the engines leave in the loop counter `BITCNT` depends on the interleaving and is not stated (assumption log
17). -/
def Obligations.WriteCompletes : Prop :=
  ∀ (a : Addr) (d : Data) (s : State), Ready s → s.clra = true → s.clrd = true → ∃ n,
    exec (.write 0 a 0 d) s = .next
      { s with
        opc := .known 0x03, opa := .known a, opd := .known d, bitcnt := .known n
        sa := bitsOf a, oa := bitsOf a, sd := bitsOf d, od := bitsOf d, mem := Memory.set s.mem a.toNat d
        io := s.io.drop 130, sched := s.sched.drop 248, micro := 0
        out := s.out ++ [headerWord 0x03 0x00 false true true] }

/-- READ completes (43_memory_driver.md R145 and R146): the word, or the free value of a `⊥` word (00_scope.md R7,
assumption log 1). The last READ clock leaves `Q` moved by 23 stages. -/
def Obligations.ReadCompletes : Prop :=
  ∀ (a : Addr) (s : State), Ready s → s.clra = true →
    exec (.read 0 a) s = .next
      { s with
        opc := .known 0x04, opa := .known a, acc := .known (readValue s.mem s.draws a), bitcnt := .known 23
        sa := bitsOf a, oa := bitsOf a, q := shiftOut^[23] (bitsOf (readValue s.mem s.draws a))
        draws := drawsAfter s.mem s.draws a, io := s.io.drop 124, micro := 0
        out := s.out ++
          [headerWord 0x04 0x00 false s.clrd true, (readValue s.mem s.draws a).setWidth 32] }

/-- DUMP completes (44_batch.md R161 and R162): every record written in order, one progress pulse each, and the
mapping in its payload. The chains and `IDX` are those of the last record; with no record they are as before. -/
def Obligations.DumpCompletes : Prop :=
  ∀ (records : List Record) (s : State), Ready s → s.clra = true → s.clrd = true → ∃ t,
    exec (.dump 0 records) s = .next t ∧
    t = { s with
          opc := .known 0x05
          mem := records.foldl (fun m r => Memory.set m r.addr.toNat r.data) s.mem
          progress := s.progress + records.length
          io := s.io.drop (130 * records.length), sched := s.sched.drop (248 * records.length), micro := 0
          out := s.out ++ headerWord 0x05 0x00 false true true ::
            dumpPayload (records.foldl (fun m r => mapPut m r.addr r.ck) [])
          sa := t.sa, oa := t.oa, sd := t.sd, od := t.od, bitcnt := t.bitcnt, idx := t.idx } ∧
    match records.getLast? with
    | none => t.sa = s.sa ∧ t.oa = s.oa ∧ t.sd = s.sd ∧ t.od = s.od ∧ t.bitcnt = s.bitcnt ∧ t.idx = s.idx
    | some r =>
      t.sa = bitsOf r.addr ∧ t.oa = bitsOf r.addr ∧ t.sd = bitsOf r.data ∧ t.od = bitsOf r.data ∧
        t.bitcnt ≠ .bot ∧ t.idx = .known (BitVec.ofNat 17 (records.length - 1))

/-- VERIFY completes (44_batch.md R163 to R165): a line for each entry in order, and the blink exactly when every
line passes. A `⊥` word reads as a free value (assumption log 1). The blink's four drives are the notifier on, off,
on, off, with a wait between any two and none after the last; where the I/O layer does not answer the next of them
the block hangs with the notifier as the drives before it left it. -/
def Obligations.VerifyCompletes : Prop :=
  ∀ (bc rt : Byte) (entries : List Entry) (s : State), Ready s → s.clra = true →
    (∀ e ∈ entries, e.rsv = 0) → entries.length ≤ 65536 → (entries.map Entry.addr).Nodup →
    let data := readValues s.mem s.draws (entries.map Entry.addr)
    let lines := List.zipWith (fun e d => (⟨e.addr, e.ck, d, ck8 (canon bc e.addr rt d)⟩ : Line)) entries data
    let allpass := lines.all fun l => l.computed == l.expected
    (∃ t, exec (.verify 0 bc rt 0 entries) s = .next t ∧
      t = { s with
            opc := .known 0x06, bc := .known bc, rt := .known rt
            progress := s.progress + entries.length
            draws := drawsAfterAll s.mem s.draws (entries.map Entry.addr)
            io := s.io.drop (124 * entries.length + if allpass then 4 else 0), micro := 0
            out := s.out ++ headerWord 0x06 0x00 false s.clrd true :: verifyPayload allpass allpass lines
            sa := t.sa, oa := t.oa, q := t.q, acc := t.acc, ckacc := t.ckacc, bitcnt := t.bitcnt, idx := t.idx } ∧
      match lines.getLast? with
      | none =>
        t.sa = s.sa ∧ t.oa = s.oa ∧ t.q = s.q ∧ t.acc = s.acc ∧ t.ckacc = s.ckacc ∧ t.bitcnt = s.bitcnt ∧
          t.idx = s.idx
      | some l =>
        t.sa = bitsOf l.addr ∧ t.oa = bitsOf l.addr ∧ t.q = shiftOut^[23] (bitsOf l.data) ∧
          t.acc = .known l.data ∧ t.ckacc = .known (0 - l.computed) ∧ t.bitcnt = .known 23 ∧
          t.idx = .known (BitVec.ofNat 17 (entries.length - 1))) ∧
    (drivesOf blinkOps =
        [(.out .notify, true), (.out .notify, false), (.out .notify, true), (.out .notify, false)] ∧
      waitTime blinkOps = 3 * Config.tBlink) ∧
    ∀ (j : Nat) (rest : List IoOutcome), allpass = true → j < 4 → ∃ u,
      exec (.verify 0 bc rt 0 entries)
          { s with io := List.replicate (124 * entries.length + j) .ok ++ .never :: rest } = .next u ∧
        u.phase = .hung ∧ u.out = s.out ∧ u.io = rest ∧
        u.pins = { Pins.released with notify := if j % 2 = 1 then .asserted else .released }

/-- BULK_READ completes (44_batch.md R170): every address of the window in ascending order, the in-range marks,
and the window's bounds and size. A `⊥` word reads as a free value (assumption log 1). -/
def Obligations.BulkReadCompletes : Prop :=
  ∀ (l u : Addr) (s : State), Ready s → s.clra = true → l ≤ u →
    let addrs := windowAddrs l u
    let data := readValues s.mem s.draws addrs
    ∃ d, data.getLast? = some d ∧
      exec (.bulkRead 0 l 0 u) s = .next
        { s with
          opc := .known 0x07, opa := .known l, opb := .known u, acc := .known d
          bitcnt := .known 23, idx := .known (BitVec.ofNat 17 (addrs.length - 1))
          sa := bitsOf (upperMargin u), oa := bitsOf (upperMargin u), q := shiftOut^[23] (bitsOf d)
          progress := s.progress + addrs.length, draws := drawsAfterAll s.mem s.draws addrs
          io := s.io.drop (124 * addrs.length), micro := 0
          out := s.out ++ headerWord 0x07 0x00 false s.clrd true ::
            bulkPayload l u (List.zipWith (valueWord l u) addrs data) }

/-- CHECKSUM completes, with no pin activity (42_hexcodec.md R125, R126 and R130): it needs neither a working I/O
layer nor a cleared chain. -/
def Obligations.ChecksumCompletes : Prop :=
  ∀ (bytes pad : List Byte) (s : State), bytes ≠ [] → (∀ b ∈ pad, b = 0) → s.ioerr = false → s.resets = [] →
    exec (.checksum 0 bytes pad) s = .next
      { s with
        opc := .known 0x10, ckacc := .known (BitVec.ofNat 8 (bytes.map BitVec.toNat).sum), micro := 0
        out := s.out ++
          [headerWord 0x10 0x00 false s.clrd s.clra,
           BitVec.ofNat 32 ((256 - (bytes.map BitVec.toNat).sum % 256) % 256)] }

/-- LOWER_MARGIN and UPPER_MARGIN complete (44_batch.md R168 and R169), with no pin activity. -/
def Obligations.MarginsComplete : Prop :=
  ∀ (a : Addr) (s : State), s.ioerr = false → s.resets = [] →
    exec (.lowerMargin 0 a) s = .next
      { s with
        opc := .known 0x11, opa := .known a, micro := 0
        out := s.out ++ [headerWord 0x11 0x00 false s.clrd s.clra, BitVec.ofNat 32 (a.toNat - a.toNat % 8)] } ∧
    exec (.upperMargin 0 a) s = .next
      { s with
        opc := .known 0x12, opa := .known a, micro := 0
        out := s.out ++ [headerWord 0x12 0x00 false s.clrd s.clra, BitVec.ofNat 32 (a.toNat + (7 - a.toNat % 8))] }

/-- 60_exceptions.md R200 and R201: with an I/O layer that answers every operation and no reset, every command, of
any encoding and from any state, ends with its whole response frame. -/
def Obligations.EveryCommandAnswers : Prop :=
  ∀ (i : Instr) (s : State), s.resets = [] → IoAnswers s → ∃ t status payload,
    exec i s = .next t ∧ t.phase = s.phase ∧ t.micro = 0 ∧
      t.out = s.out ++ header (BitVec.ofNat 8 (opcodeNumber i)) status t :: payload

/-! ## Effects and frames of a command that ended OK, whatever the I/O layer did -/

/-- What the clears leave, and what they leave unchanged (41_shift_chain.md R110, 43_memory_driver.md R140 and
R141). -/
def Obligations.ClearEffect : Prop :=
  ∀ (rsv : BitVec 24) (s t : State), Quiet s →
    (exec (.clrAddr rsv) s = .next t → EndsOk 0x01 [] s t →
      t = { s with
            opc := .known 0x01, sa := allZero 16, oa := allBot 16, clra := true
            out := t.out, micro := 0, resets := t.resets, io := t.io, draws := t.draws }) ∧
    (exec (.clrData rsv) s = .next t → EndsOk 0x02 [] s t →
      t = { s with
            opc := .known 0x02, sd := allZero 24, od := allBot 24, clrd := true
            out := t.out, micro := 0, resets := t.resets, io := t.io, draws := t.draws })

/-- What WRITE leaves (43_memory_driver.md R144, which the spec marks as derived): the word, the chains, every
output released; and every other word and register unchanged. -/
def Obligations.WriteEffect : Prop :=
  ∀ (rsv₀ : Byte) (a : Addr) (rsv₁ : Byte) (d : Data) (s t : State), Quiet s →
    exec (.write rsv₀ a rsv₁ d) s = .next t → EndsOk 0x03 [] s t →
      Memory.read t.mem a.toNat = .known d ∧
      (∀ b : Nat, b ≠ a.toNat → Memory.read t.mem b = Memory.read s.mem b) ∧
      t = { s with
            opc := .known 0x03, opa := .known a, opd := .known d
            sa := bitsOf a, oa := bitsOf a, sd := bitsOf d, od := bitsOf d, mem := t.mem, bitcnt := t.bitcnt
            sched := t.sched, out := t.out, micro := 0, resets := t.resets, io := t.io, draws := t.draws }

/-- What READ leaves (43_memory_driver.md R146, which the spec marks as derived): its result is the word where that
is known, and `MEM` and every other register are unchanged. -/
def Obligations.ReadEffect : Prop :=
  ∀ (rsv : Byte) (a : Addr) (w : Word) (s t : State), Quiet s →
    exec (.read rsv a) s = .next t → EndsOk 0x04 [w] s t →
      (∀ d, Memory.read s.mem a.toNat = .known d → w = d.setWidth 32) ∧
      (∃ d : Data, w = d.setWidth 32 ∧
        t = { s with
              opc := .known 0x04, opa := .known a, acc := .known d, bitcnt := .known 23
              sa := bitsOf a, oa := bitsOf a, q := shiftOut^[23] (bitsOf d)
              out := t.out, micro := 0, resets := t.resets, io := t.io, draws := t.draws })

/-- What CHECKSUM and the margin commands leave unchanged, however they end but for a reset: they have no pin
activity (42_hexcodec.md R130, 44_batch.md R168 and R169). -/
def Obligations.PureCommandFrame : Prop :=
  ∀ (s t : State), s.phase = .idle → t.phase ≠ .resetting →
    (∀ (rsv : BitVec 16) (bytes pad : List Byte), exec (.checksum rsv bytes pad) s = .next t →
      t = { s with opc := t.opc, ckacc := t.ckacc, out := t.out, micro := 0, resets := t.resets }) ∧
    ∀ (rsv : Byte) (a : Addr), exec (.lowerMargin rsv a) s = .next t ∨ exec (.upperMargin rsv a) s = .next t →
      t = { s with opc := t.opc, opa := t.opa, out := t.out, micro := 0, resets := t.resets }

/-- What DUMP leaves when it ends OK (44_batch.md R161 and R162): each record's word as the last record of its
address gives it, every other word unchanged, and the frame. -/
def Obligations.DumpEffect : Prop :=
  ∀ (rsv : Byte) (records : List Record) (payload : List Word) (s t : State), Quiet s →
    exec (.dump rsv records) s = .next t → EndsOk 0x05 payload s t →
      payload = dumpPayload (records.foldl (fun m r => mapPut m r.addr r.ck) []) ∧
      (∀ b : Nat, Memory.read t.mem b =
        match (records.filter fun r => r.addr.toNat == b).getLast? with
        | some r => .known r.data
        | none => Memory.read s.mem b) ∧
      t = { s with
            opc := .known 0x05, progress := s.progress + records.length
            sa := t.sa, oa := t.oa, sd := t.sd, od := t.od, mem := t.mem, bitcnt := t.bitcnt, idx := t.idx
            sched := t.sched, out := t.out, micro := 0, resets := t.resets, io := t.io, draws := t.draws }

/-- What VERIFY answers and leaves when it ends OK (44_batch.md R163 and R165): a line for each entry, in order,
with the word where it is known and the checksum computed from the word read; a mismatch is reported only there. -/
def Obligations.VerifyEffect : Prop :=
  ∀ (rsv₀ bc rt : Byte) (rsv₁ : BitVec 15) (entries : List Entry) (payload : List Word) (s t : State), Quiet s →
    exec (.verify rsv₀ bc rt rsv₁ entries) s = .next t → EndsOk 0x06 payload s t →
      (∃ lines : List Line,
        payload = verifyPayload (lines.all linePass) (lines.all linePass) lines ∧
        lines.map (fun l => (l.addr, l.expected)) = entries.map (fun e => (e.addr, e.ck)) ∧
        ∀ l ∈ lines, l.computed = ck8 (canon bc l.addr rt l.data) ∧
          ∀ d, Memory.read s.mem l.addr.toNat = .known d → l.data = d) ∧
      t = { s with
            opc := .known 0x06, bc := .known bc, rt := .known rt, progress := s.progress + entries.length
            sa := t.sa, oa := t.oa, q := t.q, acc := t.acc, ckacc := t.ckacc, bitcnt := t.bitcnt, idx := t.idx
            out := t.out, micro := 0, resets := t.resets, io := t.io, draws := t.draws }

/-- What BULK_READ answers and leaves when it ends OK (44_batch.md R170). -/
def Obligations.BulkReadEffect : Prop :=
  ∀ (rsv₀ : Byte) (l : Addr) (rsv₁ : BitVec 16) (u : Addr) (payload : List Word) (s t : State), Quiet s →
    exec (.bulkRead rsv₀ l rsv₁ u) s = .next t → EndsOk 0x07 payload s t →
      (∃ data : List Data, data.length = (windowAddrs l u).length ∧
        payload = bulkPayload l u (List.zipWith (valueWord l u) (windowAddrs l u) data) ∧
        ∀ p ∈ List.zip (windowAddrs l u) data, ∀ d, Memory.read s.mem p.1.toNat = .known d → p.2 = d) ∧
      t = { s with
            opc := .known 0x07, opa := .known l, opb := .known u
            progress := s.progress + (windowAddrs l u).length
            sa := t.sa, oa := t.oa, q := t.q, acc := t.acc, bitcnt := t.bitcnt, idx := t.idx
            out := t.out, micro := 0, resets := t.resets, io := t.io, draws := t.draws }

/-- 20_memory.md R64 (which the spec marks as derived): a READ of the address of a WRITE that ended OK, with `MEM`
untouched in between, returns what was written. -/
def Obligations.WriteThenRead : Prop :=
  ∀ (a : Addr) (d : Data) (w : Word) (s t u v : State), Quiet s → exec (.write 0 a 0 d) s = .next t →
    EndsOk 0x03 [] s t → u.mem = t.mem → Quiet u → exec (.read 0 a) u = .next v → EndsOk 0x04 [w] u v →
      w = d.setWidth 32

/-- The result of WRITE's two concurrent shifts does not depend on the interleaving of the engines
(43_memory_driver.md R142, a sentence the spec marks as derived): two WRITEs that differ only in the schedule and
both end OK leave the same pins, devices and SRAM. -/
def Obligations.InterleavingDoesNotMatter : Prop :=
  ∀ (a : Addr) (d : Data) (s t₁ t₂ : State) (σ₁ σ₂ : List Chain), Quiet s →
    exec (.write 0 a 0 d) { s with sched := σ₁ } = .next t₁ → EndsOk 0x03 [] s t₁ →
    exec (.write 0 a 0 d) { s with sched := σ₂ } = .next t₂ → EndsOk 0x03 [] s t₂ →
      t₁.pins = t₂.pins ∧ t₁.sa = t₂.sa ∧ t₁.oa = t₂.oa ∧ t₁.sd = t₂.sd ∧ t₁.od = t₂.od ∧ t₁.q = t₂.q ∧
        t₁.mem = t₂.mem

/-! ## Rules of the whole block -/

/-- The invariant of the block (10_state.md R39 and R25 to R27, 60_exceptions.md R203, and the canonical form of
the memory) is kept by every step, from every state. -/
def Obligations.InvPreserved : Prop := ∀ s t : State, Inv s → step s = .next t → Inv t

/-- The invariant holds after reset and at power-on. -/
def Obligations.InvInitially : Prop := Inv State.reset ∧ Inv State.powerOn

/-- Only WRITE and DUMP change the SRAM (43_memory_driver.md R148, 70_reset_and_hazards.md R232): every other
command, from any state and however it ends, leaves `MEM` as it was while no operation fails, and otherwise as it
was or wholly unknown. -/
def Obligations.OnlyWritesChangeMemory : Prop :=
  ∀ (i : Instr) (s t : State), opcodeNumber i ≠ 0x03 → opcodeNumber i ≠ 0x05 → exec i s = .next t →
    (IoNoFail s → t.mem = s.mem) ∧ (t.mem = s.mem ∨ t.mem = Memory.unknown)

/-- 10_state.md R25: what sets and what clears each flag, over one step of the block. -/
def Obligations.FlagsChange : Prop :=
  ∀ (s t : State), step s = .next t →
    (s.clra = false → t.clra = true → ∃ rsv u, receive s = .command (.clrAddr rsv) u ∧ EndsOk 0x01 [] u t) ∧
    (s.clrd = false → t.clrd = true → ∃ rsv u, receive s = .command (.clrData rsv) u ∧ EndsOk 0x02 [] u t) ∧
    (s.clra = true → t.clra = false → t.phase = .resetting ∨ (s.ioerr = false ∧ t.ioerr = true)) ∧
    (s.clrd = true → t.clrd = false → t.phase = .resetting ∨ (s.ioerr = false ∧ t.ioerr = true)) ∧
    (s.ioerr = true → t.ioerr = false → t.phase = .resetting) ∧
    (s.ioerr = false → t.ioerr = true → Havocked t ∧ ∃ i u payload,
      receive s = .command i u ∧ admission i u = none ∧
        t.out = u.out ++ headerWord (BitVec.ofNat 8 (opcodeNumber i)) 0x04 true false false :: payload)

/-! ## Failure -/

/-- What a transport failure during a command leaves (60_exceptions.md R203). -/
def Obligations.FailureHavocs : Prop :=
  ∀ (i : Instr) (s t : State), s.ioerr = false → exec i s = .next t → t.ioerr = true →
    t.clra = false ∧ t.clrd = false ∧ Havocked t ∧ t.micro = 0 ∧ t.phase = s.phase ∧ ∃ payload,
      t.out = s.out ++ headerWord (BitVec.ofNat 8 (opcodeNumber i)) 0x04 true false false :: payload

/-- The first operation that the I/O layer does not complete ends a command of one sequence at once, and no
further operation is asked for (60_exceptions.md R203 and R204): a CLR_ADDR or CLR_DATA of two operations, a READ
of 124. A FAIL gives TRANSPORT_ERROR with no payload; an operation that is never answered hangs the block with no
response. -/
def Obligations.FirstFailureEndsCommand : Prop :=
  ∀ (i : Instr) (k : Nat) (rest : List IoOutcome) (s : State), s.resets = [] → s.ioerr = false →
    ((i = .clrAddr 0 ∨ i = .clrData 0) ∧ k < 2 ∨ (∃ a, i = .read 0 a) ∧ s.clra = true ∧ k < 124) →
    (s.io = List.replicate k .ok ++ .fail :: rest → ∃ t, exec i s = .next t ∧ t.io = rest ∧
      t.ioerr = true ∧ Havocked t ∧
      t.out = s.out ++ [headerWord (BitVec.ofNat 8 (opcodeNumber i)) 0x04 true false false]) ∧
    (s.io = List.replicate k .ok ++ .never :: rest → ∃ t, exec i s = .next t ∧ t.io = rest ∧
      t.phase = .hung ∧ t.out = s.out)

/-- Inside WRITE the engine that has not failed runs to its end before the command fails (43_memory_driver.md R142),
for every schedule of the two engines: where the first operation of the shifts that is not completed is the `k`-th,
the strobe is not reached, and WRITE fails, or hangs if an operation is never answered. Where every later operation
is completed, the other engine ends, and the outputs of the one that stopped are those its own operations reached:
its register clock is operation 48 of the address engine and operation 72 of the data engine. -/
def Obligations.BarrierBeforeStrobe : Prop :=
  ∀ (a : Addr) (d : Data) (k : Nat) (o : IoOutcome) (rest : List IoOutcome) (s : State),
    s.resets = [] → Quiet s → k < 126 → o ≠ .ok → s.io = List.replicate k .ok ++ o :: rest → ∃ t,
      (writeSeq a d s = .hung t ∨ o = .fail ∧ writeSeq a d s = .failed () t) ∧
      t.mem = s.mem ∧ t.pins.wrEn = .released ∧ t.pins.wrClk = .released ∧
      ((∀ r ∈ rest, r = .ok) → s.ioRest = some .ok →
        (o = .fail → writeSeq a d s = .failed () t) ∧
        let turns := pinTurns a d s.sched
        let i := (turns.take k).count .addr
        let j := (turns.take k).count .data
        (turns[k]? = some .addr ∧ t.od = bitsOf d ∧ t.oa = (if i ≤ 48 then s.oa else bitsOf a) ∧
            t.io = rest.drop (75 - j)) ∨
          (turns[k]? = some .data ∧ t.oa = bitsOf a ∧ t.od = (if j ≤ 72 then s.od else bitsOf d) ∧
            t.io = rest.drop (51 - i)))

/-- 44_batch.md R172: a failure inside a batch command ends it at once, the device state is unknown, and the
payload holds what was completed: the words read are those of the SRAM where these are known. `m` is how many
operations the I/O layer was asked for: those of the units completed and, of the next one, no more than it has; in
VERIFY and BULK_READ, where one operation follows the other, the last of them is the first that failed. -/
def Obligations.BatchFailure : Prop :=
  ∀ (s t : State), s.ioerr = false → t.ioerr = true →
    (∀ (records : List Record), exec (.dump 0 records) s = .next t → Havocked t ∧ ∃ k m, k < records.length ∧
      t.progress = s.progress + k ∧
      t.out = s.out ++ headerWord 0x05 0x04 true false false ::
        dumpPayload ((records.take k).foldl (fun m r => mapPut m r.addr r.ck) []) ∧
      130 * k < m ∧ m ≤ 130 * (k + 1) ∧ (∀ o ∈ s.io.take (130 * k), o = .ok) ∧ t.io = s.io.drop m) ∧
    (∀ (bc rt : Byte) (entries : List Entry), exec (.verify 0 bc rt 0 entries) s = .next t → Havocked t ∧
      ∃ (lines : List Line) (m : Nat),
        lines.map (fun l => (l.addr, l.expected)) = (entries.take lines.length).map (fun e => (e.addr, e.ck)) ∧
        (∀ l ∈ lines, l.computed = ck8 (canon bc l.addr rt l.data)) ∧
        (Quiet s → ∀ l ∈ lines, ∀ d, Memory.read s.mem l.addr.toNat = .known d → l.data = d) ∧
        t.progress = s.progress + lines.length ∧
        t.out = s.out ++ headerWord 0x06 0x04 true false false ::
          verifyPayload (lines.all linePass && lines.length == entries.length) false lines ∧
        124 * lines.length < m ∧ m ≤ 124 * lines.length + (if lines.length = entries.length then 4 else 124) ∧
        (∀ o ∈ s.io.take (m - 1), o = .ok) ∧ (∀ o, s.io[m - 1]? = some o → o = .fail) ∧ t.io = s.io.drop m) ∧
    ∀ (l u : Addr), exec (.bulkRead 0 l 0 u) s = .next t → Havocked t ∧ ∃ (data : List Data) (m : Nat),
      data.length < (windowAddrs l u).length ∧ t.progress = s.progress + data.length ∧
      (Quiet s → ∀ p ∈ List.zip (windowAddrs l u) data, ∀ d, Memory.read s.mem p.1.toNat = .known d → p.2 = d) ∧
      t.out = s.out ++ headerWord 0x07 0x04 true false false ::
        bulkPayload l u (List.zipWith (valueWord l u) (windowAddrs l u) data) ∧
      124 * data.length < m ∧ m ≤ 124 * (data.length + 1) ∧
      (∀ o ∈ s.io.take (m - 1), o = .ok) ∧ (∀ o, s.io[m - 1]? = some o → o = .fail) ∧ t.io = s.io.drop m

/-- A hung block accepts no word and answers nothing until a reset (60_exceptions.md R204); so does a block whose
bind failed (70_reset_and_hazards.md R230). -/
def Obligations.HungUntilReset : Prop :=
  ∀ (s t : State), s.phase = .hung ∨ s.phase = .held → step s = .next t →
    t.words = s.words ∧ t.out = s.out ∧ t.cmdPtr = s.cmdPtr ∧
    (s.resetDue = false → t = { s with resets := countDown 1 s.resets }) ∧
    (s.resetDue = true → t.phase = .resetting)

/-! ## Reset -/

/-- What the assertion of the reset input leaves inside a command (70_reset_and_hazards.md R230 and R232): the
flags, the datapath registers and the devices at their reset values, no status, and every SRAM word unknown exactly
where the command was WRITE or DUMP. -/
def Obligations.ResetCutsCommand : Prop :=
  ∀ (i : Instr) (s t : State), s.phase = .idle → exec i s = .next t → t.phase = .resetting →
    t.micro = 0 ∧ t.rx = [] ∧ t.clra = false ∧ t.clrd = false ∧ t.ioerr = false ∧
    (t.opc = .bot ∧ t.opa = .bot ∧ t.opb = .bot ∧ t.opd = .bot ∧ t.bc = .bot ∧ t.rt = .bot ∧ t.acc = .bot ∧
      t.ckacc = .bot ∧ t.bitcnt = .bot ∧ t.idx = .bot) ∧
    (t.sa = allBot 16 ∧ t.oa = allBot 16 ∧ t.sd = allBot 24 ∧ t.od = allBot 24 ∧ t.q = allBot 24) ∧
    (opcodeNumber i = 0x03 ∨ opcodeNumber i = 0x05 → t.mem = Memory.unknown) ∧
    (opcodeNumber i ≠ 0x03 → opcodeNumber i ≠ 0x05 → IoNoFail s → t.mem = s.mem)

/-- The bind that ends a reset (40_pin.md R100, 70_reset_and_hazards.md R230): where the I/O layer completes its
thirteen drives every output is at its released level, whatever it was, no device reacts, and the block is idle;
where one is not completed the block does not leave reset. -/
def Obligations.BindEndsReset : Prop :=
  ∀ s : State, s.phase = .resetting → s.resets = [] →
    (IoOk s → step s = .next
      { s with pins := Pins.released, phase := .idle, micro := 0, io := s.io.drop 13 }) ∧
    ∀ (k : Nat) (o : IoOutcome) (rest : List IoOutcome), k < 13 → o ≠ .ok →
      s.io = List.replicate k .ok ++ o :: rest → ∃ t, step s = .next t ∧ t.phase = .held ∧ t.io = rest ∧
        t.sa = s.sa ∧ t.oa = s.oa ∧ t.sd = s.sd ∧ t.od = s.od ∧ t.q = s.q ∧ t.mem = s.mem

/-- 10_state.md R38: the state after power-on's reset, and after a block reset that ends a wait; `⊥` is the value
the spec gives the datapath registers and the devices. The host's side of the state (no word presented, an I/O
layer that completes every operation) is the model's choice (assumption log 7 to 9 and 12). The notifier is at its
released level, which is 0 with the default polarity (assumption log 3). -/
def Obligations.ResetValues : Prop :=
  Config.Parameters.default.releaseLvl .notify = false ∧
  (∀ r, State.reset.pins.get r = .released) ∧ State.reset.lvl .notify = .known (Config.releaseLvl .notify) ∧
  State.reset.sa = allBot 16 ∧ State.reset.sd = allBot 24 ∧ State.reset.oa = allBot 16 ∧
  State.reset.od = allBot 24 ∧ State.reset.q = allBot 24 ∧ (∀ a, Memory.read State.reset.mem a = .bot) ∧
  State.reset.clra = false ∧ State.reset.clrd = false ∧ State.reset.ioerr = false ∧
  State.reset.phase = .idle ∧ State.reset.micro = 0 ∧ State.reset.opc = .bot ∧ State.reset.opa = .bot ∧
  State.reset.opb = .bot ∧ State.reset.opd = .bot ∧ State.reset.bc = .bot ∧ State.reset.rt = .bot ∧
  State.reset.acc = .bot ∧ State.reset.ckacc = .bot ∧ State.reset.bitcnt = .bot ∧ State.reset.idx = .bot ∧
  State.reset.cmdPtr = 0 ∧
  ∀ s : State, Waiting s ∨ s.phase = .hung ∨ s.phase = .held → s.words = [] → s.rx = [] → s.resets = [0] →
    IoOk s → ∃ t u, step s = .next t ∧ step t = .next u ∧ u.phase = .idle ∧ u.micro = 0 ∧
      (∀ r, u.pins.get r = .released) ∧
      u.sa = allBot 16 ∧ u.sd = allBot 24 ∧ u.oa = allBot 16 ∧ u.od = allBot 24 ∧ u.q = allBot 24 ∧
      u.mem = (if s.phase = .hung ∧ (s.opc = .known 0x03 ∨ s.opc = .known 0x05) then Memory.unknown else s.mem) ∧
      u.clra = false ∧ u.clrd = false ∧ u.ioerr = false ∧ u.opc = .bot ∧ u.opa = .bot ∧ u.opb = .bot ∧
      u.opd = .bot ∧ u.bc = .bot ∧ u.rt = .bot ∧ u.acc = .bot ∧ u.ckacc = .bot ∧ u.bitcnt = .bot ∧
      u.idx = .bot ∧ u.lvl .notify = .known (Config.releaseLvl .notify) ∧ u.cmdPtr = s.cmdPtr

/-! ## Micro-sequences and devices -/

/-- 20_memory.md R54: what the write edge does, and that no other micro-operation changes `MEM`. -/
def Obligations.SramWriteEdge : Prop :=
  (∀ (s t : State) (bs : List Bool), s.pins.wrClk = .released →
    stepOp (.drive (.out .wrClk) true) s = .done bs t →
    (s.pins.wrEn = .released → t.mem = s.mem) ∧
    (s.pins.wrEn = .bot ∨ (s.pins.wrEn = .asserted ∧ wordOf s.oa = .bot) →
      ∀ a, Memory.read t.mem a = .bot) ∧
    (∀ a : Addr, s.pins.wrEn = .asserted → wordOf s.oa = .known a → wordOf s.od = .bot →
      ∀ b, Memory.read t.mem b = if b = a.toNat then .bot else Memory.read s.mem b) ∧
    ∀ (a : Addr) (d : Data), s.pins.wrEn = .asserted → wordOf s.oa = .known a → wordOf s.od = .known d →
      ∀ b, Memory.read t.mem b = if b = a.toNat then .known d else Memory.read s.mem b) ∧
  ∀ (op : MicroOp) (s t : State) (bs : List Bool), op ≠ .drive (.out .wrClk) true →
    stepOp op s = .done bs t → t.mem = s.mem

/-- What the PISO load reads, and that it leaves `MEM` alone (20_memory.md R55). A `⊥` word is a free value that the
next read does not use again: that it is the free value of the counter `draws` is assumption log 1. -/
def Obligations.SramReadEdge : Prop :=
  ∀ (s t : State) (bs : List Bool), s.pins.rdLatch = .released →
    stepOp (.drive (.out .rdLatch) true) s = .done bs t →
    t.mem = s.mem ∧
    (∀ (a : Addr) (d : Data), s.pins.wrEn = .released → wordOf s.oa = .known a →
      Memory.read s.mem a.toNat = .known d → t.q = bitsOf d) ∧
    (∀ a : Addr, s.pins.wrEn = .released → wordOf s.oa = .known a → Memory.read s.mem a.toNat = .bot →
      ∃ n, s.draws ≤ n ∧ n < t.draws ∧ t.q = bitsOf (Config.freeWord n)) ∧
    (s.pins.wrEn ≠ .released ∨ wordOf s.oa = .bot → t.q = allBot 24)

/-- An assert edge is a drive to the asserted level from the released level (10_state.md R29): any other Drive from
a known level, any Sample and any Wait leave every device as it was (10_state.md R32, 40_pin.md R102 and R104). -/
def Obligations.NoEdgeNoReaction : Prop :=
  ∀ (op : MicroOp) (s t : State) (bs : List Bool), stepOp op s = .done bs t →
    (∀ r on, op = .drive (.out r) on → on = false ∨ s.pins.get r = .asserted) →
      t.sa = s.sa ∧ t.oa = s.oa ∧ t.sd = s.sd ∧ t.od = s.od ∧ t.q = s.q ∧ t.mem = s.mem ∧
        t.pins = match op with
          | .drive (.out r) on => s.pins.set r (driven on)
          | _ => s.pins

/-- The postcondition of `Shift` (41_shift_chain.md R112, which the spec marks as derived), for both chains and
from any stages: stages and outputs hold the value and the serial pin is at 0. -/
def Obligations.ShiftPostcondition : Prop :=
  ∀ (s t : State) (bs : List Bool),
    (∀ a : Addr, s.pins.aSclk = .released → s.pins.aRclk = .released → s.pins.aClr = .released →
      runOps (shiftOps .addr a) s = .done bs t →
        t.sa = bitsOf a ∧ t.oa = bitsOf a ∧ t.lvl .aSer = .known false) ∧
    ∀ d : Data, s.pins.dSclk = .released → s.pins.dRclk = .released → s.pins.dClr = .released →
      runOps (shiftOps .data d) s = .done bs t →
        t.sd = bitsOf d ∧ t.od = bitsOf d ∧ t.lvl .dSer = .known false

/-- The outputs of a chain change only at the register-clock edge that ends a shift (41_shift_chain.md R113, which
the spec marks as derived): the loop before it, however it ends, leaves them. -/
def Obligations.OutputsHeldDuringShift : Prop :=
  ∀ (c : Chain) (i : Nat) (bits : List Bool) (s t : State),
    runState (runOps (shiftLoopOps c i bits) s) = some t → t.oa = s.oa ∧ t.od = s.od ∧ t.q = s.q ∧ t.mem = s.mem

/-- The pin trace of a shift (41_shift_chain.md R115, which the spec marks as derived): its Drives in order, `3n + 3`
of them, and its waits. -/
def Obligations.ShiftTrace : Prop :=
  ∀ (c : Chain) (n : Nat) (v : BitVec n),
    drivesOf (shiftOps c v) =
      ((List.finRange n).flatMap fun i =>
        [(Role.out (serRole c), v[i]), (Role.out (sclkRole c), true), (Role.out (sclkRole c), false)]) ++
      [(Role.out (rclkRole c), true), (Role.out (rclkRole c), false), (Role.out (serRole c), false)] ∧
    (drivesOf (shiftOps c v)).length = 3 * n + 3 ∧
    waitTime (shiftOps c v) = n * (Config.tSettle + Config.tHold) + Config.tHold

/-- READ's operations on the pins of the read path, in order: the latch pulse, one sample before any clock, and 23
times a clock pulse and a sample (43_memory_driver.md R147, 70_reset_and_hazards.md R241): 24 samples and 23 clock
edges. Its first Drive releases write-enable, which no later one asserts (R148). -/
def Obligations.ReadTrace : Prop :=
  ∀ a : Addr,
    readPathOps (readOps a) =
      [.drive (.out .rdLatch) true, .drive (.out .rdLatch) false, .sample .rdSer] ++
        (List.replicate 23
          [MicroOp.drive (.out .rdClk) true, .drive (.out .rdClk) false, .sample .rdSer]).flatten ∧
    sampleCount (readOps a) = 24 ∧
    (drivesOf (readOps a)).count (Role.out .rdClk, true) = 23 ∧
    (drivesOf (readOps a)).head? = some (Role.out .wrEn, false) ∧
    (Role.out .wrEn, true) ∉ drivesOf (readOps a) ∧ (∀ on, (Role.out .wrClk, on) ∉ drivesOf (readOps a)) ∧
    sampleCount (readLoadOps a) = 0 ∧ (Role.out .rdClk, true) ∉ drivesOf (readLoadOps a) ∧
    waitTime (readOps a) =
      16 * (Config.tSettle + Config.tHold) + Config.tHold + (2 * Config.tSettle + Config.tHold) +
        23 * (Config.tHold + 2 * Config.tSettle)

/-- The well-formed configurations (10_state.md R21, 40_pin.md R100): what BIND's check accepts, and that it accepts
this instance's own. That a list which binds one role to two ids is accepted is the model's choice (assumption log
27), and so is that a level given to the input role RD_SER is not looked at (assumption log 31). -/
def Obligations.ConfigurationCheck : Prop :=
  (∀ pins : List RawPin, checkConfiguration pins = none ↔
    (∀ r : Role, ∃ p ∈ pins, p.role = r) ∧ (∀ p ∈ pins, 0 ≤ p.id ∧ p.id ≤ 27) ∧
    (pins.map RawPin.id).Nodup ∧ (∀ p ∈ pins, p.direction = p.role.direction) ∧
    ∀ p ∈ pins, ∀ r, p.role = .out r → p.initial = some (Config.releaseLvl r)) ∧
  checkConfiguration boundPins = none

/-! ## Checksum, mapping, window, text -/

/-- 42_hexcodec.md R125: the checksum is the two's complement of the byte sum modulo 256. Then the validation
property (R127, which the spec marks as derived), that the order of the bytes does not matter (R126), and the seven
bytes of a record that VERIFY takes it of (R129). -/
def Obligations.ChecksumValidates : Prop :=
  (∀ bytes : List Byte, (ck8 bytes).toNat = (256 - (bytes.map BitVec.toNat).sum % 256) % 256) ∧
  (∀ (bytes : List Byte) (c : Byte),
    ((bytes.map BitVec.toNat).sum + c.toNat) % 256 = 0 ↔ c = ck8 bytes) ∧
  (∀ bytes bytes' : List Byte, bytes.Perm bytes' → ck8 bytes = ck8 bytes') ∧
  ∀ (bc : Byte) (a : Addr) (rt : Byte) (d : Data),
    (canon bc a rt d).map BitVec.toNat =
      [bc.toNat, a.toNat / 2 ^ 8, a.toNat % 2 ^ 8, rt.toNat, d.toNat / 2 ^ 16, d.toNat / 2 ^ 8 % 2 ^ 8,
        d.toNat % 2 ^ 8]

/-- 44_batch.md R162: an address already mapped keeps its position and takes the new checksum, a new one is
appended, and the mapping of any records has at most 65536 entries. -/
def Obligations.MapPutSemantics : Prop :=
  (∀ (m₁ m₂ : Mapping) (a : Addr) (c c' : Byte), a ∉ m₁.map Prod.fst →
    mapPut (m₁ ++ (a, c') :: m₂) a c = m₁ ++ (a, c) :: m₂) ∧
  (∀ (m : Mapping) (a : Addr) (c : Byte), a ∉ m.map Prod.fst → mapPut m a c = m ++ [(a, c)]) ∧
  ∀ puts : List (Addr × Byte), (puts.foldl (fun m p => mapPut m p.1 p.2) []).length ≤ 65536 ∧
    ((puts.foldl (fun m p => mapPut m p.1 p.2) []).map Prod.fst).Nodup

/-- 44_batch.md R166 and R167: the margins, by their arithmetic and by their bits. -/
def Obligations.Margins : Prop :=
  ∀ a : Addr,
    (lowerMargin a).toNat = a.toNat - a.toNat % 8 ∧ lowerMargin a = a &&& 0xFFF8 ∧
    (∀ m, m % 8 = 0 → m ≤ a.toNat → m ≤ (lowerMargin a).toNat) ∧
    (upperMargin a).toNat = a.toNat + (7 - a.toNat % 8) ∧ upperMargin a = a ||| 0x0007 ∧
    (∀ m, m % 8 = 7 → a.toNat ≤ m → (upperMargin a).toNat ≤ m)

/-- The window of BULK_READ (44_batch.md R170 and R171): consecutive addresses, a multiple of 8 of them, from the
lower margin to the upper one, with the whole requested range inside. -/
def Obligations.WindowShape : Prop :=
  ∀ l u : Addr, l ≤ u →
    (windowAddrs l u).length % 8 = 0 ∧ 8 ≤ (windowAddrs l u).length ∧ (windowAddrs l u).length ≤ 65536 ∧
    (∀ (k : Nat) (h : k < (windowAddrs l u).length),
      ((windowAddrs l u)[k]).toNat = (lowerMargin l).toNat + k) ∧
    (windowAddrs l u).getLast? = some (upperMargin u) ∧
    (∀ a : Addr, l ≤ a → a ≤ u → a ∈ windowAddrs l u)

/-- Text and value agree (42_hexcodec.md R124, whose round trip 90_conflicts.md C2 settles): a hex literal rendered
again from its value, at its own digit count, is the literal in lower case. -/
def Obligations.HexRoundTrip : Prop :=
  ∀ (s : List Char) (h : HexWord), parseHex s = .ok h → hexRender h.value h.digits = s.map lowerChar

/-- Every text record of 17 characters whose characters after the marker are hex digits decodes, and to the record
whose fields are written at the offsets of 30_encoding.md R84 (R85): here, back from any record's own text with any
marker. -/
def Obligations.RecordTextRoundTrip : Prop :=
  ∀ (marker : Char) (r : Record),
    decodeRecord (marker :: (digitsOf 16 2 r.bc.toNat ++ digitsOf 16 4 r.addr.toNat ++ digitsOf 16 2 r.type.toNat ++
      digitsOf 16 6 r.data.toNat ++ digitsOf 16 2 r.ck.toNat)) = .ok r
end

