-- ==== Sys2Proof/Laws/Bits.lean ====
section
/-! SUPPORT. Shift registers: a value and its bits, and what shifting does to each bit. -/

namespace Sys2Proof.Machine

@[simp] theorem getElem_bitsOf {n : Nat} (w : BitVec n) {k : Nat} (h : k < n) : (bitsOf w)[k] = .known w[k] := by
  simp [bitsOf]

@[simp] theorem getElem_allZero {n k : Nat} (h : k < n) : (allZero n)[k] = .known false := by simp [allZero]

@[simp] theorem getElem_allBot {n k : Nat} (h : k < n) : (allBot n)[k] = .bot := by simp [allBot]

theorem getElem_shiftIn {n : Nat} (v : Bits n) (b : Bit) {k : Nat} (h : k < n) :
    (shiftIn v b)[k] = if h' : k + 1 < n then v[k + 1] else b := by
  simp only [shiftIn, Vector.getElem_mk, List.getElem_toArray, List.getElem_drop, List.getElem_append]
  have e : 1 + k = k + 1 := Nat.add_comm ..
  simp only [e, Vector.length_toList, Vector.getElem_toList]
  split
  · rfl
  · simp

theorem getElem_shiftOut {n : Nat} (v : Bits n) {k : Nat} (h : k < n) :
    (shiftOut v)[k] = match k with
      | 0 => .bot
      | j + 1 => if h' : j < n then v[j] else .bot := by
  simp only [shiftOut, Vector.getElem_mk, List.getElem_toArray, List.getElem_take]
  cases k with
  | zero => rfl
  | succ j => simp [show j < n by omega]

theorem wordOf_bitsOf {n : Nat} (w : BitVec n) : wordOf (bitsOf w) = .known w := by
  unfold wordOf
  rw [if_pos]
  · congr 1
    apply BitVec.eq_of_getElem_eq
    intro i hi
    simp [BitVec.getElem_ofFnLE, bitIsOne]
  · rw [List.all_eq_true]
    intro b hb
    obtain ⟨k, hk, rfl⟩ := List.getElem_of_mem hb
    simp [bitKnown]

theorem allKnown_bitsOf {n : Nat} (w : BitVec n) : (bitsOf w).toList.all bitKnown = true := by
  rw [List.all_eq_true]
  intro b hb
  obtain ⟨k, hk, rfl⟩ := List.getElem_of_mem hb
  simp [bitKnown]

theorem allKnown_allZero (n : Nat) : (allZero n).toList.all bitKnown = true := by
  rw [List.all_eq_true]
  intro b hb
  obtain ⟨k, hk, rfl⟩ := List.getElem_of_mem hb
  simp [allZero, bitKnown]

/-- After `n` shift-clock edges carrying these bits, stage `k` holds bit `k`, whatever the stages held before
(10_state.md R32). -/
theorem foldl_shiftIn_full {n : Nat} (v : Bits n) (bs : List Bool) (hn : bs.length = n) {k : Nat} (h : k < n) :
    (bs.foldl (fun v b => shiftIn v (.known b)) v)[k] = .known (bs[k]'(hn ▸ h)) := by
  suffices H : ∀ (bs : List Bool) (v : Bits n) (k : Nat) (h : k < n),
      (bs.foldl (fun v b => shiftIn v (.known b)) v)[k] =
        if h' : k + bs.length < n then v[k + bs.length]
        else if h'' : k + bs.length - n < bs.length then .known bs[k + bs.length - n] else .bot by
    rw [H]
    subst hn
    simp [h]
  intro bs
  induction bs with
  | nil => intro v k h; simp [h]
  | cons b bs ih =>
    intro v k h
    rw [List.foldl_cons, ih]
    simp only [List.length_cons]
    by_cases h1 : k + (bs.length + 1) < n
    · have h2 : k + bs.length < n := by omega
      rw [dif_pos h2, dif_pos h1, getElem_shiftIn, dif_pos (by omega)]
      rfl
    · rw [dif_neg h1]
      by_cases h2 : k + bs.length < n
      · rw [dif_pos h2, getElem_shiftIn, dif_neg (by omega), dif_pos (by omega)]
        congr 1
        have : k + (bs.length + 1) - n = 0 := by omega
        simp [this]
      · rw [dif_neg h2]
        have e : k + (bs.length + 1) - n = (k + bs.length - n) + 1 := by omega
        simp only [e]
        by_cases h3 : k + bs.length - n < bs.length
        · rw [dif_pos h3, dif_pos (by omega)]; simp
        · rw [dif_neg h3, dif_neg (by omega)]

/-- Stage `k` after `j` PISO clock edges (10_state.md R34). -/
theorem getElem_iterate_shiftOut {n : Nat} (v : Bits n) (j : Nat) {k : Nat} (h : k < n) :
    (shiftOut^[j] v)[k] = if j ≤ k then v[k - j] else .bot := by
  induction j generalizing v k with
  | zero => simp
  | succ j ih =>
    rw [Function.iterate_succ_apply', getElem_shiftOut]
    cases k with
    | zero => simp
    | succ k =>
      have hk : k < n := by omega
      simp only [hk, dite_true, ih, Nat.add_sub_add_right, Nat.add_le_add_iff_right]

end Sys2Proof.Machine
end

