-- ==== Sys2Proof/Laws/Memory.lean ====
section
/-! SUPPORT. Reading after writing, and the canonical form of the memory. -/

namespace Sys2Proof.Machine

@[simp] theorem Memory.read_unknown (a : Nat) : Memory.read Memory.unknown a = .bot := rfl

theorem Memory.read_set_same (m : Memory) (a : Nat) (v : Data) : Memory.read (Memory.set m a v) a = .known v := by
  induction m with
  | nil => simp [Memory.set, Memory.read]
  | cons c m ih =>
    obtain ⟨k, w⟩ := c
    simp only [Memory.set]
    split_ifs with h1 h2
    · simp [Memory.read]
    · simp [Memory.read]
    · simp [Memory.read, Ne.symm h2, ih]

theorem Memory.read_set_other (m : Memory) {a b : Nat} (v : Data) (h : b ≠ a) :
    Memory.read (Memory.set m a v) b = Memory.read m b := by
  induction m with
  | nil => simp [Memory.set, Memory.read, Ne.symm h]
  | cons c m ih =>
    obtain ⟨k, w⟩ := c
    simp only [Memory.set]
    split_ifs with h1 h2
    · simp [Memory.read, Ne.symm h]
    · subst h2; simp [Memory.read, Ne.symm h]
    · simp [Memory.read, ih]

theorem Memory.read_forget_same (m : Memory) (a : Nat) : Memory.read (Memory.forget m a) a = .bot := by
  induction m with
  | nil => rfl
  | cons c m ih =>
    obtain ⟨k, w⟩ := c
    by_cases h : k = a
    · subst h; simpa [Memory.forget] using ih
    · have : Memory.forget ((k, w) :: m) a = (k, w) :: Memory.forget m a := by simp [Memory.forget, h]
      rw [this]; simp [Memory.read, h, ih]

theorem Memory.read_forget_other (m : Memory) {a b : Nat} (h : b ≠ a) :
    Memory.read (Memory.forget m a) b = Memory.read m b := by
  induction m with
  | nil => rfl
  | cons c m ih =>
    obtain ⟨k, w⟩ := c
    by_cases hk : k = a
    · subst hk
      have : Memory.forget ((k, w) :: m) k = Memory.forget m k := by simp [Memory.forget]
      rw [this, ih]; simp [Memory.read, Ne.symm h]
    · have : Memory.forget ((k, w) :: m) a = (k, w) :: Memory.forget m a := by simp [Memory.forget, hk]
      rw [this]; simp [Memory.read, ih]

theorem Memory.mem_set {m : Memory} {a : Nat} {v : Data} {c : WordCell} (h : c ∈ Memory.set m a v) :
    c = (a, v) ∨ c ∈ m := by
  induction m with
  | nil => simpa [Memory.set] using h
  | cons d m ih =>
    obtain ⟨k, w⟩ := d
    simp only [Memory.set] at h
    split_ifs at h
    · simpa using h
    · rcases List.mem_cons.1 h with h | h
      · exact .inl h
      · exact .inr (List.mem_cons_of_mem _ h)
    · rcases List.mem_cons.1 h with h | h
      · exact .inr (h ▸ List.mem_cons_self)
      · exact (ih h).imp id (List.mem_cons_of_mem _)

theorem Memory.wf_unknown : Memory.wf Memory.unknown := by simp [Memory.wf, Memory.unknown]

theorem Memory.wf_set {m : Memory} (hm : Memory.wf m) {a : Nat} (ha : a < 2 ^ 16) (v : Data) :
    Memory.wf (Memory.set m a v) := by
  refine ⟨?_, fun c hc => ?_⟩
  · have hp := hm.1
    clear hm
    induction m with
    | nil => simp [Memory.set]
    | cons d m ih =>
      obtain ⟨k, w⟩ := d
      obtain ⟨hk, ht⟩ := List.pairwise_cons.1 hp
      simp only [Memory.set]
      split_ifs with h1 h2
      · refine List.pairwise_cons.2 ⟨fun c hc => ?_, List.pairwise_cons.2 ⟨hk, ht⟩⟩
        rcases List.mem_cons.1 hc with rfl | hc
        · exact h1
        · exact Nat.lt_trans h1 (hk c hc)
      · subst h2; exact List.pairwise_cons.2 ⟨hk, ht⟩
      · refine List.pairwise_cons.2 ⟨fun c hc => ?_, ih ht⟩
        rcases Memory.mem_set hc with rfl | hc
        · simp only; omega
        · exact hk c hc
  · rcases Memory.mem_set hc with rfl | hc
    · exact ha
    · exact hm.2 c hc

theorem Memory.wf_forget {m : Memory} (hm : Memory.wf m) (a : Nat) : Memory.wf (Memory.forget m a) :=
  ⟨hm.1.sublist List.filter_sublist, fun c hc => hm.2 c (List.mem_of_mem_filter hc)⟩

/-- Every operation of the write edge keeps the canonical form (20_memory.md R54). -/
theorem Memory.wf_writeEdge {m : Memory} (hm : Memory.wf m) (l : Level) (a : Val Addr) (d : Val Data) :
    Memory.wf (writeEdge l a d m) := by
  unfold writeEdge
  split
  · exact hm
  · exact Memory.wf_unknown
  · exact Memory.wf_unknown
  · exact Memory.wf_forget hm _
  · rename_i a d; exact Memory.wf_set hm a.isLt d

end Sys2Proof.Machine
end

