-- ==== Sys2Proof/Laws/State.lean ====
section
/-! SUPPORT. What each field of the state is after each named update. -/

namespace Sys2Proof.Machine

/-! ## tick -/

@[simp] theorem tick_words (s : State) : s.tick.words = s.words := by simp only [State.tick]
@[simp] theorem tick_rx (s : State) : s.tick.rx = s.rx := by simp only [State.tick]
@[simp] theorem tick_out (s : State) : s.tick.out = s.out := by simp only [State.tick]
@[simp] theorem tick_progress (s : State) : s.tick.progress = s.progress := by simp only [State.tick]
@[simp] theorem tick_resets (s : State) : s.tick.resets = countDown 1 s.resets := by simp only [State.tick]
@[simp] theorem tick_io (s : State) : s.tick.io = s.io := by simp only [State.tick]
@[simp] theorem tick_ioRest (s : State) : s.tick.ioRest = s.ioRest := by simp only [State.tick]
@[simp] theorem tick_sched (s : State) : s.tick.sched = s.sched := by simp only [State.tick]
@[simp] theorem tick_cmdPtr (s : State) : s.tick.cmdPtr = s.cmdPtr := by simp only [State.tick]
@[simp] theorem tick_phase (s : State) : s.tick.phase = s.phase := by simp only [State.tick]
@[simp] theorem tick_micro (s : State) : s.tick.micro = s.micro + 1 := by simp only [State.tick]
@[simp] theorem tick_clra (s : State) : s.tick.clra = s.clra := by simp only [State.tick]
@[simp] theorem tick_clrd (s : State) : s.tick.clrd = s.clrd := by simp only [State.tick]
@[simp] theorem tick_ioerr (s : State) : s.tick.ioerr = s.ioerr := by simp only [State.tick]
@[simp] theorem tick_opc (s : State) : s.tick.opc = s.opc := by simp only [State.tick]
@[simp] theorem tick_opa (s : State) : s.tick.opa = s.opa := by simp only [State.tick]
@[simp] theorem tick_opb (s : State) : s.tick.opb = s.opb := by simp only [State.tick]
@[simp] theorem tick_opd (s : State) : s.tick.opd = s.opd := by simp only [State.tick]
@[simp] theorem tick_bc (s : State) : s.tick.bc = s.bc := by simp only [State.tick]
@[simp] theorem tick_rt (s : State) : s.tick.rt = s.rt := by simp only [State.tick]
@[simp] theorem tick_acc (s : State) : s.tick.acc = s.acc := by simp only [State.tick]
@[simp] theorem tick_ckacc (s : State) : s.tick.ckacc = s.ckacc := by simp only [State.tick]
@[simp] theorem tick_bitcnt (s : State) : s.tick.bitcnt = s.bitcnt := by simp only [State.tick]
@[simp] theorem tick_idx (s : State) : s.tick.idx = s.idx := by simp only [State.tick]
@[simp] theorem tick_pins (s : State) : s.tick.pins = s.pins := by simp only [State.tick]
@[simp] theorem tick_sa (s : State) : s.tick.sa = s.sa := by simp only [State.tick]
@[simp] theorem tick_oa (s : State) : s.tick.oa = s.oa := by simp only [State.tick]
@[simp] theorem tick_sd (s : State) : s.tick.sd = s.sd := by simp only [State.tick]
@[simp] theorem tick_od (s : State) : s.tick.od = s.od := by simp only [State.tick]
@[simp] theorem tick_q (s : State) : s.tick.q = s.q := by simp only [State.tick]
@[simp] theorem tick_mem (s : State) : s.tick.mem = s.mem := by simp only [State.tick]
@[simp] theorem tick_draws (s : State) : s.tick.draws = s.draws := by simp only [State.tick]

/-! ## withPins -/

@[simp] theorem withPins_words (s : State) (p : Pins) : (s.withPins p).words = s.words := by simp only [State.withPins]
@[simp] theorem withPins_rx (s : State) (p : Pins) : (s.withPins p).rx = s.rx := by simp only [State.withPins]
@[simp] theorem withPins_out (s : State) (p : Pins) : (s.withPins p).out = s.out := by simp only [State.withPins]
@[simp] theorem withPins_progress (s : State) (p : Pins) : (s.withPins p).progress = s.progress := by simp only [State.withPins]
@[simp] theorem withPins_resets (s : State) (p : Pins) : (s.withPins p).resets = s.resets := by simp only [State.withPins]
@[simp] theorem withPins_io (s : State) (p : Pins) : (s.withPins p).io = s.io := by simp only [State.withPins]
@[simp] theorem withPins_ioRest (s : State) (p : Pins) : (s.withPins p).ioRest = s.ioRest := by simp only [State.withPins]
@[simp] theorem withPins_sched (s : State) (p : Pins) : (s.withPins p).sched = s.sched := by simp only [State.withPins]
@[simp] theorem withPins_cmdPtr (s : State) (p : Pins) : (s.withPins p).cmdPtr = s.cmdPtr := by simp only [State.withPins]
@[simp] theorem withPins_phase (s : State) (p : Pins) : (s.withPins p).phase = s.phase := by simp only [State.withPins]
@[simp] theorem withPins_micro (s : State) (p : Pins) : (s.withPins p).micro = s.micro := by simp only [State.withPins]
@[simp] theorem withPins_clra (s : State) (p : Pins) : (s.withPins p).clra = s.clra := by simp only [State.withPins]
@[simp] theorem withPins_clrd (s : State) (p : Pins) : (s.withPins p).clrd = s.clrd := by simp only [State.withPins]
@[simp] theorem withPins_ioerr (s : State) (p : Pins) : (s.withPins p).ioerr = s.ioerr := by simp only [State.withPins]
@[simp] theorem withPins_opc (s : State) (p : Pins) : (s.withPins p).opc = s.opc := by simp only [State.withPins]
@[simp] theorem withPins_opa (s : State) (p : Pins) : (s.withPins p).opa = s.opa := by simp only [State.withPins]
@[simp] theorem withPins_opb (s : State) (p : Pins) : (s.withPins p).opb = s.opb := by simp only [State.withPins]
@[simp] theorem withPins_opd (s : State) (p : Pins) : (s.withPins p).opd = s.opd := by simp only [State.withPins]
@[simp] theorem withPins_bc (s : State) (p : Pins) : (s.withPins p).bc = s.bc := by simp only [State.withPins]
@[simp] theorem withPins_rt (s : State) (p : Pins) : (s.withPins p).rt = s.rt := by simp only [State.withPins]
@[simp] theorem withPins_acc (s : State) (p : Pins) : (s.withPins p).acc = s.acc := by simp only [State.withPins]
@[simp] theorem withPins_ckacc (s : State) (p : Pins) : (s.withPins p).ckacc = s.ckacc := by simp only [State.withPins]
@[simp] theorem withPins_bitcnt (s : State) (p : Pins) : (s.withPins p).bitcnt = s.bitcnt := by simp only [State.withPins]
@[simp] theorem withPins_idx (s : State) (p : Pins) : (s.withPins p).idx = s.idx := by simp only [State.withPins]
@[simp] theorem withPins_pins (s : State) (p : Pins) : (s.withPins p).pins = p := by simp only [State.withPins]
@[simp] theorem withPins_sa (s : State) (p : Pins) : (s.withPins p).sa = s.sa := by simp only [State.withPins]
@[simp] theorem withPins_oa (s : State) (p : Pins) : (s.withPins p).oa = s.oa := by simp only [State.withPins]
@[simp] theorem withPins_sd (s : State) (p : Pins) : (s.withPins p).sd = s.sd := by simp only [State.withPins]
@[simp] theorem withPins_od (s : State) (p : Pins) : (s.withPins p).od = s.od := by simp only [State.withPins]
@[simp] theorem withPins_q (s : State) (p : Pins) : (s.withPins p).q = s.q := by simp only [State.withPins]
@[simp] theorem withPins_mem (s : State) (p : Pins) : (s.withPins p).mem = s.mem := by simp only [State.withPins]
@[simp] theorem withPins_draws (s : State) (p : Pins) : (s.withPins p).draws = s.draws := by simp only [State.withPins]

/-! ## withSched -/

@[simp] theorem withSched_words (s : State) (sc : List Chain) : (s.withSched sc).words = s.words := by simp only [State.withSched]
@[simp] theorem withSched_rx (s : State) (sc : List Chain) : (s.withSched sc).rx = s.rx := by simp only [State.withSched]
@[simp] theorem withSched_out (s : State) (sc : List Chain) : (s.withSched sc).out = s.out := by simp only [State.withSched]
@[simp] theorem withSched_progress (s : State) (sc : List Chain) : (s.withSched sc).progress = s.progress := by simp only [State.withSched]
@[simp] theorem withSched_resets (s : State) (sc : List Chain) : (s.withSched sc).resets = s.resets := by simp only [State.withSched]
@[simp] theorem withSched_io (s : State) (sc : List Chain) : (s.withSched sc).io = s.io := by simp only [State.withSched]
@[simp] theorem withSched_ioRest (s : State) (sc : List Chain) : (s.withSched sc).ioRest = s.ioRest := by simp only [State.withSched]
@[simp] theorem withSched_sched (s : State) (sc : List Chain) : (s.withSched sc).sched = sc := by simp only [State.withSched]
@[simp] theorem withSched_cmdPtr (s : State) (sc : List Chain) : (s.withSched sc).cmdPtr = s.cmdPtr := by simp only [State.withSched]
@[simp] theorem withSched_phase (s : State) (sc : List Chain) : (s.withSched sc).phase = s.phase := by simp only [State.withSched]
@[simp] theorem withSched_micro (s : State) (sc : List Chain) : (s.withSched sc).micro = s.micro := by simp only [State.withSched]
@[simp] theorem withSched_clra (s : State) (sc : List Chain) : (s.withSched sc).clra = s.clra := by simp only [State.withSched]
@[simp] theorem withSched_clrd (s : State) (sc : List Chain) : (s.withSched sc).clrd = s.clrd := by simp only [State.withSched]
@[simp] theorem withSched_ioerr (s : State) (sc : List Chain) : (s.withSched sc).ioerr = s.ioerr := by simp only [State.withSched]
@[simp] theorem withSched_opc (s : State) (sc : List Chain) : (s.withSched sc).opc = s.opc := by simp only [State.withSched]
@[simp] theorem withSched_opa (s : State) (sc : List Chain) : (s.withSched sc).opa = s.opa := by simp only [State.withSched]
@[simp] theorem withSched_opb (s : State) (sc : List Chain) : (s.withSched sc).opb = s.opb := by simp only [State.withSched]
@[simp] theorem withSched_opd (s : State) (sc : List Chain) : (s.withSched sc).opd = s.opd := by simp only [State.withSched]
@[simp] theorem withSched_bc (s : State) (sc : List Chain) : (s.withSched sc).bc = s.bc := by simp only [State.withSched]
@[simp] theorem withSched_rt (s : State) (sc : List Chain) : (s.withSched sc).rt = s.rt := by simp only [State.withSched]
@[simp] theorem withSched_acc (s : State) (sc : List Chain) : (s.withSched sc).acc = s.acc := by simp only [State.withSched]
@[simp] theorem withSched_ckacc (s : State) (sc : List Chain) : (s.withSched sc).ckacc = s.ckacc := by simp only [State.withSched]
@[simp] theorem withSched_bitcnt (s : State) (sc : List Chain) : (s.withSched sc).bitcnt = s.bitcnt := by simp only [State.withSched]
@[simp] theorem withSched_idx (s : State) (sc : List Chain) : (s.withSched sc).idx = s.idx := by simp only [State.withSched]
@[simp] theorem withSched_pins (s : State) (sc : List Chain) : (s.withSched sc).pins = s.pins := by simp only [State.withSched]
@[simp] theorem withSched_sa (s : State) (sc : List Chain) : (s.withSched sc).sa = s.sa := by simp only [State.withSched]
@[simp] theorem withSched_oa (s : State) (sc : List Chain) : (s.withSched sc).oa = s.oa := by simp only [State.withSched]
@[simp] theorem withSched_sd (s : State) (sc : List Chain) : (s.withSched sc).sd = s.sd := by simp only [State.withSched]
@[simp] theorem withSched_od (s : State) (sc : List Chain) : (s.withSched sc).od = s.od := by simp only [State.withSched]
@[simp] theorem withSched_q (s : State) (sc : List Chain) : (s.withSched sc).q = s.q := by simp only [State.withSched]
@[simp] theorem withSched_mem (s : State) (sc : List Chain) : (s.withSched sc).mem = s.mem := by simp only [State.withSched]
@[simp] theorem withSched_draws (s : State) (sc : List Chain) : (s.withSched sc).draws = s.draws := by simp only [State.withSched]

/-! ## addrHolds -/

@[simp] theorem addrHolds_words (a : Addr) (s : State) : (addrHolds a s).words = s.words := by simp only [addrHolds]
@[simp] theorem addrHolds_rx (a : Addr) (s : State) : (addrHolds a s).rx = s.rx := by simp only [addrHolds]
@[simp] theorem addrHolds_out (a : Addr) (s : State) : (addrHolds a s).out = s.out := by simp only [addrHolds]
@[simp] theorem addrHolds_progress (a : Addr) (s : State) : (addrHolds a s).progress = s.progress := by simp only [addrHolds]
@[simp] theorem addrHolds_resets (a : Addr) (s : State) : (addrHolds a s).resets = s.resets := by simp only [addrHolds]
@[simp] theorem addrHolds_io (a : Addr) (s : State) : (addrHolds a s).io = s.io := by simp only [addrHolds]
@[simp] theorem addrHolds_ioRest (a : Addr) (s : State) : (addrHolds a s).ioRest = s.ioRest := by simp only [addrHolds]
@[simp] theorem addrHolds_sched (a : Addr) (s : State) : (addrHolds a s).sched = s.sched := by simp only [addrHolds]
@[simp] theorem addrHolds_cmdPtr (a : Addr) (s : State) : (addrHolds a s).cmdPtr = s.cmdPtr := by simp only [addrHolds]
@[simp] theorem addrHolds_phase (a : Addr) (s : State) : (addrHolds a s).phase = s.phase := by simp only [addrHolds]
@[simp] theorem addrHolds_micro (a : Addr) (s : State) : (addrHolds a s).micro = s.micro := by simp only [addrHolds]
@[simp] theorem addrHolds_clra (a : Addr) (s : State) : (addrHolds a s).clra = s.clra := by simp only [addrHolds]
@[simp] theorem addrHolds_clrd (a : Addr) (s : State) : (addrHolds a s).clrd = s.clrd := by simp only [addrHolds]
@[simp] theorem addrHolds_ioerr (a : Addr) (s : State) : (addrHolds a s).ioerr = s.ioerr := by simp only [addrHolds]
@[simp] theorem addrHolds_opc (a : Addr) (s : State) : (addrHolds a s).opc = s.opc := by simp only [addrHolds]
@[simp] theorem addrHolds_opa (a : Addr) (s : State) : (addrHolds a s).opa = s.opa := by simp only [addrHolds]
@[simp] theorem addrHolds_opb (a : Addr) (s : State) : (addrHolds a s).opb = s.opb := by simp only [addrHolds]
@[simp] theorem addrHolds_opd (a : Addr) (s : State) : (addrHolds a s).opd = s.opd := by simp only [addrHolds]
@[simp] theorem addrHolds_bc (a : Addr) (s : State) : (addrHolds a s).bc = s.bc := by simp only [addrHolds]
@[simp] theorem addrHolds_rt (a : Addr) (s : State) : (addrHolds a s).rt = s.rt := by simp only [addrHolds]
@[simp] theorem addrHolds_acc (a : Addr) (s : State) : (addrHolds a s).acc = s.acc := by simp only [addrHolds]
@[simp] theorem addrHolds_ckacc (a : Addr) (s : State) : (addrHolds a s).ckacc = s.ckacc := by simp only [addrHolds]
@[simp] theorem addrHolds_bitcnt (a : Addr) (s : State) : (addrHolds a s).bitcnt = s.bitcnt := by simp only [addrHolds]
@[simp] theorem addrHolds_idx (a : Addr) (s : State) : (addrHolds a s).idx = s.idx := by simp only [addrHolds]
@[simp] theorem addrHolds_pins (a : Addr) (s : State) : (addrHolds a s).pins = s.pins := by simp only [addrHolds]
@[simp] theorem addrHolds_sa (a : Addr) (s : State) : (addrHolds a s).sa = bitsOf a := by simp only [addrHolds]
@[simp] theorem addrHolds_oa (a : Addr) (s : State) : (addrHolds a s).oa = bitsOf a := by simp only [addrHolds]
@[simp] theorem addrHolds_sd (a : Addr) (s : State) : (addrHolds a s).sd = s.sd := by simp only [addrHolds]
@[simp] theorem addrHolds_od (a : Addr) (s : State) : (addrHolds a s).od = s.od := by simp only [addrHolds]
@[simp] theorem addrHolds_q (a : Addr) (s : State) : (addrHolds a s).q = s.q := by simp only [addrHolds]
@[simp] theorem addrHolds_mem (a : Addr) (s : State) : (addrHolds a s).mem = s.mem := by simp only [addrHolds]
@[simp] theorem addrHolds_draws (a : Addr) (s : State) : (addrHolds a s).draws = s.draws := by simp only [addrHolds]

/-! ## dataHolds -/

@[simp] theorem dataHolds_words (d : Data) (s : State) : (dataHolds d s).words = s.words := by simp only [dataHolds]
@[simp] theorem dataHolds_rx (d : Data) (s : State) : (dataHolds d s).rx = s.rx := by simp only [dataHolds]
@[simp] theorem dataHolds_out (d : Data) (s : State) : (dataHolds d s).out = s.out := by simp only [dataHolds]
@[simp] theorem dataHolds_progress (d : Data) (s : State) : (dataHolds d s).progress = s.progress := by simp only [dataHolds]
@[simp] theorem dataHolds_resets (d : Data) (s : State) : (dataHolds d s).resets = s.resets := by simp only [dataHolds]
@[simp] theorem dataHolds_io (d : Data) (s : State) : (dataHolds d s).io = s.io := by simp only [dataHolds]
@[simp] theorem dataHolds_ioRest (d : Data) (s : State) : (dataHolds d s).ioRest = s.ioRest := by simp only [dataHolds]
@[simp] theorem dataHolds_sched (d : Data) (s : State) : (dataHolds d s).sched = s.sched := by simp only [dataHolds]
@[simp] theorem dataHolds_cmdPtr (d : Data) (s : State) : (dataHolds d s).cmdPtr = s.cmdPtr := by simp only [dataHolds]
@[simp] theorem dataHolds_phase (d : Data) (s : State) : (dataHolds d s).phase = s.phase := by simp only [dataHolds]
@[simp] theorem dataHolds_micro (d : Data) (s : State) : (dataHolds d s).micro = s.micro := by simp only [dataHolds]
@[simp] theorem dataHolds_clra (d : Data) (s : State) : (dataHolds d s).clra = s.clra := by simp only [dataHolds]
@[simp] theorem dataHolds_clrd (d : Data) (s : State) : (dataHolds d s).clrd = s.clrd := by simp only [dataHolds]
@[simp] theorem dataHolds_ioerr (d : Data) (s : State) : (dataHolds d s).ioerr = s.ioerr := by simp only [dataHolds]
@[simp] theorem dataHolds_opc (d : Data) (s : State) : (dataHolds d s).opc = s.opc := by simp only [dataHolds]
@[simp] theorem dataHolds_opa (d : Data) (s : State) : (dataHolds d s).opa = s.opa := by simp only [dataHolds]
@[simp] theorem dataHolds_opb (d : Data) (s : State) : (dataHolds d s).opb = s.opb := by simp only [dataHolds]
@[simp] theorem dataHolds_opd (d : Data) (s : State) : (dataHolds d s).opd = s.opd := by simp only [dataHolds]
@[simp] theorem dataHolds_bc (d : Data) (s : State) : (dataHolds d s).bc = s.bc := by simp only [dataHolds]
@[simp] theorem dataHolds_rt (d : Data) (s : State) : (dataHolds d s).rt = s.rt := by simp only [dataHolds]
@[simp] theorem dataHolds_acc (d : Data) (s : State) : (dataHolds d s).acc = s.acc := by simp only [dataHolds]
@[simp] theorem dataHolds_ckacc (d : Data) (s : State) : (dataHolds d s).ckacc = s.ckacc := by simp only [dataHolds]
@[simp] theorem dataHolds_bitcnt (d : Data) (s : State) : (dataHolds d s).bitcnt = s.bitcnt := by simp only [dataHolds]
@[simp] theorem dataHolds_idx (d : Data) (s : State) : (dataHolds d s).idx = s.idx := by simp only [dataHolds]
@[simp] theorem dataHolds_pins (d : Data) (s : State) : (dataHolds d s).pins = s.pins := by simp only [dataHolds]
@[simp] theorem dataHolds_sa (d : Data) (s : State) : (dataHolds d s).sa = s.sa := by simp only [dataHolds]
@[simp] theorem dataHolds_oa (d : Data) (s : State) : (dataHolds d s).oa = s.oa := by simp only [dataHolds]
@[simp] theorem dataHolds_sd (d : Data) (s : State) : (dataHolds d s).sd = bitsOf d := by simp only [dataHolds]
@[simp] theorem dataHolds_od (d : Data) (s : State) : (dataHolds d s).od = bitsOf d := by simp only [dataHolds]
@[simp] theorem dataHolds_q (d : Data) (s : State) : (dataHolds d s).q = s.q := by simp only [dataHolds]
@[simp] theorem dataHolds_mem (d : Data) (s : State) : (dataHolds d s).mem = s.mem := by simp only [dataHolds]
@[simp] theorem dataHolds_draws (d : Data) (s : State) : (dataHolds d s).draws = s.draws := by simp only [dataHolds]

/-! ## memBecomes -/

@[simp] theorem memBecomes_words (m : Memory) (s : State) : (memBecomes m s).words = s.words := by simp only [memBecomes]
@[simp] theorem memBecomes_rx (m : Memory) (s : State) : (memBecomes m s).rx = s.rx := by simp only [memBecomes]
@[simp] theorem memBecomes_out (m : Memory) (s : State) : (memBecomes m s).out = s.out := by simp only [memBecomes]
@[simp] theorem memBecomes_progress (m : Memory) (s : State) : (memBecomes m s).progress = s.progress := by simp only [memBecomes]
@[simp] theorem memBecomes_resets (m : Memory) (s : State) : (memBecomes m s).resets = s.resets := by simp only [memBecomes]
@[simp] theorem memBecomes_io (m : Memory) (s : State) : (memBecomes m s).io = s.io := by simp only [memBecomes]
@[simp] theorem memBecomes_ioRest (m : Memory) (s : State) : (memBecomes m s).ioRest = s.ioRest := by simp only [memBecomes]
@[simp] theorem memBecomes_sched (m : Memory) (s : State) : (memBecomes m s).sched = s.sched := by simp only [memBecomes]
@[simp] theorem memBecomes_cmdPtr (m : Memory) (s : State) : (memBecomes m s).cmdPtr = s.cmdPtr := by simp only [memBecomes]
@[simp] theorem memBecomes_phase (m : Memory) (s : State) : (memBecomes m s).phase = s.phase := by simp only [memBecomes]
@[simp] theorem memBecomes_micro (m : Memory) (s : State) : (memBecomes m s).micro = s.micro := by simp only [memBecomes]
@[simp] theorem memBecomes_clra (m : Memory) (s : State) : (memBecomes m s).clra = s.clra := by simp only [memBecomes]
@[simp] theorem memBecomes_clrd (m : Memory) (s : State) : (memBecomes m s).clrd = s.clrd := by simp only [memBecomes]
@[simp] theorem memBecomes_ioerr (m : Memory) (s : State) : (memBecomes m s).ioerr = s.ioerr := by simp only [memBecomes]
@[simp] theorem memBecomes_opc (m : Memory) (s : State) : (memBecomes m s).opc = s.opc := by simp only [memBecomes]
@[simp] theorem memBecomes_opa (m : Memory) (s : State) : (memBecomes m s).opa = s.opa := by simp only [memBecomes]
@[simp] theorem memBecomes_opb (m : Memory) (s : State) : (memBecomes m s).opb = s.opb := by simp only [memBecomes]
@[simp] theorem memBecomes_opd (m : Memory) (s : State) : (memBecomes m s).opd = s.opd := by simp only [memBecomes]
@[simp] theorem memBecomes_bc (m : Memory) (s : State) : (memBecomes m s).bc = s.bc := by simp only [memBecomes]
@[simp] theorem memBecomes_rt (m : Memory) (s : State) : (memBecomes m s).rt = s.rt := by simp only [memBecomes]
@[simp] theorem memBecomes_acc (m : Memory) (s : State) : (memBecomes m s).acc = s.acc := by simp only [memBecomes]
@[simp] theorem memBecomes_ckacc (m : Memory) (s : State) : (memBecomes m s).ckacc = s.ckacc := by simp only [memBecomes]
@[simp] theorem memBecomes_bitcnt (m : Memory) (s : State) : (memBecomes m s).bitcnt = s.bitcnt := by simp only [memBecomes]
@[simp] theorem memBecomes_idx (m : Memory) (s : State) : (memBecomes m s).idx = s.idx := by simp only [memBecomes]
@[simp] theorem memBecomes_pins (m : Memory) (s : State) : (memBecomes m s).pins = s.pins := by simp only [memBecomes]
@[simp] theorem memBecomes_sa (m : Memory) (s : State) : (memBecomes m s).sa = s.sa := by simp only [memBecomes]
@[simp] theorem memBecomes_oa (m : Memory) (s : State) : (memBecomes m s).oa = s.oa := by simp only [memBecomes]
@[simp] theorem memBecomes_sd (m : Memory) (s : State) : (memBecomes m s).sd = s.sd := by simp only [memBecomes]
@[simp] theorem memBecomes_od (m : Memory) (s : State) : (memBecomes m s).od = s.od := by simp only [memBecomes]
@[simp] theorem memBecomes_q (m : Memory) (s : State) : (memBecomes m s).q = s.q := by simp only [memBecomes]
@[simp] theorem memBecomes_mem (m : Memory) (s : State) : (memBecomes m s).mem = m := by simp only [memBecomes]
@[simp] theorem memBecomes_draws (m : Memory) (s : State) : (memBecomes m s).draws = s.draws := by simp only [memBecomes]

/-! ## drawn -/

@[simp] theorem drawn_words (s : State) : s.drawn.words = s.words := by simp only [State.drawn]
@[simp] theorem drawn_rx (s : State) : s.drawn.rx = s.rx := by simp only [State.drawn]
@[simp] theorem drawn_out (s : State) : s.drawn.out = s.out := by simp only [State.drawn]
@[simp] theorem drawn_progress (s : State) : s.drawn.progress = s.progress := by simp only [State.drawn]
@[simp] theorem drawn_resets (s : State) : s.drawn.resets = s.resets := by simp only [State.drawn]
@[simp] theorem drawn_io (s : State) : s.drawn.io = s.io := by simp only [State.drawn]
@[simp] theorem drawn_ioRest (s : State) : s.drawn.ioRest = s.ioRest := by simp only [State.drawn]
@[simp] theorem drawn_sched (s : State) : s.drawn.sched = s.sched := by simp only [State.drawn]
@[simp] theorem drawn_cmdPtr (s : State) : s.drawn.cmdPtr = s.cmdPtr := by simp only [State.drawn]
@[simp] theorem drawn_phase (s : State) : s.drawn.phase = s.phase := by simp only [State.drawn]
@[simp] theorem drawn_micro (s : State) : s.drawn.micro = s.micro := by simp only [State.drawn]
@[simp] theorem drawn_clra (s : State) : s.drawn.clra = s.clra := by simp only [State.drawn]
@[simp] theorem drawn_clrd (s : State) : s.drawn.clrd = s.clrd := by simp only [State.drawn]
@[simp] theorem drawn_ioerr (s : State) : s.drawn.ioerr = s.ioerr := by simp only [State.drawn]
@[simp] theorem drawn_opc (s : State) : s.drawn.opc = s.opc := by simp only [State.drawn]
@[simp] theorem drawn_opa (s : State) : s.drawn.opa = s.opa := by simp only [State.drawn]
@[simp] theorem drawn_opb (s : State) : s.drawn.opb = s.opb := by simp only [State.drawn]
@[simp] theorem drawn_opd (s : State) : s.drawn.opd = s.opd := by simp only [State.drawn]
@[simp] theorem drawn_bc (s : State) : s.drawn.bc = s.bc := by simp only [State.drawn]
@[simp] theorem drawn_rt (s : State) : s.drawn.rt = s.rt := by simp only [State.drawn]
@[simp] theorem drawn_acc (s : State) : s.drawn.acc = s.acc := by simp only [State.drawn]
@[simp] theorem drawn_ckacc (s : State) : s.drawn.ckacc = s.ckacc := by simp only [State.drawn]
@[simp] theorem drawn_bitcnt (s : State) : s.drawn.bitcnt = s.bitcnt := by simp only [State.drawn]
@[simp] theorem drawn_idx (s : State) : s.drawn.idx = s.idx := by simp only [State.drawn]
@[simp] theorem drawn_pins (s : State) : s.drawn.pins = s.pins := by simp only [State.drawn]
@[simp] theorem drawn_sa (s : State) : s.drawn.sa = s.sa := by simp only [State.drawn]
@[simp] theorem drawn_oa (s : State) : s.drawn.oa = s.oa := by simp only [State.drawn]
@[simp] theorem drawn_sd (s : State) : s.drawn.sd = s.sd := by simp only [State.drawn]
@[simp] theorem drawn_od (s : State) : s.drawn.od = s.od := by simp only [State.drawn]
@[simp] theorem drawn_q (s : State) : s.drawn.q = s.q := by simp only [State.drawn]
@[simp] theorem drawn_mem (s : State) : s.drawn.mem = s.mem := by simp only [State.drawn]
@[simp] theorem drawn_draws (s : State) : s.drawn.draws = s.draws + 1 := by simp only [State.drawn]

/-! ## withIdx -/

@[simp] theorem withIdx_words (i : Nat) (s : State) : (withIdx i s).words = s.words := by simp only [withIdx]
@[simp] theorem withIdx_rx (i : Nat) (s : State) : (withIdx i s).rx = s.rx := by simp only [withIdx]
@[simp] theorem withIdx_out (i : Nat) (s : State) : (withIdx i s).out = s.out := by simp only [withIdx]
@[simp] theorem withIdx_progress (i : Nat) (s : State) : (withIdx i s).progress = s.progress := by simp only [withIdx]
@[simp] theorem withIdx_resets (i : Nat) (s : State) : (withIdx i s).resets = s.resets := by simp only [withIdx]
@[simp] theorem withIdx_io (i : Nat) (s : State) : (withIdx i s).io = s.io := by simp only [withIdx]
@[simp] theorem withIdx_ioRest (i : Nat) (s : State) : (withIdx i s).ioRest = s.ioRest := by simp only [withIdx]
@[simp] theorem withIdx_sched (i : Nat) (s : State) : (withIdx i s).sched = s.sched := by simp only [withIdx]
@[simp] theorem withIdx_cmdPtr (i : Nat) (s : State) : (withIdx i s).cmdPtr = s.cmdPtr := by simp only [withIdx]
@[simp] theorem withIdx_phase (i : Nat) (s : State) : (withIdx i s).phase = s.phase := by simp only [withIdx]
@[simp] theorem withIdx_micro (i : Nat) (s : State) : (withIdx i s).micro = s.micro := by simp only [withIdx]
@[simp] theorem withIdx_clra (i : Nat) (s : State) : (withIdx i s).clra = s.clra := by simp only [withIdx]
@[simp] theorem withIdx_clrd (i : Nat) (s : State) : (withIdx i s).clrd = s.clrd := by simp only [withIdx]
@[simp] theorem withIdx_ioerr (i : Nat) (s : State) : (withIdx i s).ioerr = s.ioerr := by simp only [withIdx]
@[simp] theorem withIdx_opc (i : Nat) (s : State) : (withIdx i s).opc = s.opc := by simp only [withIdx]
@[simp] theorem withIdx_opa (i : Nat) (s : State) : (withIdx i s).opa = s.opa := by simp only [withIdx]
@[simp] theorem withIdx_opb (i : Nat) (s : State) : (withIdx i s).opb = s.opb := by simp only [withIdx]
@[simp] theorem withIdx_opd (i : Nat) (s : State) : (withIdx i s).opd = s.opd := by simp only [withIdx]
@[simp] theorem withIdx_bc (i : Nat) (s : State) : (withIdx i s).bc = s.bc := by simp only [withIdx]
@[simp] theorem withIdx_rt (i : Nat) (s : State) : (withIdx i s).rt = s.rt := by simp only [withIdx]
@[simp] theorem withIdx_acc (i : Nat) (s : State) : (withIdx i s).acc = s.acc := by simp only [withIdx]
@[simp] theorem withIdx_ckacc (i : Nat) (s : State) : (withIdx i s).ckacc = s.ckacc := by simp only [withIdx]
@[simp] theorem withIdx_bitcnt (i : Nat) (s : State) : (withIdx i s).bitcnt = s.bitcnt := by simp only [withIdx]
@[simp] theorem withIdx_idx (i : Nat) (s : State) : (withIdx i s).idx = .known (BitVec.ofNat 17 i) := by simp only [withIdx]
@[simp] theorem withIdx_pins (i : Nat) (s : State) : (withIdx i s).pins = s.pins := by simp only [withIdx]
@[simp] theorem withIdx_sa (i : Nat) (s : State) : (withIdx i s).sa = s.sa := by simp only [withIdx]
@[simp] theorem withIdx_oa (i : Nat) (s : State) : (withIdx i s).oa = s.oa := by simp only [withIdx]
@[simp] theorem withIdx_sd (i : Nat) (s : State) : (withIdx i s).sd = s.sd := by simp only [withIdx]
@[simp] theorem withIdx_od (i : Nat) (s : State) : (withIdx i s).od = s.od := by simp only [withIdx]
@[simp] theorem withIdx_q (i : Nat) (s : State) : (withIdx i s).q = s.q := by simp only [withIdx]
@[simp] theorem withIdx_mem (i : Nat) (s : State) : (withIdx i s).mem = s.mem := by simp only [withIdx]
@[simp] theorem withIdx_draws (i : Nat) (s : State) : (withIdx i s).draws = s.draws := by simp only [withIdx]

/-! ## withChecksum -/

@[simp] theorem withChecksum_words (bs : List Byte) (s : State) : (withChecksum bs s).words = s.words := by simp only [withChecksum]
@[simp] theorem withChecksum_rx (bs : List Byte) (s : State) : (withChecksum bs s).rx = s.rx := by simp only [withChecksum]
@[simp] theorem withChecksum_out (bs : List Byte) (s : State) : (withChecksum bs s).out = s.out := by simp only [withChecksum]
@[simp] theorem withChecksum_progress (bs : List Byte) (s : State) : (withChecksum bs s).progress = s.progress := by simp only [withChecksum]
@[simp] theorem withChecksum_resets (bs : List Byte) (s : State) : (withChecksum bs s).resets = s.resets := by simp only [withChecksum]
@[simp] theorem withChecksum_io (bs : List Byte) (s : State) : (withChecksum bs s).io = s.io := by simp only [withChecksum]
@[simp] theorem withChecksum_ioRest (bs : List Byte) (s : State) : (withChecksum bs s).ioRest = s.ioRest := by simp only [withChecksum]
@[simp] theorem withChecksum_sched (bs : List Byte) (s : State) : (withChecksum bs s).sched = s.sched := by simp only [withChecksum]
@[simp] theorem withChecksum_cmdPtr (bs : List Byte) (s : State) : (withChecksum bs s).cmdPtr = s.cmdPtr := by simp only [withChecksum]
@[simp] theorem withChecksum_phase (bs : List Byte) (s : State) : (withChecksum bs s).phase = s.phase := by simp only [withChecksum]
@[simp] theorem withChecksum_micro (bs : List Byte) (s : State) : (withChecksum bs s).micro = s.micro := by simp only [withChecksum]
@[simp] theorem withChecksum_clra (bs : List Byte) (s : State) : (withChecksum bs s).clra = s.clra := by simp only [withChecksum]
@[simp] theorem withChecksum_clrd (bs : List Byte) (s : State) : (withChecksum bs s).clrd = s.clrd := by simp only [withChecksum]
@[simp] theorem withChecksum_ioerr (bs : List Byte) (s : State) : (withChecksum bs s).ioerr = s.ioerr := by simp only [withChecksum]
@[simp] theorem withChecksum_opc (bs : List Byte) (s : State) : (withChecksum bs s).opc = s.opc := by simp only [withChecksum]
@[simp] theorem withChecksum_opa (bs : List Byte) (s : State) : (withChecksum bs s).opa = s.opa := by simp only [withChecksum]
@[simp] theorem withChecksum_opb (bs : List Byte) (s : State) : (withChecksum bs s).opb = s.opb := by simp only [withChecksum]
@[simp] theorem withChecksum_opd (bs : List Byte) (s : State) : (withChecksum bs s).opd = s.opd := by simp only [withChecksum]
@[simp] theorem withChecksum_bc (bs : List Byte) (s : State) : (withChecksum bs s).bc = s.bc := by simp only [withChecksum]
@[simp] theorem withChecksum_rt (bs : List Byte) (s : State) : (withChecksum bs s).rt = s.rt := by simp only [withChecksum]
@[simp] theorem withChecksum_acc (bs : List Byte) (s : State) : (withChecksum bs s).acc = s.acc := by simp only [withChecksum]
@[simp] theorem withChecksum_ckacc (bs : List Byte) (s : State) : (withChecksum bs s).ckacc = .known (ckAccumulate bs) := by simp only [withChecksum]
@[simp] theorem withChecksum_bitcnt (bs : List Byte) (s : State) : (withChecksum bs s).bitcnt = s.bitcnt := by simp only [withChecksum]
@[simp] theorem withChecksum_idx (bs : List Byte) (s : State) : (withChecksum bs s).idx = s.idx := by simp only [withChecksum]
@[simp] theorem withChecksum_pins (bs : List Byte) (s : State) : (withChecksum bs s).pins = s.pins := by simp only [withChecksum]
@[simp] theorem withChecksum_sa (bs : List Byte) (s : State) : (withChecksum bs s).sa = s.sa := by simp only [withChecksum]
@[simp] theorem withChecksum_oa (bs : List Byte) (s : State) : (withChecksum bs s).oa = s.oa := by simp only [withChecksum]
@[simp] theorem withChecksum_sd (bs : List Byte) (s : State) : (withChecksum bs s).sd = s.sd := by simp only [withChecksum]
@[simp] theorem withChecksum_od (bs : List Byte) (s : State) : (withChecksum bs s).od = s.od := by simp only [withChecksum]
@[simp] theorem withChecksum_q (bs : List Byte) (s : State) : (withChecksum bs s).q = s.q := by simp only [withChecksum]
@[simp] theorem withChecksum_mem (bs : List Byte) (s : State) : (withChecksum bs s).mem = s.mem := by simp only [withChecksum]
@[simp] theorem withChecksum_draws (bs : List Byte) (s : State) : (withChecksum bs s).draws = s.draws := by simp only [withChecksum]

/-! ## transportFailure -/

@[simp] theorem transportFailure_words (s : State) : (transportFailure s).words = s.words := by simp only [transportFailure]
@[simp] theorem transportFailure_rx (s : State) : (transportFailure s).rx = s.rx := by simp only [transportFailure]
@[simp] theorem transportFailure_out (s : State) : (transportFailure s).out = s.out := by simp only [transportFailure]
@[simp] theorem transportFailure_progress (s : State) : (transportFailure s).progress = s.progress := by simp only [transportFailure]
@[simp] theorem transportFailure_resets (s : State) : (transportFailure s).resets = s.resets := by simp only [transportFailure]
@[simp] theorem transportFailure_io (s : State) : (transportFailure s).io = s.io := by simp only [transportFailure]
@[simp] theorem transportFailure_ioRest (s : State) : (transportFailure s).ioRest = s.ioRest := by simp only [transportFailure]
@[simp] theorem transportFailure_sched (s : State) : (transportFailure s).sched = s.sched := by simp only [transportFailure]
@[simp] theorem transportFailure_cmdPtr (s : State) : (transportFailure s).cmdPtr = s.cmdPtr := by simp only [transportFailure]
@[simp] theorem transportFailure_phase (s : State) : (transportFailure s).phase = s.phase := by simp only [transportFailure]
@[simp] theorem transportFailure_micro (s : State) : (transportFailure s).micro = s.micro := by simp only [transportFailure]
@[simp] theorem transportFailure_clra (s : State) : (transportFailure s).clra = false := by simp only [transportFailure]
@[simp] theorem transportFailure_clrd (s : State) : (transportFailure s).clrd = false := by simp only [transportFailure]
@[simp] theorem transportFailure_ioerr (s : State) : (transportFailure s).ioerr = true := by simp only [transportFailure]
@[simp] theorem transportFailure_opc (s : State) : (transportFailure s).opc = s.opc := by simp only [transportFailure]
@[simp] theorem transportFailure_opa (s : State) : (transportFailure s).opa = s.opa := by simp only [transportFailure]
@[simp] theorem transportFailure_opb (s : State) : (transportFailure s).opb = s.opb := by simp only [transportFailure]
@[simp] theorem transportFailure_opd (s : State) : (transportFailure s).opd = s.opd := by simp only [transportFailure]
@[simp] theorem transportFailure_bc (s : State) : (transportFailure s).bc = s.bc := by simp only [transportFailure]
@[simp] theorem transportFailure_rt (s : State) : (transportFailure s).rt = s.rt := by simp only [transportFailure]
@[simp] theorem transportFailure_acc (s : State) : (transportFailure s).acc = s.acc := by simp only [transportFailure]
@[simp] theorem transportFailure_ckacc (s : State) : (transportFailure s).ckacc = s.ckacc := by simp only [transportFailure]
@[simp] theorem transportFailure_bitcnt (s : State) : (transportFailure s).bitcnt = s.bitcnt := by simp only [transportFailure]
@[simp] theorem transportFailure_idx (s : State) : (transportFailure s).idx = s.idx := by simp only [transportFailure]
@[simp] theorem transportFailure_pins (s : State) : (transportFailure s).pins = Pins.unknown := by simp only [transportFailure]
@[simp] theorem transportFailure_sa (s : State) : (transportFailure s).sa = allBot 16 := by simp only [transportFailure]
@[simp] theorem transportFailure_oa (s : State) : (transportFailure s).oa = allBot 16 := by simp only [transportFailure]
@[simp] theorem transportFailure_sd (s : State) : (transportFailure s).sd = allBot 24 := by simp only [transportFailure]
@[simp] theorem transportFailure_od (s : State) : (transportFailure s).od = allBot 24 := by simp only [transportFailure]
@[simp] theorem transportFailure_q (s : State) : (transportFailure s).q = allBot 24 := by simp only [transportFailure]
@[simp] theorem transportFailure_mem (s : State) : (transportFailure s).mem = Memory.unknown := by simp only [transportFailure]
@[simp] theorem transportFailure_draws (s : State) : (transportFailure s).draws = s.draws := by simp only [transportFailure]

/-! ## blockReset -/

@[simp] theorem blockReset_words (found : Val Byte) (s : State) : (blockReset found s).words = s.words := by simp only [blockReset]
@[simp] theorem blockReset_rx (found : Val Byte) (s : State) : (blockReset found s).rx = [] := by simp only [blockReset]
@[simp] theorem blockReset_out (found : Val Byte) (s : State) : (blockReset found s).out = s.out := by simp only [blockReset]
@[simp] theorem blockReset_progress (found : Val Byte) (s : State) : (blockReset found s).progress = s.progress := by simp only [blockReset]
@[simp] theorem blockReset_resets (found : Val Byte) (s : State) : (blockReset found s).resets = s.resets.tail := by simp only [blockReset]
@[simp] theorem blockReset_io (found : Val Byte) (s : State) : (blockReset found s).io = s.io := by simp only [blockReset]
@[simp] theorem blockReset_ioRest (found : Val Byte) (s : State) : (blockReset found s).ioRest = s.ioRest := by simp only [blockReset]
@[simp] theorem blockReset_sched (found : Val Byte) (s : State) : (blockReset found s).sched = s.sched := by simp only [blockReset]
@[simp] theorem blockReset_cmdPtr (found : Val Byte) (s : State) : (blockReset found s).cmdPtr = s.cmdPtr := by simp only [blockReset]
@[simp] theorem blockReset_phase (found : Val Byte) (s : State) : (blockReset found s).phase = .resetting := by simp only [blockReset]
@[simp] theorem blockReset_micro (found : Val Byte) (s : State) : (blockReset found s).micro = 0 := by simp only [blockReset]
@[simp] theorem blockReset_clra (found : Val Byte) (s : State) : (blockReset found s).clra = false := by simp only [blockReset]
@[simp] theorem blockReset_clrd (found : Val Byte) (s : State) : (blockReset found s).clrd = false := by simp only [blockReset]
@[simp] theorem blockReset_ioerr (found : Val Byte) (s : State) : (blockReset found s).ioerr = false := by simp only [blockReset]
@[simp] theorem blockReset_opc (found : Val Byte) (s : State) : (blockReset found s).opc = .bot := by simp only [blockReset]
@[simp] theorem blockReset_opa (found : Val Byte) (s : State) : (blockReset found s).opa = .bot := by simp only [blockReset]
@[simp] theorem blockReset_opb (found : Val Byte) (s : State) : (blockReset found s).opb = .bot := by simp only [blockReset]
@[simp] theorem blockReset_opd (found : Val Byte) (s : State) : (blockReset found s).opd = .bot := by simp only [blockReset]
@[simp] theorem blockReset_bc (found : Val Byte) (s : State) : (blockReset found s).bc = .bot := by simp only [blockReset]
@[simp] theorem blockReset_rt (found : Val Byte) (s : State) : (blockReset found s).rt = .bot := by simp only [blockReset]
@[simp] theorem blockReset_acc (found : Val Byte) (s : State) : (blockReset found s).acc = .bot := by simp only [blockReset]
@[simp] theorem blockReset_ckacc (found : Val Byte) (s : State) : (blockReset found s).ckacc = .bot := by simp only [blockReset]
@[simp] theorem blockReset_bitcnt (found : Val Byte) (s : State) : (blockReset found s).bitcnt = .bot := by simp only [blockReset]
@[simp] theorem blockReset_idx (found : Val Byte) (s : State) : (blockReset found s).idx = .bot := by simp only [blockReset]
@[simp] theorem blockReset_pins (found : Val Byte) (s : State) : (blockReset found s).pins = s.pins := by simp only [blockReset]
@[simp] theorem blockReset_sa (found : Val Byte) (s : State) : (blockReset found s).sa = allBot 16 := by simp only [blockReset]
@[simp] theorem blockReset_oa (found : Val Byte) (s : State) : (blockReset found s).oa = allBot 16 := by simp only [blockReset]
@[simp] theorem blockReset_sd (found : Val Byte) (s : State) : (blockReset found s).sd = allBot 24 := by simp only [blockReset]
@[simp] theorem blockReset_od (found : Val Byte) (s : State) : (blockReset found s).od = allBot 24 := by simp only [blockReset]
@[simp] theorem blockReset_q (found : Val Byte) (s : State) : (blockReset found s).q = allBot 24 := by simp only [blockReset]
@[simp] theorem blockReset_mem (found : Val Byte) (s : State) : (blockReset found s).mem = if resetHavocsSram found then Memory.unknown else s.mem := by simp only [blockReset]
@[simp] theorem blockReset_draws (found : Val Byte) (s : State) : (blockReset found s).draws = s.draws := by simp only [blockReset]

/-! ## consumeFrame -/

@[simp] theorem consumeFrame_words (k n : Nat) (s : State) : (consumeFrame k n s).words = (s.rx ++ s.words).drop n := by simp only [consumeFrame]
@[simp] theorem consumeFrame_rx (k n : Nat) (s : State) : (consumeFrame k n s).rx = [] := by simp only [consumeFrame]
@[simp] theorem consumeFrame_out (k n : Nat) (s : State) : (consumeFrame k n s).out = s.out := by simp only [consumeFrame]
@[simp] theorem consumeFrame_progress (k n : Nat) (s : State) : (consumeFrame k n s).progress = s.progress := by simp only [consumeFrame]
@[simp] theorem consumeFrame_resets (k n : Nat) (s : State) : (consumeFrame k n s).resets = countDown k s.resets := by simp only [consumeFrame]
@[simp] theorem consumeFrame_io (k n : Nat) (s : State) : (consumeFrame k n s).io = s.io := by simp only [consumeFrame]
@[simp] theorem consumeFrame_ioRest (k n : Nat) (s : State) : (consumeFrame k n s).ioRest = s.ioRest := by simp only [consumeFrame]
@[simp] theorem consumeFrame_sched (k n : Nat) (s : State) : (consumeFrame k n s).sched = s.sched := by simp only [consumeFrame]
@[simp] theorem consumeFrame_cmdPtr (k n : Nat) (s : State) : (consumeFrame k n s).cmdPtr = s.cmdPtr + n := by simp only [consumeFrame]
@[simp] theorem consumeFrame_phase (k n : Nat) (s : State) : (consumeFrame k n s).phase = .idle := by simp only [consumeFrame]
@[simp] theorem consumeFrame_micro (k n : Nat) (s : State) : (consumeFrame k n s).micro = s.micro := by simp only [consumeFrame]
@[simp] theorem consumeFrame_clra (k n : Nat) (s : State) : (consumeFrame k n s).clra = s.clra := by simp only [consumeFrame]
@[simp] theorem consumeFrame_clrd (k n : Nat) (s : State) : (consumeFrame k n s).clrd = s.clrd := by simp only [consumeFrame]
@[simp] theorem consumeFrame_ioerr (k n : Nat) (s : State) : (consumeFrame k n s).ioerr = s.ioerr := by simp only [consumeFrame]
@[simp] theorem consumeFrame_opc (k n : Nat) (s : State) : (consumeFrame k n s).opc = s.opc := by simp only [consumeFrame]
@[simp] theorem consumeFrame_opa (k n : Nat) (s : State) : (consumeFrame k n s).opa = s.opa := by simp only [consumeFrame]
@[simp] theorem consumeFrame_opb (k n : Nat) (s : State) : (consumeFrame k n s).opb = s.opb := by simp only [consumeFrame]
@[simp] theorem consumeFrame_opd (k n : Nat) (s : State) : (consumeFrame k n s).opd = s.opd := by simp only [consumeFrame]
@[simp] theorem consumeFrame_bc (k n : Nat) (s : State) : (consumeFrame k n s).bc = s.bc := by simp only [consumeFrame]
@[simp] theorem consumeFrame_rt (k n : Nat) (s : State) : (consumeFrame k n s).rt = s.rt := by simp only [consumeFrame]
@[simp] theorem consumeFrame_acc (k n : Nat) (s : State) : (consumeFrame k n s).acc = s.acc := by simp only [consumeFrame]
@[simp] theorem consumeFrame_ckacc (k n : Nat) (s : State) : (consumeFrame k n s).ckacc = s.ckacc := by simp only [consumeFrame]
@[simp] theorem consumeFrame_bitcnt (k n : Nat) (s : State) : (consumeFrame k n s).bitcnt = s.bitcnt := by simp only [consumeFrame]
@[simp] theorem consumeFrame_idx (k n : Nat) (s : State) : (consumeFrame k n s).idx = s.idx := by simp only [consumeFrame]
@[simp] theorem consumeFrame_pins (k n : Nat) (s : State) : (consumeFrame k n s).pins = s.pins := by simp only [consumeFrame]
@[simp] theorem consumeFrame_sa (k n : Nat) (s : State) : (consumeFrame k n s).sa = s.sa := by simp only [consumeFrame]
@[simp] theorem consumeFrame_oa (k n : Nat) (s : State) : (consumeFrame k n s).oa = s.oa := by simp only [consumeFrame]
@[simp] theorem consumeFrame_sd (k n : Nat) (s : State) : (consumeFrame k n s).sd = s.sd := by simp only [consumeFrame]
@[simp] theorem consumeFrame_od (k n : Nat) (s : State) : (consumeFrame k n s).od = s.od := by simp only [consumeFrame]
@[simp] theorem consumeFrame_q (k n : Nat) (s : State) : (consumeFrame k n s).q = s.q := by simp only [consumeFrame]
@[simp] theorem consumeFrame_mem (k n : Nat) (s : State) : (consumeFrame k n s).mem = s.mem := by simp only [consumeFrame]
@[simp] theorem consumeFrame_draws (k n : Nat) (s : State) : (consumeFrame k n s).draws = s.draws := by simp only [consumeFrame]

/-! ## ioUsed -/

@[simp] theorem ioUsed_words (s : State) : s.ioUsed.words = s.words := by unfold State.ioUsed; split <;> [rfl; (split <;> rfl)]
@[simp] theorem ioUsed_rx (s : State) : s.ioUsed.rx = s.rx := by unfold State.ioUsed; split <;> [rfl; (split <;> rfl)]
@[simp] theorem ioUsed_out (s : State) : s.ioUsed.out = s.out := by unfold State.ioUsed; split <;> [rfl; (split <;> rfl)]
@[simp] theorem ioUsed_progress (s : State) : s.ioUsed.progress = s.progress := by unfold State.ioUsed; split <;> [rfl; (split <;> rfl)]
@[simp] theorem ioUsed_resets (s : State) : s.ioUsed.resets = s.resets := by unfold State.ioUsed; split <;> [rfl; (split <;> rfl)]
@[simp] theorem ioUsed_ioRest (s : State) : s.ioUsed.ioRest = s.ioRest := by unfold State.ioUsed; split <;> [rfl; (split <;> rfl)]
@[simp] theorem ioUsed_sched (s : State) : s.ioUsed.sched = s.sched := by unfold State.ioUsed; split <;> [rfl; (split <;> rfl)]
@[simp] theorem ioUsed_cmdPtr (s : State) : s.ioUsed.cmdPtr = s.cmdPtr := by unfold State.ioUsed; split <;> [rfl; (split <;> rfl)]
@[simp] theorem ioUsed_phase (s : State) : s.ioUsed.phase = s.phase := by unfold State.ioUsed; split <;> [rfl; (split <;> rfl)]
@[simp] theorem ioUsed_micro (s : State) : s.ioUsed.micro = s.micro := by unfold State.ioUsed; split <;> [rfl; (split <;> rfl)]
@[simp] theorem ioUsed_clra (s : State) : s.ioUsed.clra = s.clra := by unfold State.ioUsed; split <;> [rfl; (split <;> rfl)]
@[simp] theorem ioUsed_clrd (s : State) : s.ioUsed.clrd = s.clrd := by unfold State.ioUsed; split <;> [rfl; (split <;> rfl)]
@[simp] theorem ioUsed_ioerr (s : State) : s.ioUsed.ioerr = s.ioerr := by unfold State.ioUsed; split <;> [rfl; (split <;> rfl)]
@[simp] theorem ioUsed_opc (s : State) : s.ioUsed.opc = s.opc := by unfold State.ioUsed; split <;> [rfl; (split <;> rfl)]
@[simp] theorem ioUsed_opa (s : State) : s.ioUsed.opa = s.opa := by unfold State.ioUsed; split <;> [rfl; (split <;> rfl)]
@[simp] theorem ioUsed_opb (s : State) : s.ioUsed.opb = s.opb := by unfold State.ioUsed; split <;> [rfl; (split <;> rfl)]
@[simp] theorem ioUsed_opd (s : State) : s.ioUsed.opd = s.opd := by unfold State.ioUsed; split <;> [rfl; (split <;> rfl)]
@[simp] theorem ioUsed_bc (s : State) : s.ioUsed.bc = s.bc := by unfold State.ioUsed; split <;> [rfl; (split <;> rfl)]
@[simp] theorem ioUsed_rt (s : State) : s.ioUsed.rt = s.rt := by unfold State.ioUsed; split <;> [rfl; (split <;> rfl)]
@[simp] theorem ioUsed_acc (s : State) : s.ioUsed.acc = s.acc := by unfold State.ioUsed; split <;> [rfl; (split <;> rfl)]
@[simp] theorem ioUsed_ckacc (s : State) : s.ioUsed.ckacc = s.ckacc := by unfold State.ioUsed; split <;> [rfl; (split <;> rfl)]
@[simp] theorem ioUsed_bitcnt (s : State) : s.ioUsed.bitcnt = s.bitcnt := by unfold State.ioUsed; split <;> [rfl; (split <;> rfl)]
@[simp] theorem ioUsed_idx (s : State) : s.ioUsed.idx = s.idx := by unfold State.ioUsed; split <;> [rfl; (split <;> rfl)]
@[simp] theorem ioUsed_pins (s : State) : s.ioUsed.pins = s.pins := by unfold State.ioUsed; split <;> [rfl; (split <;> rfl)]
@[simp] theorem ioUsed_sa (s : State) : s.ioUsed.sa = s.sa := by unfold State.ioUsed; split <;> [rfl; (split <;> rfl)]
@[simp] theorem ioUsed_oa (s : State) : s.ioUsed.oa = s.oa := by unfold State.ioUsed; split <;> [rfl; (split <;> rfl)]
@[simp] theorem ioUsed_sd (s : State) : s.ioUsed.sd = s.sd := by unfold State.ioUsed; split <;> [rfl; (split <;> rfl)]
@[simp] theorem ioUsed_od (s : State) : s.ioUsed.od = s.od := by unfold State.ioUsed; split <;> [rfl; (split <;> rfl)]
@[simp] theorem ioUsed_q (s : State) : s.ioUsed.q = s.q := by unfold State.ioUsed; split <;> [rfl; (split <;> rfl)]
@[simp] theorem ioUsed_mem (s : State) : s.ioUsed.mem = s.mem := by unfold State.ioUsed; split <;> [rfl; (split <;> rfl)]

end Sys2Proof.Machine
end

