-- ==== Sys2Proof/Laws/Run.lean ====
section
/-! SUPPORT. What a micro-operation, a micro-sequence and the two engines can do, each said once. -/

namespace Sys2Proof.Machine

/-! ## Pin levels -/

theorem Pins.get_set (p : Pins) (r r' : OutRole) (l : Level) :
    (p.set r l).get r' = if r' = r then l else p.get r' := by
  cases r <;> cases r' <;> rfl

@[simp] theorem Pins.get_set_same (p : Pins) (r : OutRole) (l : Level) : (p.set r l).get r = l := by
  simp [Pins.get_set]

theorem Pins.ext_get {p p' : Pins} (h : ∀ r, p.get r = p'.get r) : p = p' := by
  have h1 := h .aSer; have h2 := h .aSclk; have h3 := h .aRclk; have h4 := h .aClr
  have h5 := h .dSer; have h6 := h .dSclk; have h7 := h .dRclk; have h8 := h .dClr
  have h9 := h .rdLatch; have h10 := h .rdClk; have h11 := h .wrEn; have h12 := h .wrClk; have h13 := h .notify
  cases p; cases p'
  simp only [Pins.get] at *
  simp [*]

@[simp] theorem Pins.get_released (r : OutRole) : Pins.released.get r = .released := by cases r <;> rfl

@[simp] theorem Pins.get_unknown (r : OutRole) : Pins.unknown.get r = .bot := by cases r <;> rfl

@[simp] theorem driven_ne_bot (on : Bool) : driven on ≠ .bot := by cases on <;> decide

@[simp] theorem react_pins (r : OutRole) (s : State) : (react r s).pins = s.pins := by
  cases r <;> simp only [react, latchEdge]
  split
  · split <;> rfl
  · rfl

/-! ## Runs -/

section
variable {ε ε' α β : Type}

@[simp] theorem Run.bind_done (a : α) (s : State) (e : ε') (k : α → State → Run ε' β) :
    (Run.done a s : Run ε α).bind e k = k a s := rfl
@[simp] theorem Run.bind_failed (x : ε) (s : State) (e : ε') (k : α → State → Run ε' β) :
    (Run.failed x s : Run ε α).bind e k = .failed e s := rfl
@[simp] theorem Run.bind_hung (s : State) (e : ε') (k : α → State → Run ε' β) :
    (Run.hung s : Run ε α).bind e k = .hung s := rfl
@[simp] theorem Run.bind_cut (s : State) (e : ε') (k : α → State → Run ε' β) :
    (Run.cut s : Run ε α).bind e k = .cut s := rfl
@[simp] theorem Run.bind_fault (f : Fault) (e : ε') (k : α → State → Run ε' β) :
    (Run.fault f : Run ε α).bind e k = .fault f := rfl

theorem Run.bind_eq_done {r : Run ε α} {e : ε'} {k : α → State → Run ε' β} {b : β} {t : State} :
    r.bind e k = .done b t ↔ ∃ a s, r = .done a s ∧ k a s = .done b t := by
  cases r <;> simp

/-- Where a piece stops, the whole stops in a state that the piece or what follows it reached. -/
theorem Run.bind_state {r : Run ε α} {e : ε'} {k : α → State → Run ε' β} {t : State}
    (h : runState (r.bind e k) = some t) :
    runState r = some t ∨ ∃ a s, r = .done a s ∧ runState (k a s) = some t := by
  cases r with
  | done a s => exact .inr ⟨a, s, rfl, h⟩
  | failed e s => exact .inl h
  | hung s => exact .inl h
  | cut s => exact .inl h
  | fault f => cases h

end

@[simp] theorem runOps_nil (s : State) : runOps [] s = .done [] s := rfl

theorem runOps_cons (op : MicroOp) (ops : List MicroOp) (s : State) :
    runOps (op :: ops) s =
      (stepOp op s).bind () fun bs t => (runOps ops t).bind () fun cs u => .done (bs ++ cs) u := rfl

theorem runOps_append (xs ys : List MicroOp) (s : State) :
    runOps (xs ++ ys) s =
      (runOps xs s).bind () fun bs t => (runOps ys t).bind () fun cs u => .done (bs ++ cs) u := by
  induction xs generalizing s with
  | nil => simp only [List.nil_append, runOps_nil, Run.bind_done]; cases runOps ys s <;> simp
  | cons op xs ih =>
    simp only [List.cons_append, runOps_cons]
    cases stepOp op s with
    | done bs t =>
      simp only [Run.bind_done, ih]
      cases runOps xs t with
      | done cs u => simp only [Run.bind_done]; cases runOps ys u <;> simp
      | _ => rfl
    | _ => rfl

theorem runOps_cons_done {op : MicroOp} {ops : List MicroOp} {s t : State} {bs : List Bool} :
    runOps (op :: ops) s = .done bs t ↔
      ∃ b1 u b2, stepOp op s = .done b1 u ∧ runOps ops u = .done b2 t ∧ bs = b1 ++ b2 := by
  rw [runOps_cons, Run.bind_eq_done]
  constructor
  · rintro ⟨b1, u, h1, h⟩
    obtain ⟨b2, v, h2, h⟩ := Run.bind_eq_done.1 h
    cases h; exact ⟨b1, u, b2, h1, h2, rfl⟩
  · rintro ⟨b1, u, b2, h1, h2, rfl⟩
    exact ⟨b1, u, h1, by rw [h2]; rfl⟩

theorem runOps_append_done {xs ys : List MicroOp} {s t : State} {bs : List Bool} :
    runOps (xs ++ ys) s = .done bs t ↔
      ∃ b1 u b2, runOps xs s = .done b1 u ∧ runOps ys u = .done b2 t ∧ bs = b1 ++ b2 := by
  rw [runOps_append, Run.bind_eq_done]
  constructor
  · rintro ⟨b1, u, h1, h⟩
    obtain ⟨b2, v, h2, h⟩ := Run.bind_eq_done.1 h
    cases h; exact ⟨b1, u, b2, h1, h2, rfl⟩
  · rintro ⟨b1, u, b2, h1, h2, rfl⟩
    exact ⟨b1, u, h1, by rw [h2]; rfl⟩

/-! ## One micro-operation -/

/-- Everything a Drive of an output role can do (40_pin.md R101). -/
theorem drive_cases (r : OutRole) (on : Bool) (s : State) :
    (s.resetDue = true ∧ drive (.out r) on s = .cut s) ∨
    (s.resetDue = false ∧ s.tick.ioNow = .ok ∧ drive (.out r) on s = .done [] (driveOk r on s.tick.ioUsed)) ∨
    (s.resetDue = false ∧ s.tick.ioNow = .fail ∧
      drive (.out r) on s = .failed () (s.tick.ioUsed.withPins (s.pins.set r .bot))) ∨
    (s.resetDue = false ∧ s.tick.ioNow = .never ∧ drive (.out r) on s = .hung s.tick.ioUsed) := by
  unfold drive
  cases h : s.resetDue with
  | true => exact .inl ⟨rfl, by simp⟩
  | false => cases h' : s.tick.ioNow <;> simp

/-- Everything a Sample of `RD_SER` can do (40_pin.md R102). -/
theorem sample_cases (s : State) :
    (s.resetDue = true ∧ sample .rdSer s = .cut s) ∨
    (s.resetDue = false ∧ s.tick.ioNow = .ok ∧ sample .rdSer s = sampleOk s.tick.ioUsed) ∨
    (s.resetDue = false ∧ s.tick.ioNow = .fail ∧ sample .rdSer s = .failed () s.tick.ioUsed) ∨
    (s.resetDue = false ∧ s.tick.ioNow = .never ∧ sample .rdSer s = .hung s.tick.ioUsed) := by
  unfold sample
  cases h : s.resetDue with
  | true => exact .inl ⟨rfl, by simp⟩
  | false => cases h' : s.tick.ioNow <;> simp

theorem drive_done {r : OutRole} {on : Bool} {s t : State} {bs : List Bool}
    (h : drive (.out r) on s = .done bs t) :
    bs = [] ∧ s.resetDue = false ∧ s.tick.ioNow = .ok ∧ t = driveOk r on s.tick.ioUsed := by
  rcases drive_cases r on s with ⟨-, h'⟩ | ⟨h1, h2, h'⟩ | ⟨-, -, h'⟩ | ⟨-, -, h'⟩ <;> rw [h'] at h <;> cases h
  exact ⟨rfl, h1, h2, rfl⟩

theorem wait_done {s t : State} {bs : List Bool} (h : wait s = .done bs t) :
    bs = [] ∧ s.resetDue = false ∧ t = s.tick := by
  unfold wait at h
  split at h
  · cases h
  · rename_i h'; cases h; exact ⟨rfl, by simpa using h', rfl⟩

/-- A drive from a known level is an assert edge (10_state.md R29). -/
def rises (on : Bool) (l : Level) : Bool :=
  match on, l with
  | true, .released => true
  | true, .asserted => false
  | true, .bot => false
  | false, _ => false

/-- A completed Drive from a known level: the level changes, and an assert edge makes the device react
(10_state.md R29). -/
theorem driveOk_known {r : OutRole} {on : Bool} {s : State} (h : s.pins.get r ≠ .bot) :
    driveOk r on s =
      cond (rises on (s.pins.get r)) (react r (s.withPins (s.pins.set r (driven on))))
        (s.withPins (s.pins.set r (driven on))) := by
  unfold driveOk
  cases on with
  | false => simp [isEdge, edgeDrawn, rises]
  | true => cases h' : s.pins.get r <;> simp_all [isEdge, edgeDrawn, rises]

@[simp] theorem edgeDrawn_pins (l : Level) (on : Bool) (s : State) : (edgeDrawn l on s).pins = s.pins := by
  unfold edgeDrawn; split <;> rfl

/-- A completed Drive leaves every level but its own. -/
theorem driveOk_pins (r : OutRole) (on : Bool) (s : State) : (driveOk r on s).pins = s.pins.set r (driven on) := by
  unfold driveOk
  simp only [edgeDrawn_pins]
  split <;> simp

/-! ## What micro-operations leave unchanged -/

/-- What no micro-operation touches: everything but the levels, the devices, `BITCNT` and the inputs used up. -/
def sequencerPart (s : State) : State :=
  { s with
    micro := 0, resets := [], io := [], draws := 0, bitcnt := .bot
    pins := Pins.released, sa := allBot 16, oa := allBot 16, sd := allBot 24, od := allBot 24, q := allBot 24
    mem := Memory.unknown }

@[simp] theorem sequencerPart_tick (s : State) : sequencerPart s.tick = sequencerPart s := rfl

@[simp] theorem sequencerPart_drawn (s : State) : sequencerPart s.drawn = sequencerPart s := rfl

@[simp] theorem sequencerPart_ioUsed (s : State) : sequencerPart s.ioUsed = sequencerPart s := by
  simp [sequencerPart]

@[simp] theorem sequencerPart_withPins (s : State) (p : Pins) : sequencerPart (s.withPins p) = sequencerPart s := rfl

@[simp] theorem sequencerPart_react (r : OutRole) (s : State) : sequencerPart (react r s) = sequencerPart s := by
  cases r <;> simp only [react, latchEdge, sequencerPart]
  split
  · split <;> rfl
  · rfl

@[simp] theorem sequencerPart_driveOk (r : OutRole) (on : Bool) (s : State) :
    sequencerPart (driveOk r on s) = sequencerPart s := by
  have h : sequencerPart (edgeDrawn (s.pins.get r) on s) = sequencerPart s := by unfold edgeDrawn; split <;> simp
  unfold driveOk
  simp only
  split <;> simp [h]

theorem sampleOk_cases (s : State) :
    (∃ b, s.q[23] = .known b ∧ sampleOk s = .done [b] s) ∨
    (s.q[23] = .bot ∧ sampleOk s = .done [Config.freeBit s.draws] s.drawn) := by
  unfold sampleOk
  cases h : s.q[23] with
  | bot => exact .inr ⟨rfl, rfl⟩
  | known b => exact .inl ⟨b, rfl, rfl⟩

theorem stepOp_sequencerPart {op : MicroOp} {s t : State} (h : runState (stepOp op s) = some t) :
    sequencerPart t = sequencerPart s := by
  cases op with
  | bitcnt i => cases h; rfl
  | wait d =>
    simp only [stepOp, wait] at h
    split at h <;> cases h <;> rfl
  | drive r on =>
    cases r with
    | rdSer => cases h
    | out r =>
      rcases drive_cases r on s with ⟨-, h'⟩ | ⟨-, -, h'⟩ | ⟨-, -, h'⟩ | ⟨-, -, h'⟩ <;>
        simp only [stepOp, h', runState, Option.some.injEq] at h <;> subst h <;> simp
  | sample r =>
    cases r with
    | out r => cases h
    | rdSer =>
      rcases sample_cases s with ⟨-, h'⟩ | ⟨-, -, h'⟩ | ⟨-, -, h'⟩ | ⟨-, -, h'⟩ <;>
        simp only [stepOp, h', runState, Option.some.injEq] at h
      · subst h; rfl
      · rcases sampleOk_cases s.tick.ioUsed with ⟨b, -, h''⟩ | ⟨-, h''⟩ <;> rw [h''] at h <;>
          simp only [Option.some.injEq] at h <;> subst h <;> simp
      · subst h; simp
      · subst h; simp

theorem runOps_sequencerPart {ops : List MicroOp} {s t : State} (h : runState (runOps ops s) = some t) :
    sequencerPart t = sequencerPart s := by
  induction ops generalizing s with
  | nil => cases h; rfl
  | cons op ops ih =>
    rcases Run.bind_state h with h | ⟨bs, u, h1, h⟩
    · exact stepOp_sequencerPart h
    · have hu : sequencerPart u = sequencerPart s := stepOp_sequencerPart (by rw [h1]; rfl)
      rcases Run.bind_state h with h | ⟨cs, v, h2, h⟩
      · exact (ih h).trans hu
      · cases h; exact (ih (by rw [h2]; rfl)).trans hu

theorem runPar_sequencerPart {ops : List (Chain × MicroOp)} {ea ed : Engine} {s t : State}
    (h : runState (runPar ops ea ed s) = some t) : sequencerPart t = sequencerPart s := by
  induction ops generalizing s ea ed with
  | nil =>
    simp only [runPar, barrier] at h
    split at h
    · cases h; rfl
    · split at h <;> cases h <;> rfl
  | cons c ops ih =>
    obtain ⟨c, op⟩ := c
    cases c <;> simp only [runPar] at h <;> split at h
    all_goals first
      | exact ih h
      | (have H : ∀ u, runState (stepOp op s) = some u → sequencerPart u = sequencerPart s :=
          fun u hu => stepOp_sequencerPart hu
         split at h
         · rename_i hs; exact (ih h).trans (H _ (by rw [hs]; rfl))
         · rename_i hs; exact (ih h).trans (H _ (by rw [hs]; rfl))
         · rename_i hs; exact (ih h).trans (H _ (by rw [hs]; rfl))
         · rename_i hs; cases h; exact H _ (by rw [hs]; rfl)
         · cases h)

/-! ## The canonical form is kept -/

theorem wordOf_lt {n : Nat} (a : BitVec n) : a.toNat < 2 ^ n := a.isLt

theorem react_mem_wf {s : State} (r : OutRole) (h : Memory.wf s.mem) : Memory.wf (react r s).mem := by
  cases r <;> simp only [react, latchEdge] <;> first | exact h | skip
  · split
    · split <;> exact h
    · exact h
  · exact Memory.wf_writeEdge h _ _ _

@[simp] theorem edgeDrawn_mem (l : Level) (on : Bool) (s : State) : (edgeDrawn l on s).mem = s.mem := by
  unfold edgeDrawn; split <;> rfl

theorem driveOk_mem_wf {s : State} (r : OutRole) (on : Bool) (h : Memory.wf s.mem) :
    Memory.wf (driveOk r on s).mem := by
  unfold driveOk
  simp only
  split
  · exact react_mem_wf r (by simpa using h)
  · simpa using h

theorem stepOp_mem_wf {op : MicroOp} {s t : State} (hm : Memory.wf s.mem)
    (h : runState (stepOp op s) = some t) : Memory.wf t.mem := by
  cases op with
  | bitcnt i => cases h; exact hm
  | wait d =>
    simp only [stepOp, wait] at h
    split at h <;> cases h <;> exact hm
  | drive r on =>
    cases r with
    | rdSer => cases h
    | out r =>
      rcases drive_cases r on s with ⟨-, h'⟩ | ⟨-, -, h'⟩ | ⟨-, -, h'⟩ | ⟨-, -, h'⟩ <;>
        simp only [stepOp, h', runState, Option.some.injEq] at h <;> subst h
      · exact hm
      · exact driveOk_mem_wf r on (by simpa using hm)
      · simpa using hm
      · simpa using hm
  | sample r =>
    cases r with
    | out r => cases h
    | rdSer =>
      rcases sample_cases s with ⟨-, h'⟩ | ⟨-, -, h'⟩ | ⟨-, -, h'⟩ | ⟨-, -, h'⟩ <;>
        simp only [stepOp, h', runState, Option.some.injEq] at h
      · subst h; exact hm
      · rcases sampleOk_cases s.tick.ioUsed with ⟨b, -, h''⟩ | ⟨-, h''⟩ <;> rw [h''] at h <;>
          simp only [Option.some.injEq] at h <;> subst h <;> simpa using hm
      · subst h; simpa using hm
      · subst h; simpa using hm

theorem runOps_mem_wf {ops : List MicroOp} {s t : State} (hm : Memory.wf s.mem)
    (h : runState (runOps ops s) = some t) : Memory.wf t.mem := by
  induction ops generalizing s with
  | nil => cases h; exact hm
  | cons op ops ih =>
    rcases Run.bind_state h with h | ⟨bs, u, h1, h⟩
    · exact stepOp_mem_wf hm h
    · have hu := stepOp_mem_wf (op := op) (t := u) hm (by rw [h1]; rfl)
      rcases Run.bind_state h with h | ⟨cs, v, h2, h⟩
      · exact ih hu h
      · cases h; exact ih hu (by rw [h2]; rfl)

/-- The two engines' interleaved steps, as a run of steps from a state with a property each step keeps. -/
theorem runPar_keeps {P : State → Prop}
    (hstep : ∀ op s t, P s → runState (stepOp op s) = some t → P t)
    {ops : List (Chain × MicroOp)} {ea ed : Engine} {s t : State} (hs : P s)
    (h : runState (runPar ops ea ed s) = some t) : P t := by
  induction ops generalizing s ea ed with
  | nil =>
    simp only [runPar, barrier] at h
    split at h
    · cases h; exact hs
    · split at h <;> cases h <;> exact hs
  | cons c ops ih =>
    obtain ⟨c, op⟩ := c
    cases c <;> simp only [runPar] at h <;> split at h
    all_goals first
      | exact ih hs h
      | (split at h
         · rename_i h'; exact ih (hstep op s _ hs (by rw [h']; rfl)) h
         · rename_i h'; exact ih (hstep op s _ hs (by rw [h']; rfl)) h
         · rename_i h'; exact ih (hstep op s _ hs (by rw [h']; rfl)) h
         · rename_i h'; cases h; exact hstep op s _ hs (by rw [h']; rfl)
         · cases h)

end Sys2Proof.Machine
end

