-- ==== Sys2Proof/Laws/Device.lean ====
section
/-! SUPPORT. The effect of completed micro-operations on the pins and devices, as a pure function of the state; the two engines' steps commute, so the interleaving does not matter (43_memory_driver.md R142). -/

namespace Sys2Proof.Machine

/-- The state without the inputs used up, the free values used up, the micro-step and `BITCNT`. -/
def devicePart (s : State) : State := { s with micro := 0, resets := [], io := [], draws := 0, bitcnt := .bot }

/-- What a completed micro-operation does to pins and devices, from known levels. -/
def devStep (op : MicroOp) (s : State) : State :=
  match op with
  | .drive (.out r) on =>
    cond (rises on (s.pins.get r)) (react r (s.withPins (s.pins.set r (driven on))))
      (s.withPins (s.pins.set r (driven on)))
  | .drive .rdSer _ => s
  | .bitcnt _ => s
  | .sample _ => s
  | .wait _ => s

/-- The micro-operations whose effect draws no free value from known levels: all but the PISO load and the Sample. -/
def plainOp : MicroOp → Bool
  | .drive (.out .rdLatch) true => false
  | .drive (.out _) _ => true
  | .drive .rdSer _ => false
  | .sample _ => false
  | .bitcnt _ => true
  | .wait _ => true

/-- No output level is unknown. -/
def LevelsKnown (s : State) : Prop := ∀ r, s.pins.get r ≠ .bot

theorem levelsKnown_of_quiet {s : State} (h : Quiet s) : LevelsKnown s := by
  intro r; rw [h]; simp

theorem levelsKnown_devStep {op : MicroOp} {s : State} (h : LevelsKnown s) : LevelsKnown (devStep op s) := by
  intro r
  unfold devStep
  split <;> try exact h r
  cases rises _ _ <;> simp only [cond_true, cond_false, react_pins, withPins_pins, Pins.get_set] <;> split <;>
    simp [h r]

theorem levelsKnown_foldl {ops : List MicroOp} {s : State} (h : LevelsKnown s) :
    LevelsKnown (ops.foldl (fun s op => devStep op s) s) := by
  induction ops generalizing s with
  | nil => exact h
  | cons op ops ih => exact ih (levelsKnown_devStep h)

@[simp] theorem devicePart_pins (s : State) : (devicePart s).pins = s.pins := rfl

theorem levelsKnown_devicePart {s : State} : LevelsKnown (devicePart s) ↔ LevelsKnown s := Iff.rfl

@[simp] theorem devicePart_tick (s : State) : devicePart s.tick = devicePart s := rfl

@[simp] theorem devicePart_drawn (s : State) : devicePart s.drawn = devicePart s := rfl

@[simp] theorem devicePart_ioUsed (s : State) : devicePart s.ioUsed = devicePart s := by simp [devicePart]

@[simp] theorem devicePart_idem (s : State) : devicePart (devicePart s) = devicePart s := rfl

theorem devicePart_withPins (s : State) (p : Pins) : devicePart (s.withPins p) = (devicePart s).withPins p := rfl

/-- A reaction other than the PISO load sees nothing that `devicePart` leaves out. -/
theorem devicePart_react {r : OutRole} (h : r ≠ .rdLatch) (s : State) :
    devicePart (react r s) = react r (devicePart s) := by
  cases r <;> first | exact absurd rfl h | simp only [react, devicePart]

theorem devicePart_driveOk {r : OutRole} {on : Bool} {s : State} (h : LevelsKnown s)
    (hp : plainOp (.drive (.out r) on) = true) :
    devicePart (driveOk r on s) = devStep (.drive (.out r) on) (devicePart s) := by
  rw [driveOk_known (h r)]
  simp only [devStep, devicePart_pins]
  cases hc : rises on (s.pins.get r) with
  | false => rfl
  | true =>
    simp only [cond_true]
    rw [devicePart_react, devicePart_withPins]
    rintro rfl
    cases on
    · simp [rises] at hc
    · cases hp

/-- One completed plain micro-operation. -/
theorem stepOp_device {op : MicroOp} {s t : State} {bs : List Bool} (hk : LevelsKnown s) (hp : plainOp op = true)
    (h : stepOp op s = .done bs t) : bs = [] ∧ devicePart t = devStep op (devicePart s) := by
  cases op with
  | bitcnt i => cases h; exact ⟨rfl, rfl⟩
  | wait d => obtain ⟨rfl, -, rfl⟩ := wait_done h; exact ⟨rfl, rfl⟩
  | sample r => cases hp
  | drive r on =>
    cases r with
    | rdSer => cases hp
    | out r =>
      obtain ⟨rfl, -, -, rfl⟩ := drive_done h
      have hk' : LevelsKnown s.tick.ioUsed := by intro r; simpa using hk r
      refine ⟨rfl, ?_⟩
      rw [devicePart_driveOk hk' hp]; simp

/-- A completed sequence of plain micro-operations. -/
theorem runOps_device {ops : List MicroOp} {s t : State} {bs : List Bool} (hk : LevelsKnown s)
    (hp : ∀ op ∈ ops, plainOp op = true) (h : runOps ops s = .done bs t) :
    bs = [] ∧ devicePart t = ops.foldl (fun s op => devStep op s) (devicePart s) := by
  induction ops generalizing s bs with
  | nil => cases h; exact ⟨rfl, rfl⟩
  | cons op ops ih =>
    obtain ⟨b1, u, b2, h1, h2, rfl⟩ := runOps_cons_done.1 h
    obtain ⟨rfl, hu⟩ := stepOp_device hk (hp op List.mem_cons_self) h1
    have hku : LevelsKnown u := by
      rw [← levelsKnown_devicePart, hu]; exact levelsKnown_devStep hk
    obtain ⟨rfl, ht⟩ := ih hku (fun o ho => hp o (List.mem_cons_of_mem _ ho)) h2
    exact ⟨rfl, by rw [ht, hu]; rfl⟩

/-! ## The two engines commute -/

/-- The micro-operations of a chain's engine (41_shift_chain.md R111). -/
def engineOp (c : Chain) : MicroOp → Bool
  | .drive (.out r) _ => r == serRole c || r == sclkRole c || r == rclkRole c
  | .drive .rdSer _ => false
  | .sample _ => false
  | .bitcnt _ => true
  | .wait _ => true

theorem plainOp_of_engineOp {c : Chain} {op : MicroOp} (h : engineOp c op = true) : plainOp op = true := by
  cases op with
  | bitcnt i => rfl
  | wait d => rfl
  | sample r => cases h
  | drive r on =>
    cases r with
    | rdSer => cases h
    | out r => cases c <;> cases r <;> cases on <;> first | rfl | cases h

/-- What one chain engine's steps read and write. -/
structure ChainView (n : Nat) where
  ser : Level
  sclk : Level
  rclk : Level
  clr : Level
  stages : Bits n
  outs : Bits n

def addrView (s : State) : ChainView 16 := ⟨s.pins.aSer, s.pins.aSclk, s.pins.aRclk, s.pins.aClr, s.sa, s.oa⟩

def dataView (s : State) : ChainView 24 := ⟨s.pins.dSer, s.pins.dSclk, s.pins.dRclk, s.pins.dClr, s.sd, s.od⟩

def putAddr (v : ChainView 16) (s : State) : State :=
  { s with pins := { s.pins with aSer := v.ser, aSclk := v.sclk, aRclk := v.rclk }, sa := v.stages, oa := v.outs }

def putData (v : ChainView 24) (s : State) : State :=
  { s with pins := { s.pins with dSer := v.ser, dSclk := v.sclk, dRclk := v.rclk }, sd := v.stages, od := v.outs }

/-- One engine step on its chain. -/
def viewStep {n : Nat} (c : Chain) (op : MicroOp) (v : ChainView n) : ChainView n :=
  match op with
  | .drive (.out r) on =>
    if r = serRole c then { v with ser := driven on }
    else if r = sclkRole c then
      { v with
        sclk := driven on
        stages := cond (rises on v.sclk) (clocked v.clr (shiftIn v.stages (physicalLevel (serRole c) v.ser))) v.stages }
    else if r = rclkRole c then
      { v with rclk := driven on, outs := cond (rises on v.rclk) (clocked v.clr v.stages) v.outs }
    else v
  | .drive .rdSer _ => v
  | .bitcnt _ => v
  | .sample _ => v
  | .wait _ => v

theorem devStep_addr {op : MicroOp} (h : engineOp .addr op = true) (s : State) :
    devStep op s = putAddr (viewStep .addr op (addrView s)) s := by
  cases op with
  | bitcnt i => rfl
  | wait d => rfl
  | sample r => cases h
  | drive r on =>
    cases r with
    | rdSer => cases h
    | out r =>
      cases r <;> cases h
      · cases on <;> cases hl : s.pins.aSer <;>
          simp [devStep, viewStep, Pins.get, Pins.set, serRole, rises, hl, react, State.withPins, putAddr, addrView]
      · cases on <;> cases hl : s.pins.aSclk <;>
          simp [devStep, viewStep, Pins.get, Pins.set, serRole, sclkRole, rises, hl, react, State.withPins, putAddr,
            addrView]
      · cases on <;> cases hl : s.pins.aRclk <;>
          simp [devStep, viewStep, Pins.get, Pins.set, serRole, sclkRole, rclkRole, rises, hl, react, State.withPins,
            putAddr, addrView]

theorem devStep_data {op : MicroOp} (h : engineOp .data op = true) (s : State) :
    devStep op s = putData (viewStep .data op (dataView s)) s := by
  cases op with
  | bitcnt i => rfl
  | wait d => rfl
  | sample r => cases h
  | drive r on =>
    cases r with
    | rdSer => cases h
    | out r =>
      cases r <;> cases h
      · cases on <;> cases hl : s.pins.dSer <;>
          simp [devStep, viewStep, Pins.get, Pins.set, serRole, rises, hl, react, State.withPins, putData, dataView]
      · cases on <;> cases hl : s.pins.dSclk <;>
          simp [devStep, viewStep, Pins.get, Pins.set, serRole, sclkRole, rises, hl, react, State.withPins, putData,
            dataView]
      · cases on <;> cases hl : s.pins.dRclk <;>
          simp [devStep, viewStep, Pins.get, Pins.set, serRole, sclkRole, rclkRole, rises, hl, react, State.withPins,
            putData, dataView]

theorem devStep_comm {opa opd : MicroOp} (ha : engineOp .addr opa = true) (hd : engineOp .data opd = true)
    (s : State) : devStep opa (devStep opd s) = devStep opd (devStep opa s) := by
  rw [devStep_addr ha, devStep_data hd, devStep_addr ha, devStep_data hd]
  rfl

theorem foldl_devStep_comm {opa : MicroOp} (ha : engineOp .addr opa = true) {ds : List MicroOp}
    (hd : ∀ op ∈ ds, engineOp .data op = true) (s : State) :
    ds.foldl (fun s op => devStep op s) (devStep opa s) = devStep opa (ds.foldl (fun s op => devStep op s) s) := by
  induction ds generalizing s with
  | nil => rfl
  | cons d ds ih =>
    simp only [List.foldl_cons]
    rw [← devStep_comm ha (hd d List.mem_cons_self), ih (fun o ho => hd o (List.mem_cons_of_mem _ ho))]

/-- The steps of one engine in an interleaving. -/
def stepsOf (c : Chain) (ops : List (Chain × MicroOp)) : List MicroOp :=
  (ops.filter fun p => p.1 == c).map Prod.snd

theorem stepsOf_interleave (sc : List Chain) (as ds : List MicroOp) :
    stepsOf .addr (interleave sc as ds) = as ∧ stepsOf .data (interleave sc as ds) = ds := by
  have e1 : ∀ (l : List MicroOp), stepsOf .addr (l.map (Prod.mk .addr)) = l := by
    intro l; induction l with
    | nil => rfl
    | cons a l ih => simpa [stepsOf] using ih
  have e2 : ∀ (l : List MicroOp), stepsOf .data (l.map (Prod.mk .data)) = l := by
    intro l; induction l with
    | nil => rfl
    | cons a l ih => simpa [stepsOf] using ih
  have e3 : ∀ (l : List MicroOp), stepsOf .addr (l.map (Prod.mk .data)) = [] := by
    intro l; induction l with
    | nil => rfl
    | cons a l ih => simp [stepsOf]
  have e4 : ∀ (l : List MicroOp), stepsOf .data (l.map (Prod.mk .addr)) = [] := by
    intro l; induction l with
    | nil => rfl
    | cons a l ih => simp [stepsOf]
  have e5 : ∀ c (xs ys : List (Chain × MicroOp)), stepsOf c (xs ++ ys) = stepsOf c xs ++ stepsOf c ys := by
    intro c xs ys; simp [stepsOf]
  induction sc generalizing as ds with
  | nil => simp only [interleave, e5, e1, e2, e3, e4]; simp
  | cons c sc ih =>
    cases c with
    | addr =>
      cases as with
      | nil => exact ih [] ds
      | cons a as =>
        refine ⟨?_, ?_⟩
        · simpa [interleave, stepsOf] using (ih as ds).1
        · simpa [interleave, stepsOf] using (ih as ds).2
    | data =>
      cases ds with
      | nil => exact ih as []
      | cons d ds =>
        refine ⟨?_, ?_⟩
        · simpa [interleave, stepsOf] using (ih as ds).1
        · simpa [interleave, stepsOf] using (ih as ds).2

theorem mem_stepsOf {c : Chain} {op : MicroOp} {ops : List (Chain × MicroOp)} (h : (c, op) ∈ ops) :
    op ∈ stepsOf c ops := by
  simp only [stepsOf, List.mem_map, List.mem_filter]
  exact ⟨(c, op), ⟨h, by simp⟩, rfl⟩

/-- Only two engines that both ran to their end pass the barrier. -/
theorem runPar_running {ops : List (Chain × MicroOp)} {ea ed : Engine} {s t : State} {bs : List Bool}
    (h : runPar ops ea ed s = .done bs t) : ea = .running ∧ ed = .running := by
  induction ops generalizing s ea ed with
  | nil =>
    simp only [runPar, barrier] at h
    cases ea <;> cases ed <;> simp_all
  | cons c ops ih =>
    obtain ⟨c, op⟩ := c
    cases c <;> simp only [runPar] at h <;> split at h
    · rename_i he
      split at h <;> first | (have := ih h; simp_all) | cases h
    · exact ih h
    · rename_i he
      split at h <;> first | (have := ih h; simp_all) | cases h
    · exact ih h

/-- Both engines' completed steps have the effect of the address engine's, then the data engine's, whatever
the interleaving. -/
theorem runPar_device {ops : List (Chain × MicroOp)} {s t : State} {bs : List Bool} (hk : LevelsKnown s)
    (hp : ∀ p ∈ ops, engineOp p.1 p.2 = true) (h : runPar ops .running .running s = .done bs t) :
    bs = [] ∧
      devicePart t =
        (stepsOf .data ops).foldl (fun s op => devStep op s)
          ((stepsOf .addr ops).foldl (fun s op => devStep op s) (devicePart s)) := by
  induction ops generalizing s bs with
  | nil => cases h; exact ⟨rfl, rfl⟩
  | cons p ops ih =>
    obtain ⟨c, op⟩ := p
    have hop : engineOp c op = true := hp _ List.mem_cons_self
    have hrest : ∀ p ∈ ops, engineOp p.1 p.2 = true := fun p hm => hp p (List.mem_cons_of_mem _ hm)
    have key : ∃ b u, stepOp op s = .done b u ∧ runPar ops .running .running u = .done bs t := by
      cases c <;> simp only [runPar, if_true] at h <;> split at h <;> rename_i hs
      all_goals first
        | exact ⟨_, _, hs, h⟩
        | (have := runPar_running h; simp_all)
        | cases h
    obtain ⟨b, u, h1, h2⟩ := key
    obtain ⟨rfl, hu⟩ := stepOp_device hk (plainOp_of_engineOp hop) h1
    have hku : LevelsKnown u := by
      rw [← levelsKnown_devicePart, hu]; exact levelsKnown_devStep hk
    obtain ⟨rfl, ht⟩ := ih hku hrest h2
    refine ⟨rfl, ?_⟩
    rw [ht, hu]
    cases c with
    | addr => simp [stepsOf]
    | data =>
      have e1 : stepsOf .addr ((Chain.data, op) :: ops) = stepsOf .addr ops := by simp [stepsOf]
      have e2 : stepsOf .data ((Chain.data, op) :: ops) = op :: stepsOf .data ops := by simp [stepsOf]
      rw [e1, e2, List.foldl_cons]
      congr 1
      have hA : ∀ o ∈ stepsOf .addr ops, engineOp .addr o = true := by
        intro o ho
        simp only [stepsOf, List.mem_map, List.mem_filter] at ho
        obtain ⟨⟨c', o'⟩, ⟨hm, hc⟩, rfl⟩ := ho
        have : c' = .addr := by simpa using hc
        subst this; exact hrest _ hm
      generalize stepsOf .addr ops = as at hA
      generalize devicePart s = d
      clear * - hA hop
      induction as generalizing d with
      | nil => rfl
      | cons a as ih =>
        simp only [List.foldl_cons]
        rw [devStep_comm (hA a List.mem_cons_self) hop, ih (fun o ho => hA o (List.mem_cons_of_mem _ ho))]

end Sys2Proof.Machine
end

