-- ==== Sys2Proof/Laws/Shift.lean ====
section
/-! SUPPORT. The effect of the micro-sequences on pins and devices when they run to their end (41_shift_chain.md R112, 43_memory_driver.md R144 and R146). -/

namespace Sys2Proof.Machine

/-- The fold of the completed micro-operations' effects. -/
def devRun (ops : List MicroOp) (s : State) : State := ops.foldl (fun s op => devStep op s) s

/-- The same on one chain. -/
def viewRun {n : Nat} (c : Chain) (ops : List MicroOp) (v : ChainView n) : ChainView n :=
  ops.foldl (fun v op => viewStep c op v) v

theorem devRun_append (xs ys : List MicroOp) (s : State) : devRun (xs ++ ys) s = devRun ys (devRun xs s) := by
  simp [devRun]

theorem viewRun_append {n : Nat} (c : Chain) (xs ys : List MicroOp) (v : ChainView n) :
    viewRun c (xs ++ ys) v = viewRun c ys (viewRun c xs v) := by
  simp [viewRun]

@[simp] theorem viewStep_clr {n : Nat} (c : Chain) (op : MicroOp) (v : ChainView n) : (viewStep c op v).clr = v.clr := by
  unfold viewStep
  split
  · split_ifs <;> rfl
  all_goals rfl

theorem viewRun_clr {n : Nat} (c : Chain) (ops : List MicroOp) (v : ChainView n) : (viewRun c ops v).clr = v.clr := by
  induction ops generalizing v with
  | nil => rfl
  | cons op ops ih => exact (ih _).trans (viewStep_clr c op v)

theorem devRun_addr {ops : List MicroOp} (h : ∀ op ∈ ops, engineOp .addr op = true) (s : State) :
    devRun ops s = putAddr (viewRun .addr ops (addrView s)) s := by
  induction ops generalizing s with
  | nil => rfl
  | cons op ops ih =>
    have e : addrView (devStep op s) = viewStep .addr op (addrView s) := by
      rw [devStep_addr (h op List.mem_cons_self)]
      have := viewStep_clr .addr op (addrView s)
      generalize viewStep .addr op (addrView s) = v at this
      cases v; simp only [addrView, putAddr] at *; simp [this]
    calc devRun (op :: ops) s = devRun ops (devStep op s) := rfl
      _ = putAddr (viewRun .addr ops (viewStep .addr op (addrView s))) (devStep op s) := by
        rw [ih (fun o ho => h o (List.mem_cons_of_mem _ ho)), e]
      _ = putAddr (viewRun .addr (op :: ops) (addrView s)) s := by
        rw [devStep_addr (h op List.mem_cons_self)]; rfl

theorem devRun_data {ops : List MicroOp} (h : ∀ op ∈ ops, engineOp .data op = true) (s : State) :
    devRun ops s = putData (viewRun .data ops (dataView s)) s := by
  induction ops generalizing s with
  | nil => rfl
  | cons op ops ih =>
    have e : dataView (devStep op s) = viewStep .data op (dataView s) := by
      rw [devStep_data (h op List.mem_cons_self)]
      have := viewStep_clr .data op (dataView s)
      generalize viewStep .data op (dataView s) = v at this
      cases v; simp only [dataView, putData] at *; simp [this]
    calc devRun (op :: ops) s = devRun ops (devStep op s) := rfl
      _ = putData (viewRun .data ops (viewStep .data op (dataView s))) (devStep op s) := by
        rw [ih (fun o ho => h o (List.mem_cons_of_mem _ ho)), e]
      _ = putData (viewRun .data (op :: ops) (dataView s)) s := by
        rw [devStep_data (h op List.mem_cons_self)]; rfl

/-! ## Shift -/

theorem engineOp_shiftBit (c : Chain) (i : Nat) (b : Bool) : ∀ op ∈ shiftBitOps c i b, engineOp c op = true := by
  intro op h
  simp only [shiftBitOps, pulseOps, List.mem_cons, List.not_mem_nil, or_false] at h
  rcases h with rfl | rfl | rfl | rfl | rfl | rfl <;> cases c <;> rfl

theorem engineOp_shiftLoop (c : Chain) (i : Nat) (bs : List Bool) :
    ∀ op ∈ shiftLoopOps c i bs, engineOp c op = true := by
  induction bs generalizing i with
  | nil => simp [shiftLoopOps]
  | cons b bs ih =>
    intro op h
    rcases List.mem_append.1 h with h | h
    · exact engineOp_shiftBit c i b op h
    · exact ih (i + 1) op h

theorem engineOp_shift {n : Nat} (c : Chain) (v : BitVec n) : ∀ op ∈ shiftOps c v, engineOp c op = true := by
  intro op h
  rcases List.mem_append.1 h with h | h
  · exact engineOp_shiftLoop c 0 _ op h
  · simp only [shiftEndOps, pulseOps, List.mem_append, List.mem_cons, List.not_mem_nil, or_false] at h
    rcases h with (rfl | rfl | rfl) | rfl <;> cases c <;> rfl

theorem physicalLevel_ser (c : Chain) (b : Bool) : physicalLevel (serRole c) (driven b) = .known b := by
  cases c <;> cases b <;> rfl

/-- The effect of one turn of the loop of `Shift` (41_shift_chain.md R111). -/
theorem viewRun_shiftBit {n : Nat} (c : Chain) (i : Nat) (b : Bool) {v : ChainView n} (h1 : v.sclk = .released)
    (h2 : v.clr = .released) :
    viewRun c (shiftBitOps c i b) v = { v with ser := driven b, stages := shiftIn v.stages (.known b) } := by
  obtain ⟨ser, sclk, rclk, clr, stages, outs⟩ := v
  simp only at h1 h2
  subst h1 h2
  cases c <;> cases b <;>
    simp [viewRun, shiftBitOps, pulseOps, viewStep, serRole, sclkRole, rises, driven, clocked, physicalLevel,
      Config.assertLvl, Config.releaseLvl, Config.Parameters.assertLvl, Config.Parameters.releaseLvl]

theorem viewRun_shiftLoop {n : Nat} (c : Chain) (i : Nat) (bs : List Bool) {v : ChainView n}
    (h1 : v.sclk = .released) (h2 : v.clr = .released) :
    (viewRun c (shiftLoopOps c i bs) v).stages = bs.foldl (fun w b => shiftIn w (.known b)) v.stages ∧
      (viewRun c (shiftLoopOps c i bs) v).sclk = .released ∧ (viewRun c (shiftLoopOps c i bs) v).rclk = v.rclk ∧
      (viewRun c (shiftLoopOps c i bs) v).outs = v.outs := by
  induction bs generalizing i v with
  | nil => exact ⟨rfl, h1, rfl, rfl⟩
  | cons b bs ih =>
    have e : viewRun c (shiftLoopOps c i (b :: bs)) v =
        viewRun c (shiftLoopOps c (i + 1) bs) { v with ser := driven b, stages := shiftIn v.stages (.known b) } := by
      rw [shiftLoopOps, viewRun_append, viewRun_shiftBit c i b h1 h2]
    rw [e]
    exact ih (i + 1) (v := { v with ser := driven b, stages := shiftIn v.stages (.known b) }) h1 h2

@[simp] theorem length_bitList {n : Nat} (w : BitVec n) : (bitList w).length = n := by simp [bitList]

@[simp] theorem getElem_bitList {n : Nat} (w : BitVec n) {k : Nat} (h : k < (bitList w).length) :
    (bitList w)[k] = w[k]'(by simpa using h) := by
  simp [bitList]

theorem foldl_shiftIn_bitList {n : Nat} (w : BitVec n) (v : Bits n) :
    (bitList w).foldl (fun v b => shiftIn v (.known b)) v = bitsOf w := by
  apply Vector.ext
  intro k hk
  rw [foldl_shiftIn_full v (bitList w) (length_bitList w) hk]
  simp

/-- The effect of `Shift` on its chain (41_shift_chain.md R112). -/
theorem viewRun_shift {n : Nat} (c : Chain) (w : BitVec n) {v : ChainView n} (h1 : v.sclk = .released)
    (h2 : v.rclk = .released) (h3 : v.clr = .released) :
    viewRun c (shiftOps c w) v = ⟨.released, .released, .released, .released, bitsOf w, bitsOf w⟩ := by
  obtain ⟨hs, hk, hr, -⟩ := viewRun_shiftLoop c 0 (bitList w) h1 h3
  have hc := viewRun_clr c (shiftLoopOps c 0 (bitList w)) v
  rw [foldl_shiftIn_bitList] at hs
  rw [shiftOps, viewRun_append]
  generalize viewRun c (shiftLoopOps c 0 (bitList w)) v = u at hs hk hr hc
  obtain ⟨ser, sclk, rclk, clr, stages, outs⟩ := u
  simp only at hs hk hr hc
  subst hs hk hr hc
  cases c <;>
    simp [viewRun, shiftEndOps, pulseOps, viewStep, serRole, sclkRole, rclkRole, rises, driven, clocked, h2, h3]

theorem devRun_shift_addr (a : Addr) {s : State} (h : Quiet s) :
    devRun (shiftOps .addr a) s = addrHolds a s := by
  have h' : s.pins = Pins.released := h
  have hv : viewRun .addr (shiftOps .addr a) (addrView s) =
      ⟨.released, .released, .released, .released, bitsOf a, bitsOf a⟩ :=
    viewRun_shift .addr a (by rw [addrView, h']; rfl) (by rw [addrView, h']; rfl) (by rw [addrView, h']; rfl)
  rw [devRun_addr (engineOp_shift .addr a), hv]
  obtain ⟨⟩ := s
  simp only at h'
  subst h'
  rfl

theorem devRun_shift_data (d : Data) {s : State} (h : Quiet s) :
    devRun (shiftOps .data d) s = dataHolds d s := by
  have h' : s.pins = Pins.released := h
  have hv : viewRun .data (shiftOps .data d) (dataView s) =
      ⟨.released, .released, .released, .released, bitsOf d, bitsOf d⟩ :=
    viewRun_shift .data d (by rw [dataView, h']; rfl) (by rw [dataView, h']; rfl) (by rw [dataView, h']; rfl)
  rw [devRun_data (engineOp_shift .data d), hv]
  obtain ⟨⟩ := s
  simp only at h'
  subst h'
  rfl

/-! ## WRITE -/

theorem devRun_strobe {s : State} (h : Quiet s) :
    devRun writeStrobeOps s = memBecomes (writeEdge .asserted (wordOf s.oa) (wordOf s.od) s.mem) s := by
  have h' : s.pins = Pins.released := h
  obtain ⟨⟩ := s
  simp only at h'
  subst h'
  simp [devRun, writeStrobeOps, pulseOps, devStep, rises, driven, Pins.get, Pins.set, Pins.released, State.withPins,
    react, memBecomes]

theorem plain_strobe : ∀ op ∈ writeStrobeOps, plainOp op = true := by decide

/-- The steps both engines take in WRITE. -/
def writeShiftSteps (a : Addr) (d : Data) : Nat := (shiftOps .addr a).length + (shiftOps .data d).length

/-- The concurrent shifts that run to their end, whatever the interleaving (43_memory_driver.md R142). -/
theorem par_device {a : Addr} {d : Data} {s t : State} {bs : List Bool} (h : Quiet s)
    (hr : par (shiftOps .addr a) (shiftOps .data d) s = .done bs t) :
    devicePart t =
      dataHolds d (addrHolds a (devicePart (s.withSched (s.sched.drop (writeShiftSteps a d))))) := by
  unfold par at hr
  change runPar _ _ _ (s.withSched (s.sched.drop (writeShiftSteps a d))) = _ at hr
  generalize hσ : s.withSched (s.sched.drop (writeShiftSteps a d)) = σ at hr
  have hq : Quiet σ := by rw [← hσ]; exact h
  obtain ⟨i1, i2⟩ := stepsOf_interleave (s.sched.take (writeShiftSteps a d)) (shiftOps .addr a) (shiftOps .data d)
  change runPar (interleave (s.sched.take (writeShiftSteps a d)) _ _) _ _ _ = _ at hr
  generalize interleave (s.sched.take (writeShiftSteps a d)) (shiftOps .addr a) (shiftOps .data d) = ops
    at hr i1 i2
  have hops : ∀ p ∈ ops, engineOp p.1 p.2 = true := by
    rintro ⟨c, op⟩ hp
    cases c with
    | addr => exact engineOp_shift .addr a op (i1 ▸ mem_stepsOf hp)
    | data => exact engineOp_shift .data d op (i2 ▸ mem_stepsOf hp)
  obtain ⟨-, ht⟩ := runPar_device (levelsKnown_of_quiet hq) hops hr
  rw [i1, i2] at ht
  change devicePart t = devRun (shiftOps .data d) (devRun (shiftOps .addr a) (devicePart σ)) at ht
  have hq1 : Quiet (devicePart σ) := hq
  have hq2 : Quiet (addrHolds a (devicePart σ)) := hq
  rw [ht, devRun_shift_addr a hq1, devRun_shift_data d hq2]

/-- `WriteSeq(a, d)` that runs to its end (43_memory_driver.md R144). -/
theorem writeSeq_device {a : Addr} {d : Data} {s t : State} {bs : List Bool} (h : Quiet s)
    (hr : writeSeq a d s = .done bs t) :
    devicePart t =
      memBecomes (Memory.set s.mem a.toNat d)
        (dataHolds d (addrHolds a (devicePart (s.withSched (s.sched.drop (writeShiftSteps a d)))))) := by
  obtain ⟨b1, u, h1, h2⟩ := Run.bind_eq_done.1 hr
  have hu := par_device h h1
  have hqu : Quiet u := (congrArg State.pins hu).trans h
  obtain ⟨-, ht⟩ := runOps_device (levelsKnown_of_quiet hqu) plain_strobe h2
  change devicePart t = devRun writeStrobeOps (devicePart u) at ht
  have hqd : Quiet (devicePart u) := hqu
  rw [ht, devRun_strobe hqd, hu]
  simp only [dataHolds_od, dataHolds_oa, addrHolds_oa, wordOf_bitsOf, writeEdge]
  rfl

end Sys2Proof.Machine
end

