-- ==== Sys2Proof/Laws/Live.lean ====
section
/-! SUPPORT. Which inputs a micro-sequence uses up, and that under a calm I/O layer it runs to its end (40_pin.md R101, R102, R105). -/

namespace Sys2Proof.Machine

/-! ## Inputs used up -/

/-- How many answers of the I/O layer a micro-operation uses: a Drive or a Sample takes one. -/
def ioTaken : MicroOp → Nat
  | .drive _ _ => 1
  | .sample _ => 1
  | .bitcnt _ => 0
  | .wait _ => 0

/-- How many answers of the I/O layer a micro-sequence uses. -/
def ioCount (ops : List MicroOp) : Nat := (ops.map ioTaken).sum

@[simp] theorem ioCount_nil : ioCount [] = 0 := rfl

@[simp] theorem ioCount_cons (op : MicroOp) (ops : List MicroOp) : ioCount (op :: ops) = ioTaken op + ioCount ops := by
  simp [ioCount]

@[simp] theorem ioCount_append (xs ys : List MicroOp) : ioCount (xs ++ ys) = ioCount xs + ioCount ys := by
  simp [ioCount]

theorem ioUsed_io (s : State) : s.ioUsed.io = s.io.drop 1 := by
  unfold State.ioUsed
  split
  · rename_i h; simp [h]
  · rename_i h; split <;> simp [h]

theorem ioUsed_draws {s : State} (h : s.ioRest.isSome = true) : s.ioUsed.draws = s.draws := by
  unfold State.ioUsed
  split
  · rfl
  · simp [h]

@[simp] theorem react_io (r : OutRole) (s : State) : (react r s).io = s.io := by
  cases r <;> simp only [react, latchEdge]
  split
  · split <;> rfl
  · rfl

@[simp] theorem react_resets (r : OutRole) (s : State) : (react r s).resets = s.resets := by
  cases r <;> simp only [react, latchEdge]
  split
  · split <;> rfl
  · rfl

theorem react_draws {r : OutRole} (h : r ≠ .rdLatch) (s : State) : (react r s).draws = s.draws := by
  cases r <;> first | exact absurd rfl h | simp only [react]

@[simp] theorem edgeDrawn_io (l : Level) (on : Bool) (s : State) : (edgeDrawn l on s).io = s.io := by
  unfold edgeDrawn; split <;> rfl

@[simp] theorem edgeDrawn_resets (l : Level) (on : Bool) (s : State) : (edgeDrawn l on s).resets = s.resets := by
  unfold edgeDrawn; split <;> rfl

@[simp] theorem driveOk_io (r : OutRole) (on : Bool) (s : State) : (driveOk r on s).io = s.io := by
  unfold driveOk
  simp only
  split <;> simp

@[simp] theorem driveOk_resets (r : OutRole) (on : Bool) (s : State) : (driveOk r on s).resets = s.resets := by
  unfold driveOk
  simp only
  split <;> simp

theorem driveOk_draws {r : OutRole} {on : Bool} {s : State} (h : LevelsKnown s)
    (hp : plainOp (.drive (.out r) on) = true) : (driveOk r on s).draws = s.draws := by
  rw [driveOk_known (h r)]
  cases hc : rises on (s.pins.get r) with
  | false => rfl
  | true =>
    rw [cond_true, react_draws]
    · rfl
    · rintro rfl
      cases on
      · simp [rises] at hc
      · cases hp

/-- The I/O answers a completed micro-operation uses. -/
theorem stepOp_io {op : MicroOp} {s t : State} {bs : List Bool} (h : stepOp op s = .done bs t) :
    t.io = s.io.drop (ioTaken op) := by
  cases op with
  | bitcnt i => cases h; rfl
  | wait d => obtain ⟨-, -, rfl⟩ := wait_done h; rfl
  | sample r =>
    cases r with
    | out r => cases h
    | rdSer =>
      rcases sample_cases s with ⟨-, h'⟩ | ⟨-, -, h'⟩ | ⟨-, -, h'⟩ | ⟨-, -, h'⟩ <;>
        simp only [stepOp, h'] at h <;> try cases h
      rcases sampleOk_cases s.tick.ioUsed with ⟨b, -, h''⟩ | ⟨-, h''⟩ <;> rw [h''] at h <;> cases h <;>
        simp [ioUsed_io, ioTaken]
  | drive r on =>
    cases r with
    | rdSer => cases h
    | out r => obtain ⟨-, -, -, rfl⟩ := drive_done h; simp [ioUsed_io, ioTaken]

theorem stepOp_resets {op : MicroOp} {s t : State} {bs : List Bool} (h : stepOp op s = .done bs t)
    (hs : s.resets = []) : t.resets = [] := by
  cases op with
  | bitcnt i => cases h; exact hs
  | wait d => obtain ⟨-, -, rfl⟩ := wait_done h; simp [State.tick, hs, countDown]
  | sample r =>
    cases r with
    | out r => cases h
    | rdSer =>
      rcases sample_cases s with ⟨-, h'⟩ | ⟨-, -, h'⟩ | ⟨-, -, h'⟩ | ⟨-, -, h'⟩ <;>
        simp only [stepOp, h'] at h <;> try cases h
      rcases sampleOk_cases s.tick.ioUsed with ⟨b, -, h''⟩ | ⟨-, h''⟩ <;> rw [h''] at h <;> cases h <;>
        simp [State.tick, hs, countDown]
  | drive r on =>
    cases r with
    | rdSer => cases h
    | out r => obtain ⟨-, -, -, rfl⟩ := drive_done h; simp [State.tick, hs, countDown]

theorem stepOp_draws {op : MicroOp} {s t : State} {bs : List Bool} (hk : LevelsKnown s) (hp : plainOp op = true)
    (hr : s.ioRest.isSome = true) (h : stepOp op s = .done bs t) : t.draws = s.draws := by
  cases op with
  | bitcnt i => cases h; rfl
  | wait d => obtain ⟨-, -, rfl⟩ := wait_done h; rfl
  | sample r => cases hp
  | drive r on =>
    cases r with
    | rdSer => cases hp
    | out r =>
      obtain ⟨-, -, -, rfl⟩ := drive_done h
      have hk' : LevelsKnown s.tick.ioUsed := by intro r; simpa using hk r
      rw [driveOk_draws hk' hp, ioUsed_draws (by simpa using hr)]
      rfl

theorem runOps_io {ops : List MicroOp} {s t : State} {bs : List Bool} (h : runOps ops s = .done bs t) :
    t.io = s.io.drop (ioCount ops) := by
  induction ops generalizing s bs with
  | nil => cases h; rfl
  | cons op ops ih =>
    obtain ⟨b1, u, b2, h1, h2, -⟩ := runOps_cons_done.1 h
    rw [ih h2, stepOp_io h1, List.drop_drop, ioCount_cons]

theorem runOps_resets {ops : List MicroOp} {s t : State} {bs : List Bool} (h : runOps ops s = .done bs t)
    (hs : s.resets = []) : t.resets = [] := by
  induction ops generalizing s bs with
  | nil => cases h; exact hs
  | cons op ops ih =>
    obtain ⟨b1, u, b2, h1, h2, -⟩ := runOps_cons_done.1 h
    exact ih h2 (stepOp_resets h1 hs)

theorem stepOp_ioRest {op : MicroOp} {s t : State} {bs : List Bool} (h : stepOp op s = .done bs t) :
    t.ioRest = s.ioRest :=
  congrArg (·.ioRest) (stepOp_sequencerPart (t := t) (by rw [h]; rfl))

theorem runOps_ioRest {ops : List MicroOp} {s t : State} {bs : List Bool} (h : runOps ops s = .done bs t) :
    t.ioRest = s.ioRest :=
  congrArg (·.ioRest) (runOps_sequencerPart (t := t) (by rw [h]; rfl))

theorem stepOp_levelsKnown {op : MicroOp} {s t : State} {bs : List Bool} (hk : LevelsKnown s)
    (hp : plainOp op = true) (h : stepOp op s = .done bs t) : LevelsKnown t := by
  rw [← levelsKnown_devicePart, (stepOp_device hk hp h).2]
  exact levelsKnown_devStep hk

theorem runOps_draws {ops : List MicroOp} {s t : State} {bs : List Bool} (hk : LevelsKnown s)
    (hp : ∀ op ∈ ops, plainOp op = true) (hr : s.ioRest.isSome = true) (h : runOps ops s = .done bs t) :
    t.draws = s.draws := by
  induction ops generalizing s bs with
  | nil => cases h; rfl
  | cons op ops ih =>
    obtain ⟨b1, u, b2, h1, h2, -⟩ := runOps_cons_done.1 h
    have hp1 := hp op List.mem_cons_self
    rw [ih (stepOp_levelsKnown hk hp1 h1) (fun o ho => hp o (List.mem_cons_of_mem _ ho))
      (by rw [stepOp_ioRest h1]; exact hr) h2, stepOp_draws hk hp1 hr h1]

/-! ## Liveness -/

/-- The micro-operation is in its role's direction (60_exceptions.md R207). -/
def directed : MicroOp → Bool
  | .drive (.out _) _ => true
  | .drive .rdSer _ => false
  | .sample .rdSer => true
  | .sample (.out _) => false
  | .bitcnt _ => true
  | .wait _ => true

theorem directed_of_plainOp {op : MicroOp} (h : plainOp op = true) : directed op = true := by
  cases op with
  | drive r on => cases r <;> first | rfl | cases h
  | sample r => cases h
  | bitcnt i => rfl
  | wait d => rfl

theorem resetDue_of_nil {s : State} (h : s.resets = []) : s.resetDue = false := by simp [State.resetDue, h]

@[simp] theorem tick_io' (s : State) : s.tick.io = s.io := rfl

theorem ioNow_of_ok {s : State} (h : IoOk s) : s.tick.ioNow = .ok := by
  unfold State.ioNow
  split
  · rename_i o os ho; exact h.1 o (by rw [← tick_io' s, ho]; exact List.mem_cons_self)
  · have : s.tick.ioRest = some .ok := h.2
    rw [this]; rfl

/-- Under a calm I/O layer a directed micro-operation completes, and it stays calm. -/
theorem stepOp_calm {op : MicroOp} {s : State} (hc : Calm s) (hd : directed op = true) :
    ∃ bs t, stepOp op s = .done bs t ∧ Calm t := by
  have key : ∃ bs t, stepOp op s = .done bs t := by
    cases op with
    | bitcnt i => exact ⟨_, _, rfl⟩
    | wait d => exact ⟨[], s.tick, by simp [stepOp, wait, resetDue_of_nil hc.1]⟩
    | drive r on =>
      cases r with
      | rdSer => cases hd
      | out r => exact ⟨[], _, by simp only [stepOp, drive, resetDue_of_nil hc.1, ioNow_of_ok hc.2]; rfl⟩
    | sample r =>
      cases r with
      | out r => cases hd
      | rdSer =>
        have e : stepOp (.sample .rdSer) s = sampleOk s.tick.ioUsed := by
          simp only [stepOp, sample, resetDue_of_nil hc.1, ioNow_of_ok hc.2]; rfl
        rcases sampleOk_cases s.tick.ioUsed with ⟨b, -, h⟩ | ⟨-, h⟩
        · exact ⟨_, _, e.trans h⟩
        · exact ⟨_, _, e.trans h⟩
  obtain ⟨bs, t, h⟩ := key
  refine ⟨bs, t, h, stepOp_resets h hc.1, fun o ho => ?_, (stepOp_ioRest h).trans hc.2.2⟩
  rw [stepOp_io h] at ho
  exact hc.2.1 o (List.mem_of_mem_drop ho)

theorem runOps_calm {ops : List MicroOp} {s : State} (hc : Calm s) (hd : ∀ op ∈ ops, directed op = true) :
    ∃ bs t, runOps ops s = .done bs t ∧ Calm t := by
  induction ops generalizing s with
  | nil => exact ⟨[], s, rfl, hc⟩
  | cons op ops ih =>
    obtain ⟨b1, u, h1, hu⟩ := stepOp_calm hc (hd op List.mem_cons_self)
    obtain ⟨b2, t, h2, ht⟩ := ih hu (fun o ho => hd o (List.mem_cons_of_mem _ ho))
    exact ⟨_, t, runOps_cons_done.2 ⟨b1, u, b2, h1, h2, rfl⟩, ht⟩

/-! ## The two engines -/

/-- The steps of two engines that both complete are a run of their steps in that order. -/
theorem runPar_done {ops : List (Chain × MicroOp)} {s t : State} {bs : List Bool}
    (h : runPar ops .running .running s = .done bs t) :
    bs = [] ∧ ∃ cs, runOps (ops.map Prod.snd) s = .done cs t := by
  induction ops generalizing s bs with
  | nil => cases h; exact ⟨rfl, [], rfl⟩
  | cons p ops ih =>
    obtain ⟨c, op⟩ := p
    have key : ∃ b u, stepOp op s = .done b u ∧ runPar ops .running .running u = .done bs t := by
      cases c <;> simp only [runPar, if_true] at h <;> split at h <;> rename_i hs
      all_goals first
        | exact ⟨_, _, hs, h⟩
        | (have := runPar_running h; simp_all)
        | cases h
    obtain ⟨b, u, h1, h2⟩ := key
    obtain ⟨rfl, cs, h3⟩ := ih h2
    exact ⟨rfl, b ++ cs, runOps_cons_done.2 ⟨b, u, cs, h1, h3, rfl⟩⟩

theorem runPar_calm {ops : List (Chain × MicroOp)} {s : State} (hc : Calm s)
    (hd : ∀ p ∈ ops, directed p.2 = true) : ∃ t, runPar ops .running .running s = .done [] t ∧ Calm t := by
  induction ops generalizing s with
  | nil => exact ⟨s, rfl, hc⟩
  | cons p ops ih =>
    obtain ⟨c, op⟩ := p
    obtain ⟨b, u, h1, hu⟩ := stepOp_calm hc (hd _ List.mem_cons_self)
    obtain ⟨t, h2, ht⟩ := ih hu (fun p hp => hd p (List.mem_cons_of_mem _ hp))
    refine ⟨t, ?_, ht⟩
    cases c <;> simp only [runPar, if_true] <;> rw [h1] <;> exact h2

end Sys2Proof.Machine
end

