-- ==== Sys2Proof/Laws/Sequence.lean ====
section
/-! SUPPORT. `WriteSeq` and `ReadSeq` that run to their end: their effect, whatever the I/O layer and the interleaving, and that they do run to their end under a calm I/O layer (43_memory_driver.md R142 to R147). -/

namespace Sys2Proof.Machine

/-- A state is its device part and the inputs it has left. -/
theorem eq_of_devicePart {t u : State} (h : devicePart t = devicePart u) :
    t = { u with micro := t.micro, resets := t.resets, io := t.io, draws := t.draws, bitcnt := t.bitcnt } :=
  congrArg
    (fun x : State =>
      { x with micro := t.micro, resets := t.resets, io := t.io, draws := t.draws, bitcnt := t.bitcnt }) h

theorem pins_of_devicePart {s u : State} (h : devicePart s = u) : s.pins = u.pins := by rw [← h]; rfl

theorem mem_of_devicePart {s u : State} (h : devicePart s = u) : s.mem = u.mem := by rw [← h]; rfl

theorem oa_of_devicePart {s u : State} (h : devicePart s = u) : s.oa = u.oa := by rw [← h]; rfl

theorem q_of_devicePart {s u : State} (h : devicePart s = u) : s.q = u.q := by rw [← h]; rfl

/-! ## `BITCNT` -/

/-- `BITCNT` after a micro-operation (41_shift_chain.md R111). -/
def bitcntAfter (b : Val (BitVec 5)) : MicroOp → Val (BitVec 5)
  | .bitcnt i => .known i
  | .drive _ _ => b
  | .sample _ => b
  | .wait _ => b

@[simp] theorem react_bitcnt (r : OutRole) (s : State) : (react r s).bitcnt = s.bitcnt := by
  cases r <;> simp only [react, latchEdge]
  split
  · split <;> rfl
  · rfl

@[simp] theorem edgeDrawn_bitcnt (l : Level) (on : Bool) (s : State) : (edgeDrawn l on s).bitcnt = s.bitcnt := by
  unfold edgeDrawn; split <;> rfl

@[simp] theorem driveOk_bitcnt (r : OutRole) (on : Bool) (s : State) : (driveOk r on s).bitcnt = s.bitcnt := by
  unfold driveOk
  simp only
  split <;> simp

theorem stepOp_bitcnt {op : MicroOp} {s t : State} {bs : List Bool} (h : stepOp op s = .done bs t) :
    t.bitcnt = bitcntAfter s.bitcnt op := by
  cases op with
  | bitcnt i => cases h; rfl
  | wait d => obtain ⟨-, -, rfl⟩ := wait_done h; rfl
  | sample r =>
    cases r with
    | out r => cases h
    | rdSer =>
      rcases sample_cases s with ⟨-, h'⟩ | ⟨-, -, h'⟩ | ⟨-, -, h'⟩ | ⟨-, -, h'⟩ <;>
        simp only [stepOp, h'] at h <;> try cases h
      rcases sampleOk_cases s.tick.ioUsed with ⟨b, -, h''⟩ | ⟨-, h''⟩ <;> rw [h''] at h <;> cases h <;>
        simp [bitcntAfter]
  | drive r on =>
    cases r with
    | rdSer => cases h
    | out r => obtain ⟨-, -, -, rfl⟩ := drive_done h; simp [bitcntAfter]

theorem runOps_bitcnt {ops : List MicroOp} {s t : State} {bs : List Bool} (h : runOps ops s = .done bs t) :
    t.bitcnt = ops.foldl bitcntAfter s.bitcnt := by
  induction ops generalizing s bs with
  | nil => cases h; rfl
  | cons op ops ih =>
    obtain ⟨b1, u, b2, h1, h2, -⟩ := runOps_cons_done.1 h
    rw [ih h2, stepOp_bitcnt h1, List.foldl_cons]

theorem foldl_bitcntAfter_known {ops : List MicroOp} {b : Val (BitVec 5)}
    (h : (∃ n, b = .known n) ∨ ∃ i, MicroOp.bitcnt i ∈ ops) : ∃ n, ops.foldl bitcntAfter b = .known n := by
  induction ops generalizing b with
  | nil => exact h.resolve_right (by simp)
  | cons op ops ih =>
    rw [List.foldl_cons]
    refine ih ?_
    rcases h with ⟨n, rfl⟩ | ⟨i, hi⟩
    · cases op <;> exact .inl ⟨_, rfl⟩
    · rcases List.mem_cons.1 hi with rfl | hi
      · exact .inl ⟨i, rfl⟩
      · exact .inr ⟨i, hi⟩

/-! ## WRITE -/

theorem ioCount_shiftLoop (c : Chain) (i : Nat) (bs : List Bool) : ioCount (shiftLoopOps c i bs) = 3 * bs.length := by
  induction bs generalizing i with
  | nil => rfl
  | cons b bs ih =>
    rw [shiftLoopOps, ioCount_append, ih, List.length_cons]
    have : ioCount (shiftBitOps c i b) = 3 := rfl
    omega

/-- `Shift` of `n` bits takes `3n + 3` drives (41_shift_chain.md R115). -/
theorem ioCount_shift {n : Nat} (c : Chain) (v : BitVec n) : ioCount (shiftOps c v) = 3 * n + 3 := by
  rw [shiftOps, ioCount_append, ioCount_shiftLoop, length_bitList]
  rfl

theorem length_shiftLoop (c : Chain) (i : Nat) (bs : List Bool) : (shiftLoopOps c i bs).length = 6 * bs.length := by
  induction bs generalizing i with
  | nil => rfl
  | cons b bs ih =>
    rw [shiftLoopOps, List.length_append, ih, List.length_cons]
    have : (shiftBitOps c i b).length = 6 := rfl
    omega

theorem length_shift {n : Nat} (c : Chain) (v : BitVec n) : (shiftOps c v).length = 6 * n + 4 := by
  rw [shiftOps, List.length_append, length_shiftLoop, length_bitList]
  rfl

theorem writeShiftSteps_eq (a : Addr) (d : Data) : writeShiftSteps a d = 248 := by
  simp [writeShiftSteps, length_shift]

theorem ioCount_perm {xs ys : List MicroOp} (h : xs.Perm ys) : ioCount xs = ioCount ys := by
  unfold ioCount; exact (h.map _).sum_eq

/-- An interleaving holds the steps of both engines. -/
theorem interleave_perm (sc : List Chain) (as ds : List MicroOp) :
    ((interleave sc as ds).map Prod.snd).Perm (as ++ ds) := by
  induction sc generalizing as ds with
  | nil => simp [interleave, Function.comp_def]
  | cons c sc ih =>
    cases c with
    | addr =>
      cases as with
      | nil => exact ih [] ds
      | cons a as => exact (ih as ds).cons a
    | data =>
      cases ds with
      | nil => exact ih as []
      | cons d ds => exact ((ih as ds).cons d).trans List.perm_middle.symm

theorem bitcnt_mem_shift {n : Nat} (c : Chain) (v : BitVec (n + 1)) : MicroOp.bitcnt 0 ∈ shiftOps c v := by
  refine List.mem_append_left _ ?_
  obtain ⟨b, bs, h⟩ : ∃ b bs, bitList v = b :: bs := by
    cases h : bitList v with
    | nil => exact absurd (congrArg List.length h) (by simp)
    | cons b bs => exact ⟨b, bs, rfl⟩
  rw [h, shiftLoopOps]
  exact List.mem_append_left _ List.mem_cons_self

/-- What a completed `WriteSeq(a, d)` leaves, beside its effect (`writeSeq_device`). -/
theorem writeSeq_inputs {a : Addr} {d : Data} {s t : State} {bs : List Bool} (hq : Quiet s)
    (hr : writeSeq a d s = .done bs t) :
    bs = [] ∧ t.io = s.io.drop 130 ∧ (∃ n, t.bitcnt = .known n) ∧ (s.resets = [] → t.resets = []) ∧
      (s.ioRest.isSome = true → t.draws = s.draws) := by
  obtain ⟨b1, u, h1, h2⟩ := Run.bind_eq_done.1 hr
  have hu := par_device hq h1
  have hqu : Quiet u := (congrArg State.pins hu).trans hq
  unfold par at h1
  obtain ⟨-, cs, h3⟩ := runPar_done h1
  have hp := interleave_perm (s.sched.take ((shiftOps .addr a).length + (shiftOps .data d).length))
    (shiftOps .addr a) (shiftOps .data d)
  have hplain : ∀ op ∈ (interleave (s.sched.take ((shiftOps .addr a).length + (shiftOps .data d).length))
      (shiftOps .addr a) (shiftOps .data d)).map Prod.snd, plainOp op = true := by
    intro op ho
    rcases List.mem_append.1 (hp.mem_iff.1 ho) with ho | ho
    · exact plainOp_of_engineOp (engineOp_shift .addr a op ho)
    · exact plainOp_of_engineOp (engineOp_shift .data d op ho)
  have hqs : Quiet (s.withSched (s.sched.drop ((shiftOps .addr a).length + (shiftOps .data d).length))) := hq
  refine ⟨(runOps_device (levelsKnown_of_quiet hqu) plain_strobe h2).1, ?_, ?_, fun h => ?_, fun h => ?_⟩
  · rw [runOps_io h2, runOps_io h3, List.drop_drop, ioCount_perm hp, ioCount_append, ioCount_shift, ioCount_shift]
    rfl
  · rw [runOps_bitcnt h2, runOps_bitcnt h3]
    refine foldl_bitcntAfter_known (.inl (foldl_bitcntAfter_known (.inr ⟨0, hp.mem_iff.2 ?_⟩)))
    exact List.mem_append_left _ (bitcnt_mem_shift .addr a)
  · exact runOps_resets h2 (runOps_resets h3 h)
  · rw [runOps_draws (levelsKnown_of_quiet hqu) plain_strobe (by rw [runOps_ioRest h3]; exact h) h2,
      runOps_draws (levelsKnown_of_quiet hqs) hplain h h3]
    rfl

/-- A calm `WriteSeq(a, d)` of an idle block runs to its end, with exactly this effect. -/
theorem writeSeq_calm {s : State} (a : Addr) (d : Data) (hc : Calm s) (hq : Quiet s) :
    ∃ m n, writeSeq a d s = .done []
      { s with
        mem := Memory.set s.mem a.toNat d
        sa := bitsOf a, oa := bitsOf a, sd := bitsOf d, od := bitsOf d
        io := s.io.drop 130, sched := s.sched.drop 248, micro := m, bitcnt := .known n } := by
  have hd : ∀ p ∈ interleave (s.sched.take ((shiftOps .addr a).length + (shiftOps .data d).length))
      (shiftOps .addr a) (shiftOps .data d), directed p.2 = true := by
    intro p hp
    have := (interleave_perm _ _ _).mem_iff.1 (List.mem_map_of_mem (f := Prod.snd) hp)
    rcases List.mem_append.1 this with ho | ho
    · exact directed_of_plainOp (plainOp_of_engineOp (engineOp_shift .addr a _ ho))
    · exact directed_of_plainOp (plainOp_of_engineOp (engineOp_shift .data d _ ho))
  obtain ⟨u, h1, hu⟩ := runPar_calm
    (s := s.withSched (s.sched.drop ((shiftOps .addr a).length + (shiftOps .data d).length))) hc hd
  obtain ⟨bs, t, h2, -⟩ := runOps_calm (ops := writeStrobeOps) hu (by decide)
  have hr : writeSeq a d s = .done bs t := Run.bind_eq_done.2 ⟨[], u, h1, h2⟩
  obtain ⟨rfl, hio, ⟨n, hn⟩, hres, hdr⟩ := writeSeq_inputs hq hr
  have e := eq_of_devicePart (t := t)
    (u := memBecomes (Memory.set s.mem a.toNat d)
      (dataHolds d (addrHolds a (s.withSched (s.sched.drop (writeShiftSteps a d))))))
    ((writeSeq_device hq hr).trans rfl)
  rw [hio, hn, hres hc.1, hdr (by simp [hc.2.2]), writeShiftSteps_eq] at e
  refine ⟨t.micro, n, ?_⟩
  rw [hr, e]
  simp only [memBecomes, dataHolds, addrHolds, State.withSched, hc.1]

/-! ## READ -/

/-- What a READ's PISO load leaves: the word's bits in `Q`. -/
def qHolds (d : Data) (s : State) : State := { s with q := bitsOf d }

theorem assemble_append_getLsbD (bs : List Bool) (acc : Data) (k : Nat) (hk : k < 24) :
    (bs.foldl (fun acc b => acc.shiftConcat b) acc).getLsbD k =
      if h : k < bs.length then bs[bs.length - 1 - k] else acc.getLsbD (k - bs.length) := by
  induction bs generalizing acc with
  | nil => simp
  | cons b bs ih =>
    rw [List.foldl_cons, ih]
    simp only [List.length_cons]
    by_cases h : k < bs.length
    · rw [dif_pos h, dif_pos (by omega)]
      have : bs.length + 1 - 1 - k = (bs.length - 1 - k) + 1 := by omega
      simp only [this, List.getElem_cons_succ]
    · rw [dif_neg h]
      by_cases h' : k < bs.length + 1
      · rw [dif_pos h']
        have e : k = bs.length := by omega
        subst e
        simp
      · rw [dif_neg h', BitVec.getLsbD_shiftConcat]
        have : k - bs.length ≠ 0 := by omega
        have e : k - bs.length - 1 = k - (bs.length + 1) := by omega
        simp [this, e]
        omega

/-- The samples of a word, `Q[23]` first. -/
def samplesOf (d : Data) : List Bool := (List.range 24).map fun j => d.getLsbD (23 - j)

theorem assemble_samplesOf (d : Data) : assemble (samplesOf d) = d := by
  apply BitVec.eq_of_getLsbD_eq
  intro k hk
  rw [assemble, assemble_append_getLsbD _ _ k hk, dif_pos (by simp [samplesOf, hk])]
  simp only [samplesOf, List.length_map, List.length_range, List.getElem_map, List.getElem_range]
  congr 1
  omega

/-- A PISO after `j` clocks. -/
def clockedOut (j : Nat) (d : Data) : Bits 24 := shiftOut^[j] (bitsOf d)

theorem clockedOut_top {j : Nat} (h : j < 24) (d : Data) : (clockedOut j d)[23] = .known (d.getLsbD (23 - j)) := by
  rw [clockedOut, getElem_iterate_shiftOut _ _ (by omega), if_pos (by omega), getElem_bitsOf,
    BitVec.getLsbD_eq_getElem]

/-- A Sample of a known `Q[23]`. -/
theorem sample_known {s t : State} {bs : List Bool} {b : Bool} (hb : s.q[23] = .known b)
    (h : stepOp (.sample .rdSer) s = .done bs t) :
    bs = [b] ∧ devicePart t = devicePart s ∧ (s.ioRest.isSome = true → t.draws = s.draws) := by
  rcases sample_cases s with ⟨-, h'⟩ | ⟨-, -, h'⟩ | ⟨-, -, h'⟩ | ⟨-, -, h'⟩ <;>
    simp only [stepOp, h'] at h <;> try cases h
  have hq : s.tick.ioUsed.q[23] = .known b := by simpa using hb
  rcases sampleOk_cases s.tick.ioUsed with ⟨c, hc, h''⟩ | ⟨hc, -⟩
  · rw [hq] at hc
    cases hc
    rw [h''] at h
    cases h
    refine ⟨rfl, by simp, fun hr => ?_⟩
    rw [ioUsed_draws (by simpa using hr)]; rfl
  · rw [hq] at hc; cases hc

/-- `Q` replaced. -/
def withQ (q : Bits 24) (s : State) : State := { s with q := q }

theorem devRun_clock {s : State} (h : Quiet s) (j : Nat) :
    devRun ((.bitcnt (BitVec.ofNat 5 j)) :: (pulseOps .rdClk ++ [.wait .settle])) s = withQ (shiftOut s.q) s := by
  have h' : s.pins = Pins.released := h
  obtain ⟨⟩ := s
  simp only at h'
  subst h'
  simp [devRun, pulseOps, devStep, rises, driven, Pins.get, Pins.set, Pins.released, State.withPins, react, clocked,
    withQ]

/-- One turn of READ's sampling loop. -/
theorem sampleBit_done {j : Nat} {d : Data} {s t : State} {bs : List Bool} (hj : j + 1 < 24) (hq : Quiet s)
    (hd : s.q = clockedOut j d) (h : runOps (sampleBitOps (j + 1)) s = .done bs t) :
    bs = [d.getLsbD (23 - (j + 1))] ∧ devicePart t = withQ (clockedOut (j + 1) d) (devicePart s) ∧
      (s.ioRest.isSome = true → t.draws = s.draws) := by
  have e : sampleBitOps (j + 1) =
      ((.bitcnt (BitVec.ofNat 5 (j + 1))) :: (pulseOps .rdClk ++ [.wait .settle])) ++
        (.sample .rdSer :: [.wait .settle]) := rfl
  rw [e] at h
  obtain ⟨b1, u, b2, h1, h2, rfl⟩ := runOps_append_done.1 h
  obtain ⟨b3, v, b4, h3, h4, rfl⟩ := runOps_cons_done.1 h2
  have hp : ∀ op ∈ ((.bitcnt (BitVec.ofNat 5 (j + 1))) :: (pulseOps .rdClk ++ [.wait .settle])),
      plainOp op = true := by
    intro op ho
    simp only [pulseOps, List.mem_append, List.mem_cons, List.not_mem_nil, or_false] at ho
    rcases ho with rfl | (rfl | rfl | rfl) | rfl <;> rfl
  obtain ⟨rfl, hu⟩ := runOps_device (levelsKnown_of_quiet hq) hp h1
  have hqd : Quiet (devicePart s) := hq
  change devicePart u = devRun _ (devicePart s) at hu
  rw [devRun_clock hqd] at hu
  have hud : u.q = clockedOut (j + 1) d := by
    have : u.q = shiftOut s.q := q_of_devicePart hu
    rw [this, hd, clockedOut, clockedOut, Function.iterate_succ_apply']
  obtain ⟨rfl, hv, hdv⟩ := sample_known (by rw [hud]; exact clockedOut_top hj d) h3
  obtain ⟨b5, w, b6, h5, h6, rfl⟩ := runOps_cons_done.1 h4
  cases h6
  obtain ⟨rfl, -, rfl⟩ := wait_done h5
  refine ⟨rfl, ?_, fun hr => ?_⟩
  · rw [devicePart_tick, hv, hu]
    simp only [withQ]
    congr 1
    change shiftOut s.q = _
    rw [hd, clockedOut, clockedOut, Function.iterate_succ_apply']
  · have h1d := runOps_draws (levelsKnown_of_quiet hq) hp hr h1
    have := hdv (by rw [runOps_ioRest h1]; exact hr)
    simp [this, h1d]

/-- The turns `j + 1` to `j + n` of READ's sampling loop. -/
theorem sampleBits_done {n j : Nat} {d : Data} {s t : State} {bs : List Bool} (hj : j + n < 24) (hq : Quiet s)
    (hd : s.q = clockedOut j d) (h : runOps ((List.range' (j + 1) n).flatMap sampleBitOps) s = .done bs t) :
    bs = (List.range' (j + 1) n).map (fun j => d.getLsbD (23 - j)) ∧
      devicePart t = withQ (clockedOut (j + n) d) (devicePart s) ∧
      (s.ioRest.isSome = true → t.draws = s.draws) := by
  induction n generalizing j s bs with
  | zero =>
    cases h
    refine ⟨rfl, ?_, fun _ => rfl⟩
    rw [Nat.add_zero, ← hd]
    rfl
  | succ n ih =>
    rw [List.range'_succ, List.flatMap_cons] at h
    obtain ⟨b1, u, b2, h1, h2, rfl⟩ := runOps_append_done.1 h
    obtain ⟨rfl, hu, hdu⟩ := sampleBit_done (by omega) hq hd h1
    have hqu : Quiet u := (pins_of_devicePart hu).trans hq
    have hud : u.q = clockedOut (j + 1) d := q_of_devicePart hu
    obtain ⟨rfl, ht, hdt⟩ := ih (by omega) hqu hud h2
    refine ⟨?_, ?_, fun hr => ?_⟩
    · rw [List.range'_succ]; rfl
    · rw [ht, hu]
      simp only [withQ]
      congr 2
      omega
    · rw [hdt (by rw [runOps_ioRest h1]; exact hr), hdu hr]

/-- READ's 24 samples of a loaded word (43_memory_driver.md R146, R147). -/
theorem readSample_done {d : Data} {s t : State} {bs : List Bool} (hq : Quiet s) (hd : s.q = bitsOf d)
    (h : runOps readSampleOps s = .done bs t) :
    bs = samplesOf d ∧ devicePart t = withQ (clockedOut 23 d) (devicePart s) ∧
      (s.ioRest.isSome = true → t.draws = s.draws) := by
  obtain ⟨b1, u, b2, h1, h2, rfl⟩ := runOps_append_done.1 h
  obtain ⟨b3, v, b4, h3, h4, rfl⟩ := runOps_cons_done.1 h1
  obtain ⟨b5, w, b6, h5, h6, rfl⟩ := runOps_cons_done.1 h4
  cases h6
  obtain ⟨rfl, -, rfl⟩ := wait_done h3
  have hd' : (s.tick).q = clockedOut 0 d := hd
  obtain ⟨rfl, hw, hdw⟩ := sample_known (by rw [hd']; exact clockedOut_top (by omega) d) h5
  rw [devicePart_tick] at hw
  have hqw : Quiet u := (pins_of_devicePart hw).trans hq
  have hqd : u.q = clockedOut 0 d := (q_of_devicePart hw).trans hd
  obtain ⟨rfl, ht, hdt⟩ := sampleBits_done (n := 23) (j := 0) (by omega) hqw hqd h2
  refine ⟨rfl, ?_, fun hr => ?_⟩
  · rw [ht, hw]
  · rw [hdt (by rw [stepOp_ioRest h5, stepOp_ioRest h3]; exact hr), hdw (by simpa using hr)]
    rfl

/-- The steps of READ before the PISO load. -/
def readAddressOps (a : Addr) : List MicroOp := .drive (.out .wrEn) false :: (shiftOps .addr a ++ [.wait .settle])

theorem plain_readAddress (a : Addr) : ∀ op ∈ readAddressOps a, plainOp op = true := by
  intro op h
  rcases List.mem_cons.1 h with rfl | h
  · rfl
  · rcases List.mem_append.1 h with h | h
    · exact plainOp_of_engineOp (engineOp_shift .addr a op h)
    · rcases List.mem_singleton.1 h with rfl; rfl

theorem devRun_readAddress (a : Addr) {s : State} (h : Quiet s) : devRun (readAddressOps a) s = addrHolds a s := by
  have e : devRun (readAddressOps a) s = devRun [.wait .settle] (devRun (shiftOps .addr a)
      (devStep (.drive (.out .wrEn) false) s)) := by
    rw [← devRun_append]; rfl
  have e1 : devStep (.drive (.out .wrEn) false) s = s := by
    have h' : s.pins = Pins.released := h
    obtain ⟨⟩ := s
    simp only at h'
    subst h'
    rfl
  rw [e, e1, devRun_shift_addr a h]
  rfl

theorem readOps_eq (a : Addr) :
    readOps a = readAddressOps a ++ (.drive (.out .rdLatch) true ::
      ([.wait .hold, .drive (.out .rdLatch) false] ++ readSampleOps)) := by
  simp [readOps, readLoadOps, readAddressOps, pulseOps]

/-- The next free value is number `n`. -/
def withDraws (n : Nat) (s : State) : State := { s with draws := n }

@[simp] theorem devicePart_withDraws (n : Nat) (s : State) : devicePart (withDraws n s) = devicePart s := rfl

@[simp] theorem withDraws_draws (n : Nat) (s : State) : (withDraws n s).draws = n := rfl

theorem devicePart_qHolds (d : Data) (s : State) : devicePart (qHolds d s) = qHolds d (devicePart s) := rfl

/-- The load edge with write-enable released and a known address (20_memory.md R55). -/
theorem latchEdge_known {s : State} {a : Addr} (hw : s.pins.wrEn = .released) (ha : wordOf s.oa = .known a) :
    latchEdge s = withDraws (drawsAfter s.mem s.draws a) (qHolds (readValue s.mem s.draws a) s) := by
  unfold latchEdge
  rw [hw, ha]
  simp only [readValue, drawsAfter]
  cases Memory.read s.mem a.toNat <;> simp only [withDraws, qHolds]

@[simp] theorem tick_ioUsed_draws (s : State) : s.tick.ioUsed.draws = s.ioUsed.draws := by
  have e1 : s.tick.io = s.io := rfl
  have e2 : s.tick.ioRest = s.ioRest := rfl
  unfold State.ioUsed
  rw [e1, e2]
  cases s.io with
  | cons o os => rfl
  | nil => cases s.ioRest <;> rfl

/-- The PISO load from an idle bus that presents `a` (20_memory.md R55). -/
theorem latch_done {a : Addr} {s t : State} {bs : List Bool} (hq : Quiet s) (ha : s.oa = bitsOf a)
    (h : stepOp (.drive (.out .rdLatch) true) s = .done bs t) :
    bs = [] ∧ ∃ n, devicePart t =
        qHolds (readValue s.mem n a) ((devicePart s).withPins (Pins.released.set .rdLatch .asserted)) ∧
      (s.ioRest.isSome = true → n = s.draws ∧ t.draws = drawsAfter s.mem s.draws a) := by
  obtain ⟨rfl, -, -, rfl⟩ := drive_done h
  refine ⟨rfl, s.ioUsed.draws, ?_⟩
  have hp : s.tick.ioUsed.pins = Pins.released := by simpa using hq
  have hk : s.tick.ioUsed.pins.get .rdLatch = .released := by rw [hp]; rfl
  rw [driveOk_known (by rw [hk]; simp), hk]
  simp only [rises, cond_true, driven, if_true, react]
  rw [latchEdge_known (a := a) (by rw [withPins_pins, hp]; rfl)
    (by simp only [withPins_oa, ioUsed_oa, tick_oa, ha, wordOf_bitsOf])]
  simp only [devicePart_withDraws, devicePart_qHolds, devicePart_withPins, devicePart_ioUsed, devicePart_tick,
    withDraws_draws, withPins_mem, withPins_draws, ioUsed_mem, tick_mem, tick_ioUsed_draws, hp]
  exact ⟨trivial, fun hr => ⟨ioUsed_draws hr, by rw [ioUsed_draws hr]⟩⟩

theorem ioCount_sampleBits (js : List Nat) : ioCount (js.flatMap sampleBitOps) = 3 * js.length := by
  induction js with
  | nil => rfl
  | cons j js ih =>
    rw [List.flatMap_cons, ioCount_append, ih, List.length_cons]
    have : ioCount (sampleBitOps j) = 3 := rfl
    omega

theorem ioCount_read (a : Addr) : ioCount (readOps a) = 124 := by
  rw [readOps, readLoadOps, readSampleOps, ioCount_append, ioCount_cons, ioCount_append, ioCount_append,
    ioCount_sampleBits, ioCount_shift, List.length_range']
  rfl

theorem withQ_qHolds (q : Bits 24) (d : Data) (s : State) : withQ q (qHolds d s) = withQ q s := by
  simp only [withQ, qHolds]

theorem bitcnt_readSample (b : Val (BitVec 5)) : readSampleOps.foldl bitcntAfter b = .known 23 := by
  have e : List.range' 1 23 = List.range' 1 22 ++ [23] := rfl
  rw [readSampleOps, e, List.flatMap_append, ← List.append_assoc, List.foldl_append]
  simp [sampleBitOps, pulseOps, bitcntAfter]

/-- `ReadSeq(a)` that runs to its end (43_memory_driver.md R146): it answers the addressed word, or a free value
where that is `⊥`. -/
theorem readSeq_done {a : Addr} {d : Data} {s t : State} (hq : Quiet s) (h : readSeq a s = .done d t) :
    (∃ n, d = readValue s.mem n a ∧
      (s.ioRest.isSome = true → n = s.draws ∧ t.draws = drawsAfter s.mem s.draws a)) ∧
    devicePart t = withQ (clockedOut 23 d) { addrHolds a (devicePart s) with acc := .known d } ∧
    t.io = s.io.drop 124 ∧ t.bitcnt = .known 23 ∧ (s.resets = [] → t.resets = []) := by
  obtain ⟨bits, u, hu, h⟩ := Run.bind_eq_done.1 h
  cases h
  have hall := hu
  rw [readOps_eq] at hu
  obtain ⟨b1, v, b2, h1, h2, rfl⟩ := runOps_append_done.1 hu
  obtain ⟨b3, w, b4, h3, h4, rfl⟩ := runOps_cons_done.1 h2
  obtain ⟨b5, x, b6, h5, h6, rfl⟩ := runOps_append_done.1 h4
  have hqd : Quiet (devicePart s) := hq
  obtain ⟨rfl, hv⟩ := runOps_device (levelsKnown_of_quiet hq) (plain_readAddress a) h1
  change devicePart v = devRun _ _ at hv
  rw [devRun_readAddress a hqd] at hv
  have hqv : Quiet v := (pins_of_devicePart hv).trans hq
  have hov : v.oa = bitsOf a := by rw [oa_of_devicePart hv]; rfl
  have hmv : v.mem = s.mem := by rw [mem_of_devicePart hv]; rfl
  have hrv := runOps_ioRest h1
  obtain ⟨rfl, n, hw, hn⟩ := latch_done hqv hov h3
  rw [hmv] at hw hn
  have hkw : LevelsKnown w := by
    intro r
    have : w.pins = Pins.released.set .rdLatch .asserted := pins_of_devicePart hw
    rw [this, Pins.get_set]
    split <;> simp
  obtain ⟨rfl, hx⟩ := runOps_device hkw (by decide) h5
  have hx' : devicePart x = qHolds (readValue s.mem n a) (devicePart v) := by
    rw [hx, hw]
    have hp : (devicePart v).pins = Pins.released := hqv
    generalize devicePart v = y at hp
    obtain ⟨⟩ := y
    simp only at hp
    subst hp
    rfl
  have hqx : Quiet x := (pins_of_devicePart hx').trans hqv
  have hbx : x.q = bitsOf (readValue s.mem n a) := by rw [q_of_devicePart hx']; rfl
  obtain ⟨rfl, ht, htd⟩ := readSample_done hqx hbx h6
  simp only [List.nil_append, assemble_samplesOf]
  refine ⟨⟨n, rfl, fun hr => ?_⟩, ?_, ?_, ?_, ?_⟩
  · have hrv' : v.ioRest.isSome = true := by rw [hrv]; exact hr
    obtain ⟨e1, e2⟩ := hn hrv'
    have e3 : v.draws = s.draws := runOps_draws (levelsKnown_of_quiet hq) (plain_readAddress a) hr h1
    have hrw : w.ioRest.isSome = true := by rw [stepOp_ioRest h3]; exact hrv'
    have e4 : x.draws = w.draws := runOps_draws hkw (by decide) hrw h5
    have hrx : x.ioRest.isSome = true := by rw [runOps_ioRest h5]; exact hrw
    refine ⟨e1.trans e3, ?_⟩
    rw [htd hrx, e4, e2, e3]
  · have ht' : devicePart u = withQ (clockedOut 23 (readValue s.mem n a)) (addrHolds a (devicePart s)) := by
      rw [ht, hx', hv, withQ_qHolds]
    exact congrArg (fun y : State => { y with acc := .known (readValue s.mem n a) }) ht'
  · rw [runOps_io hall, ioCount_read]
  · rw [runOps_bitcnt h6, bitcnt_readSample]
  · intro hs
    exact runOps_resets hall hs

theorem directed_readSample : ∀ op ∈ readSampleOps, directed op = true := by
  intro op h
  rcases List.mem_append.1 h with h | h
  · simp only [List.mem_cons, List.not_mem_nil, or_false] at h
    rcases h with rfl | rfl <;> rfl
  · obtain ⟨j, -, h⟩ := List.mem_flatMap.1 h
    simp only [sampleBitOps, pulseOps, List.mem_append, List.mem_cons, List.not_mem_nil, or_false] at h
    rcases h with rfl | (rfl | rfl | rfl) | rfl | rfl | rfl <;> rfl

theorem directed_read (a : Addr) : ∀ op ∈ readOps a, directed op = true := by
  intro op h
  rw [readOps_eq] at h
  rcases List.mem_append.1 h with h | h
  · exact directed_of_plainOp (plain_readAddress a op h)
  · simp only [List.mem_append, List.mem_cons, List.not_mem_nil, or_false] at h
    rcases h with rfl | (rfl | rfl) | h
    · rfl
    · rfl
    · rfl
    · exact directed_readSample op h

/-- A calm `ReadSeq(a)` of an idle block runs to its end, with exactly this effect. -/
theorem readSeq_calm {s : State} (a : Addr) (hc : Calm s) (hq : Quiet s) :
    ∃ m, readSeq a s = .done (readValue s.mem s.draws a)
      { s with
        sa := bitsOf a, oa := bitsOf a, q := clockedOut 23 (readValue s.mem s.draws a)
        acc := .known (readValue s.mem s.draws a), bitcnt := .known 23
        io := s.io.drop 124, draws := drawsAfter s.mem s.draws a, micro := m } := by
  obtain ⟨bits, u, h, -⟩ := runOps_calm (ops := readOps a) hc (directed_read a)
  have hr : readSeq a s = .done (assemble bits) { u with acc := .known (assemble bits) } :=
    Run.bind_eq_done.2 ⟨bits, u, h, rfl⟩
  generalize htd : { u with acc := Val.known (assemble bits) } = t at hr
  generalize assemble bits = d at hr
  clear htd h u bits
  obtain ⟨⟨n, hdv, hn⟩, hdev, hio, hb, hres⟩ := readSeq_done hq hr
  obtain ⟨rfl, hdr⟩ := hn (by simp [hc.2.2])
  have e := eq_of_devicePart (t := t) (u := withQ (clockedOut 23 d) { addrHolds a s with acc := .known d })
    (hdev.trans rfl)
  rw [hio, hb, hres hc.1, hdr] at e
  refine ⟨t.micro, ?_⟩
  rw [hr, e, ← hdv]
  simp only [withQ, addrHolds, hc.1]

end Sys2Proof.Machine
end

