-- ==== Sys2Proof/Laws/Command.lean ====
section
/-! SUPPORT. The pieces every command is made of: admission, the response, the clear, the blink and the bind, each said once (60_exceptions.md R201, R202; 30_encoding.md R78). -/

namespace Sys2Proof.Machine

/-! ## The response -/

/-- Without a reset every word of a response is taken (30_encoding.md R77). -/
theorem emit_whole {s : State} (h : s.resets = []) (ws : List Word) :
    emit ws s = .whole { s with out := s.out ++ ws, micro := s.micro + ws.length } := by
  induction ws generalizing s with
  | nil => simp [emit]
  | cons w ws ih =>
    have e : countDown 1 s.resets = [] := by rw [h]; rfl
    simp only [emit, resetDue_of_nil h, Bool.false_eq_true, if_false]
    rw [ih (by simpa [State.tick] using e)]
    simp [State.tick, h, countDown, Nat.add_assoc, Nat.add_comm 1]

/-- Without a reset a command ends with its whole response frame, and the block is idle (30_encoding.md R78). -/
theorem respond_whole {s : State} (h : s.resets = []) (opc : Byte) (st : Status) (payload : List Word) :
    respond opc st payload s = .next { s with out := s.out ++ header opc st s :: payload, micro := 0 } := by
  simp [respond, emit_whole h]

/-- The header by its fields (30_encoding.md R78). -/
theorem header_eq (opc : Byte) (st : Status) (s : State) :
    header opc st s = headerWord opc (statusCode st) s.ioerr s.clrd s.clra := by
  unfold header headerWord flagField
  generalize opc ++ statusCode st ++ (0 : BitVec 13) = c
  apply BitVec.eq_of_getLsbD_eq
  intro i hi
  simp only [BitVec.getLsbD_append]
  rcases i with _ | _ | _ | i <;> simp

/-- The bits of a header. -/
theorem getLsbD_headerWord (o a : Byte) (b c d : Bool) (k : Nat) : (headerWord o a b c d).getLsbD k =
    if k = 0 then d else if k = 1 then c else if k = 2 then b else if k < 16 then false
    else if k < 24 then a.getLsbD (k - 16) else o.getLsbD (k - 24) := by
  rcases k with _ | _ | _ | k
  · simp only [headerWord, BitVec.getLsbD_append]; simp
  · simp only [headerWord, BitVec.getLsbD_append]; simp
  · simp only [headerWord, BitVec.getLsbD_append]; simp
  · simp only [headerWord, BitVec.getLsbD_append]
    by_cases h1 : k + 3 < 16
    · have : k < 13 := by omega
      simp [h1, this]
    · have h3 : ¬ k < 13 := by omega
      by_cases h2 : k + 3 < 24
      · have h4 : k - 13 < 8 := by omega
        have e : k + 3 - 16 = k - 13 := by omega
        simp [h1, h2, h3, h4, e]
      · have h4 : ¬ k - 13 < 8 := by omega
        have e : k + 3 - 24 = k - 13 - 8 := by omega
        simp only [e]
        simp [h1, h2, h3, h4]

/-- A header determines its fields. -/
theorem headerWord_inj {o o' a a' : Byte} {b c d b' c' d' : Bool}
    (h : headerWord o a b c d = headerWord o' a' b' c' d') : o = o' ∧ a = a' ∧ b = b' ∧ c = c' ∧ d = d' := by
  have key := fun k => congrArg (fun w : BitVec 32 => w.getLsbD k) h
  simp only [getLsbD_headerWord] at key
  refine ⟨?_, ?_, by simpa using key 2, by simpa using key 1, by simpa using key 0⟩
  · apply BitVec.eq_of_getLsbD_eq
    intro i hi
    have := key (i + 24)
    simpa [show ¬ i + 24 < 16 by omega] using this
  · apply BitVec.eq_of_getLsbD_eq
    intro i hi
    have := key (i + 16)
    simpa [hi, show i + 16 < 24 by omega] using this

/-- The state after a whole response. -/
def answered (opc status : Byte) (payload : List Word) (s : State) : State :=
  { s with out := s.out ++ headerWord opc status s.ioerr s.clrd s.clra :: payload, micro := 0 }

theorem respond_answered {s : State} (h : s.resets = []) (opc : Byte) (st : Status) (payload : List Word) :
    respond opc st payload s = .next (answered opc (statusCode st) payload s) := by
  rw [respond_whole h, header_eq]; rfl

theorem conclude_done {s : State} (h : s.resets = []) (opc : Byte) (payload : List Word) :
    conclude opc (.done payload s) = .next (answered opc 0 payload s) := respond_answered h opc .ok payload

theorem conclude_failed {s : State} (h : s.resets = []) (opc : Byte) (payload : List Word) :
    conclude opc (.failed payload s) = .next (answered opc 4 payload (transportFailure s)) :=
  respond_answered (s := transportFailure s) h opc .transportError payload

/-- Everything an emission can do: all words are taken, or a reset comes after some of them. -/
theorem emit_cases (ws : List Word) (s : State) :
    (∃ t, emit ws s = .whole t ∧ t = { s with out := s.out ++ ws, micro := t.micro, resets := t.resets }) ∨
    (∃ k t, k < ws.length ∧ emit ws s = .cut t ∧ t.resetDue = true ∧
      t = { s with out := s.out ++ ws.take k, micro := t.micro, resets := t.resets }) := by
  induction ws generalizing s with
  | nil => exact .inl ⟨s, rfl, by simp⟩
  | cons w ws ih =>
    cases h : s.resetDue with
    | true => exact .inr ⟨0, s, by simp, by simp [emit, h], h, by simp⟩
    | false =>
      have e : emit (w :: ws) s = emit ws { s.tick with out := s.out ++ [w] } := by simp [emit, h]
      rw [e]
      rcases ih { s.tick with out := s.out ++ [w] } with ⟨t, h1, h2⟩ | ⟨k, t, hk, h1, hd, h2⟩
      · refine .inl ⟨t, h1, h2.trans ?_⟩
        simp [State.tick]
      · refine .inr ⟨k + 1, t, by simpa using hk, h1, hd, h2.trans ?_⟩
        simp [State.tick]

/-- Everything a response can do: the whole frame is taken and the block is idle, or a reset cuts it off after
some of its words. -/
theorem respond_cases (opc : Byte) (st : Status) (payload : List Word) (s : State) :
    (∃ rs, (s.resets = [] → rs = []) ∧ respond opc st payload s = .next
      { s with
        out := s.out ++ headerWord opc (statusCode st) s.ioerr s.clrd s.clra :: payload, micro := 0
        resets := rs }) ∨
    (∃ k m rs, s.resets ≠ [] ∧ k < payload.length + 1 ∧ respond opc st payload s = .next (blockReset (.known opc)
      { s with
        out := s.out ++ (headerWord opc (statusCode st) s.ioerr s.clrd s.clra :: payload).take k, micro := m
        resets := rs })) := by
  by_cases h : s.resets = []
  · refine .inl ⟨[], fun _ => rfl, ?_⟩
    rw [respond_answered h]
    simp only [answered, ← h]
  · unfold respond
    rw [header_eq]
    rcases emit_cases (headerWord opc (statusCode st) s.ioerr s.clrd s.clra :: payload) s with
      ⟨t, h1, h2⟩ | ⟨k, t, hk, h1, -, h2⟩
    · refine .inl ⟨t.resets, fun h' => absurd h' h, ?_⟩
      rw [h1]
      simp only
      rw [h2]
    · refine .inr ⟨k, t.micro, t.resets, h, by simpa using hk, ?_⟩
      rw [h1]
      simp only
      rw [h2]

/-! ## Admission -/

theorem perform_refused {i : Instr} {st : Status} {s : State} (h : admission i s = some st)
    (work : State → Run (List Word) (List Word)) : perform i work s = respond i.opcode.byte st [] s := by
  simp [perform, h]

theorem perform_admitted {i : Instr} {s : State} (h : admission i s = none)
    (work : State → Run (List Word) (List Word)) :
    perform i work s = conclude i.opcode.byte (work (latchOperands i.opcode.byte i s)) := by
  simp [perform, h]

/-- A command is admitted exactly when it is legal, no transport failure stands, and its chains are cleared. -/
theorem admission_none {i : Instr} {s : State} :
    admission i s = none ↔ i.legal = true ∧ s.ioerr = false ∧ chainsCleared i.opcode s = true := by
  unfold admission operandsLegal
  cases i.legal <;> cases s.ioerr <;> cases chainsCleared i.opcode s <;> simp

/-! ## Pulses -/

/-- The address chain just after a clear (10_state.md R32). -/
def addrCleared (s : State) : State := { s with sa := allZero 16, oa := allBot 16 }

/-- The data chain just after a clear. -/
def dataCleared (s : State) : State := { s with sd := allZero 24, od := allBot 24 }

theorem devRun_clear_addr {s : State} (h : Quiet s) : devRun (clearOps .addr) s = addrCleared s := by
  have h' : s.pins = Pins.released := h
  obtain ⟨⟩ := s
  simp only at h'
  subst h'
  simp [devRun, clearOps, clrRole, pulseOps, devStep, rises, driven, Pins.get, Pins.set, Pins.released,
    State.withPins, react, addrCleared]

theorem devRun_clear_data {s : State} (h : Quiet s) : devRun (clearOps .data) s = dataCleared s := by
  have h' : s.pins = Pins.released := h
  obtain ⟨⟩ := s
  simp only at h'
  subst h'
  simp [devRun, clearOps, clrRole, pulseOps, devStep, rises, driven, Pins.get, Pins.set, Pins.released,
    State.withPins, react, dataCleared]

theorem devRun_blink {s : State} (h : Quiet s) : devRun blinkOps s = s := by
  have h' : s.pins = Pins.released := h
  obtain ⟨⟩ := s
  simp only at h'
  subst h'
  simp [devRun, blinkOps, devStep, rises, driven, Pins.get, Pins.set, Pins.released, State.withPins, react]

theorem plain_clear (c : Chain) : ∀ op ∈ clearOps c, plainOp op = true := by cases c <;> decide

theorem plain_blink : ∀ op ∈ blinkOps, plainOp op = true := by decide

/-- What a completed sequence of plain operations on an idle bus leaves, given its effect. -/
theorem runOps_plain {ops : List MicroOp} {s t u : State} {bs : List Bool} (hq : Quiet s)
    (hp : ∀ op ∈ ops, plainOp op = true) (hu : devRun ops (devicePart s) = devicePart u)
    (h : runOps ops s = .done bs t) :
    bs = [] ∧ devicePart t = devicePart u ∧ t.io = s.io.drop (ioCount ops) ∧
      t.bitcnt = ops.foldl bitcntAfter s.bitcnt ∧ (s.resets = [] → t.resets = []) ∧
      (s.ioRest.isSome = true → t.draws = s.draws) := by
  obtain ⟨hb, ht⟩ := runOps_device (levelsKnown_of_quiet hq) hp h
  exact ⟨hb, ht.trans hu, runOps_io h, runOps_bitcnt h, runOps_resets h,
    fun hr => runOps_draws (levelsKnown_of_quiet hq) hp hr h⟩

theorem runOps_plain_calm {ops : List MicroOp} {s u : State} (hc : Calm s) (hq : Quiet s)
    (hp : ∀ op ∈ ops, plainOp op = true) (hu : devRun ops (devicePart s) = devicePart u) :
    ∃ m, runOps ops s = .done []
      { u with
        micro := m, resets := [], io := s.io.drop (ioCount ops), draws := s.draws
        bitcnt := ops.foldl bitcntAfter s.bitcnt } := by
  obtain ⟨bs, t, h, -⟩ := runOps_calm hc (fun op ho => directed_of_plainOp (hp op ho))
  obtain ⟨rfl, ht, hio, hb, hr, hd⟩ := runOps_plain hq hp hu h
  have e := eq_of_devicePart ht
  rw [hio, hb, hr hc.1, hd (by simp [hc.2.2])] at e
  exact ⟨t.micro, by rw [h, e]⟩

/-- A calm clear of the address chain of an idle block. -/
theorem clear_addr_calm {s : State} (hc : Calm s) (hq : Quiet s) :
    ∃ m, runOps (clearOps .addr) s = .done []
      { s with sa := allZero 16, oa := allBot 16, io := s.io.drop 2, micro := m } := by
  have hqd : Quiet (devicePart s) := hq
  obtain ⟨m, h⟩ := runOps_plain_calm (u := addrCleared s) hc hq (plain_clear .addr)
    ((devRun_clear_addr hqd).trans rfl)
  refine ⟨m, h.trans ?_⟩
  simp only [addrCleared, ← hc.1]
  rfl

/-- A calm clear of the data chain of an idle block. -/
theorem clear_data_calm {s : State} (hc : Calm s) (hq : Quiet s) :
    ∃ m, runOps (clearOps .data) s = .done []
      { s with sd := allZero 24, od := allBot 24, io := s.io.drop 2, micro := m } := by
  have hqd : Quiet (devicePart s) := hq
  obtain ⟨m, h⟩ := runOps_plain_calm (u := dataCleared s) hc hq (plain_clear .data)
    ((devRun_clear_data hqd).trans rfl)
  refine ⟨m, h.trans ?_⟩
  simp only [dataCleared, ← hc.1]
  rfl

/-- A calm blink of an idle block leaves every level as it was (44_batch.md R164). -/
theorem blink_calm {s : State} (hc : Calm s) (hq : Quiet s) :
    ∃ m, runOps blinkOps s = .done [] { s with io := s.io.drop 4, micro := m } := by
  have hqd : Quiet (devicePart s) := hq
  obtain ⟨m, h⟩ := runOps_plain_calm (u := s) hc hq plain_blink (devRun_blink hqd)
  refine ⟨m, h.trans ?_⟩
  simp only [← hc.1]
  rfl

end Sys2Proof.Machine
end

