-- ==== Sys2Proof/Laws/Batch.lean ====
section
/-! SUPPORT. The loops of the batch commands under a calm I/O layer: what each leaves and answers (44_batch.md R161, R163, R170). -/

namespace Sys2Proof.Machine

theorem pulseProgress_calm {s : State} (h : s.resets = []) :
    pulseProgress s = .done () { s with micro := s.micro + 1, progress := s.progress + 1 } := by
  simp [pulseProgress, resetDue_of_nil h, State.tick, h, countDown]

/-- What the chains, `BITCNT` and `IDX` hold after the records from number `i` on. -/
def dumpTail (i : Nat) (records : List Record) (s t : State) : Prop :=
  match records.getLast? with
  | none => t.sa = s.sa ∧ t.oa = s.oa ∧ t.sd = s.sd ∧ t.od = s.od ∧ t.bitcnt = s.bitcnt ∧ t.idx = s.idx
  | some r =>
    t.sa = bitsOf r.addr ∧ t.oa = bitsOf r.addr ∧ t.sd = bitsOf r.data ∧ t.od = bitsOf r.data ∧
      t.bitcnt ≠ .bot ∧ t.idx = .known (BitVec.ofNat 17 (i + records.length - 1))

/-- DUMP's loop, undisturbed. -/
theorem dumpLoop_calm (i : Nat) (m : Mapping) (records : List Record) {s : State} (hc : Calm s) (hq : Quiet s) :
    ∃ t, dumpLoop i m records s = .done (dumpPayload (records.foldl (fun m r => mapPut m r.addr r.ck) m)) t ∧
      t = { s with
            mem := records.foldl (fun m r => Memory.set m r.addr.toNat r.data) s.mem
            progress := s.progress + records.length
            io := s.io.drop (130 * records.length), sched := s.sched.drop (248 * records.length)
            micro := t.micro, sa := t.sa, oa := t.oa, sd := t.sd, od := t.od, bitcnt := t.bitcnt, idx := t.idx } ∧
      dumpTail i records s t := by
  induction records generalizing i m s with
  | nil => exact ⟨s, rfl, by simp, by simp [dumpTail]⟩
  | cons r rs ih =>
    obtain ⟨k, n, h1⟩ := writeSeq_calm (s := withIdx i s) r.addr r.data hc hq
    rw [dumpLoop, h1, Run.bind_done, pulseProgress_calm (by exact hc.1), Run.bind_done]
    have hio : Calm (⟨s.words, s.rx, s.out, s.progress + 1, s.resets, s.io.drop 130, s.ioRest, s.sched.drop 248,
        s.cmdPtr, s.phase, k + 1, s.clra, s.clrd, s.ioerr, s.opc, s.opa, s.opb, s.opd, s.bc, s.rt, s.acc, s.ckacc,
        .known n, .known (BitVec.ofNat 17 i), s.pins, bitsOf r.addr, bitsOf r.addr, bitsOf r.data, bitsOf r.data,
        s.q, Memory.set s.mem r.addr.toNat r.data, s.draws⟩ : State) :=
      ⟨hc.1, fun o ho => hc.2.1 o (List.mem_of_mem_drop ho), hc.2.2⟩
    obtain ⟨t, h2, h3, h4⟩ := ih (i + 1) (mapPut m r.addr r.ck) hio hq
    refine ⟨t, h2, h3.trans ?_, ?_⟩
    · simp only [List.foldl_cons, List.length_cons, List.drop_drop, Nat.mul_add, Nat.add_assoc, Nat.mul_one,
        Nat.add_comm 1, Nat.add_comm 130, Nat.add_comm 248]
    · clear h1 h2 h3 ih
      cases rs with
      | nil =>
        simp only [dumpTail, List.getLast?_nil, List.getLast?_singleton, List.length_singleton] at h4 ⊢
        obtain ⟨e1, e2, e3, e4, e5, e6⟩ := h4
        exact ⟨e1, e2, e3, e4, by rw [e5]; simp, e6⟩
      | cons r' rs =>
        have e : (r :: r' :: rs).getLast? = (r' :: rs).getLast? := by simp [List.getLast?_cons]
        have el : i + (r :: r' :: rs).length - 1 = i + 1 + (r' :: rs).length - 1 := by simp; omega
        simp only [dumpTail, e, el] at h4 ⊢
        cases hl : (r' :: rs).getLast? with
        | none => simp at hl
        | some x => rw [hl] at h4; exact h4

/-- What READs leave: the address chain, `Q`, `ACC`, `BITCNT`, `IDX`. -/
def readTail (i : Nat) (addrs : List Addr) (data : List Data) (s t : State) : Prop :=
  match addrs.getLast?, data.getLast? with
  | some a, some d =>
    t.sa = bitsOf a ∧ t.oa = bitsOf a ∧ t.q = clockedOut 23 d ∧ t.acc = .known d ∧ t.bitcnt = .known 23 ∧
      t.idx = .known (BitVec.ofNat 17 (i + addrs.length - 1))
  | _, _ => t.sa = s.sa ∧ t.oa = s.oa ∧ t.q = s.q ∧ t.acc = s.acc ∧ t.bitcnt = s.bitcnt ∧ t.idx = s.idx

@[simp] theorem length_readValues (m : Memory) (n : Nat) (addrs : List Addr) :
    (readValues m n addrs).length = addrs.length := by
  induction addrs generalizing n with
  | nil => rfl
  | cons a as ih => simp [readValues, ih]

theorem readTail_cons {i : Nat} {a a' : Addr} {as : List Addr} {d d' : Data} {ds : List Data} {s s' t : State}
    (h : readTail (i + 1) (a' :: as) (d' :: ds) s' t) : readTail i (a :: a' :: as) (d :: d' :: ds) s t := by
  have e : (a :: a' :: as).getLast? = (a' :: as).getLast? := by simp [List.getLast?_cons]
  have e' : (d :: d' :: ds).getLast? = (d' :: ds).getLast? := by simp [List.getLast?_cons]
  have el : i + (a :: a' :: as).length - 1 = i + 1 + (a' :: as).length - 1 := by simp; omega
  simp only [readTail, e, e', el] at h ⊢
  cases hl : (a' :: as).getLast? with
  | none => simp at hl
  | some x =>
    cases hl' : (d' :: ds).getLast? with
    | none => simp at hl'
    | some y => rw [hl, hl'] at h; exact h

/-- BULK_READ's loop, undisturbed. -/
theorem bulkLoop_calm (l u : Addr) (n i : Nat) (values : List Word) {s : State} (hc : Calm s) (hq : Quiet s) :
    let addrs := (List.range' i n).map fun j => lowerMargin l + BitVec.ofNat 16 j
    let data := readValues s.mem s.draws addrs
    ∃ t, bulkLoop l u n i values s =
        .done (bulkPayload l u (values ++ List.zipWith (valueWord l u) addrs data)) t ∧
      t = { s with
            progress := s.progress + n, io := s.io.drop (124 * n), draws := drawsAfterAll s.mem s.draws addrs
            micro := t.micro, sa := t.sa, oa := t.oa, q := t.q, acc := t.acc, bitcnt := t.bitcnt, idx := t.idx } ∧
      readTail i addrs data s t := by
  induction n generalizing i values s with
  | zero => exact ⟨s, by simp [bulkLoop], by simp [drawsAfterAll], by simp [readTail]⟩
  | succ n ih =>
    obtain ⟨k, h1⟩ := readSeq_calm (s := withIdx i s) (lowerMargin l + BitVec.ofNat 16 i) hc hq
    rw [bulkLoop, h1, Run.bind_done, pulseProgress_calm (by exact hc.1), Run.bind_done]
    generalize hv : readValue (withIdx i s).mem (withIdx i s).draws (lowerMargin l + BitVec.ofNat 16 i) = v
    generalize hd : drawsAfter (withIdx i s).mem (withIdx i s).draws (lowerMargin l + BitVec.ofNat 16 i) = dr
    have hio : Calm (⟨s.words, s.rx, s.out, s.progress + 1, s.resets, s.io.drop 124, s.ioRest, s.sched,
        s.cmdPtr, s.phase, k + 1, s.clra, s.clrd, s.ioerr, s.opc, s.opa, s.opb, s.opd, s.bc, s.rt, .known v, s.ckacc,
        .known 23, .known (BitVec.ofNat 17 i), s.pins, bitsOf (lowerMargin l + BitVec.ofNat 16 i),
        bitsOf (lowerMargin l + BitVec.ofNat 16 i), s.sd, s.od, clockedOut 23 v, s.mem, dr⟩ : State) :=
      ⟨hc.1, fun o ho => hc.2.1 o (List.mem_of_mem_drop ho), hc.2.2⟩
    obtain ⟨t, h2, h3, h4⟩ :=
      ih (i + 1) (values ++ [valueWord l u (lowerMargin l + BitVec.ofNat 16 i) v]) hio hq
    have hv' : readValue s.mem s.draws (lowerMargin l + BitVec.ofNat 16 i) = v := hv
    have hd' : drawsAfter s.mem s.draws (lowerMargin l + BitVec.ofNat 16 i) = dr := hd
    simp only [List.range'_succ, List.map_cons, readValues, hv', hd', List.zipWith_cons_cons, drawsAfterAll]
    refine ⟨t, ?_, h3.trans ?_, ?_⟩
    · refine h2.trans ?_
      rw [List.append_assoc]
      rfl
    · simp only [List.drop_drop, Nat.mul_add, Nat.add_assoc, Nat.mul_one, Nat.add_comm 1, Nat.add_comm 124]
    · clear h1 h2 h3 ih hio
      cases n with
      | zero =>
        simp only [List.range'_zero, List.map_nil, readValues, readTail, List.getLast?_nil,
          List.getLast?_singleton] at h4 ⊢
        exact h4
      | succ n =>
        rw [List.range'_succ, List.map_cons] at h4 ⊢
        exact readTail_cons h4

/-- VERIFY's lines, from the words read. -/
def linesOf (bc rt : Byte) (entries : List Entry) (data : List Data) : List Line :=
  List.zipWith (lineOf bc rt) entries data

/-- `CKACC` after the lines. -/
def ckaccTail (lines : List Line) (s t : State) : Prop :=
  match lines.getLast? with
  | some l => t.ckacc = .known (0 - l.computed)
  | none => t.ckacc = s.ckacc

theorem ckAccumulate_eq (bytes : List Byte) : ckAccumulate bytes = 0 - ck8 bytes := by simp [ck8]

/-- The answers of the I/O layer that the blink uses. -/
def blinkTaken (lines : List Line) : Nat := cond (lines.all linePass) 4 0

/-- VERIFY's end, undisturbed. -/
theorem verifyEnd_calm (lines : List Line) {s : State} (hc : Calm s) (hq : Quiet s) :
    ∃ k, verifyEnd lines s =
      .done (verifyPayload (lines.all linePass) (lines.all linePass) lines)
        { s with io := s.io.drop (blinkTaken lines), micro := k } := by
  unfold verifyEnd
  split
  · rename_i h
    obtain ⟨m, hb⟩ := blink_calm hc hq
    exact ⟨m, by rw [hb, Run.bind_done, blinkTaken, h]; rfl⟩
  · rename_i h
    have h' : lines.all linePass = false := by simpa using h
    exact ⟨s.micro, by rw [blinkTaken, h']; simp⟩

/-- VERIFY's loop, undisturbed. -/
theorem verifyLoop_calm (bc rt : Byte) (i : Nat) (done : List Line) (entries : List Entry) {s : State}
    (hc : Calm s) (hq : Quiet s) :
    let data := readValues s.mem s.draws (entries.map Entry.addr)
    let lines := done ++ linesOf bc rt entries data
    ∃ t, verifyLoop bc rt i done entries s =
        .done (verifyPayload (lines.all linePass) (lines.all linePass) lines) t ∧
      t = { s with
            progress := s.progress + entries.length
            io := s.io.drop (124 * entries.length + blinkTaken lines)
            draws := drawsAfterAll s.mem s.draws (entries.map Entry.addr)
            micro := t.micro, sa := t.sa, oa := t.oa, q := t.q, acc := t.acc, ckacc := t.ckacc, bitcnt := t.bitcnt
            idx := t.idx } ∧
      readTail i (entries.map Entry.addr) data s t ∧ ckaccTail (linesOf bc rt entries data) s t := by
  induction entries generalizing i done s with
  | nil =>
    obtain ⟨k, h⟩ := verifyEnd_calm done hc hq
    refine ⟨{ s with io := s.io.drop (blinkTaken done), micro := k }, ?_, ?_, ?_, ?_⟩
    · simpa only [verifyLoop, linesOf, List.zipWith_nil_left, List.append_nil] using h
    · simp [linesOf, drawsAfterAll]
    · simp [readTail]
    · simp [ckaccTail, linesOf]
  | cons e es ih =>
    obtain ⟨k, h1⟩ := readSeq_calm (s := withIdx i s) e.addr hc hq
    rw [verifyLoop, h1, Run.bind_done, pulseProgress_calm (by exact hc.1), Run.bind_done]
    generalize hv : readValue (withIdx i s).mem (withIdx i s).draws e.addr = v
    generalize hd : drawsAfter (withIdx i s).mem (withIdx i s).draws e.addr = dr
    have hio : Calm (⟨s.words, s.rx, s.out, s.progress + 1, s.resets, s.io.drop 124, s.ioRest, s.sched,
        s.cmdPtr, s.phase, k + 1, s.clra, s.clrd, s.ioerr, s.opc, s.opa, s.opb, s.opd, s.bc, s.rt, .known v,
        .known (ckAccumulate (canon bc e.addr rt v)), .known 23, .known (BitVec.ofNat 17 i), s.pins,
        bitsOf e.addr, bitsOf e.addr, s.sd, s.od, clockedOut 23 v, s.mem, dr⟩ : State) :=
      ⟨hc.1, fun o ho => hc.2.1 o (List.mem_of_mem_drop ho), hc.2.2⟩
    obtain ⟨t, h2, h3, h4, h5⟩ := ih (i + 1) (done ++ [lineOf bc rt e v]) hio hq
    have hv' : readValue s.mem s.draws e.addr = v := hv
    have hd' : drawsAfter s.mem s.draws e.addr = dr := hd
    simp only [List.map_cons, readValues, hv', hd', linesOf, List.zipWith_cons_cons, drawsAfterAll] at h2 h3 h4 h5 ⊢
    simp only [List.append_assoc, List.singleton_append] at h2 h3
    refine ⟨t, h2, h3.trans ?_, ?_, ?_⟩
    · simp only [List.drop_drop, List.length_cons, Nat.mul_add, Nat.add_assoc, Nat.mul_one, Nat.add_comm 1,
        Nat.add_left_comm 124]
    · clear h1 h2 h3 ih hio h5
      cases es with
      | nil =>
        simp only [List.map_nil, readValues, readTail, List.getLast?_nil, List.getLast?_singleton] at h4 ⊢
        exact h4
      | cons e' es => exact readTail_cons h4
    · clear h1 h2 h3 ih hio h4
      cases es with
      | nil =>
        simp only [ckaccTail, List.map_nil, readValues, List.zipWith_nil_left, List.getLast?_nil,
          List.getLast?_singleton] at h5 ⊢
        rw [h5, ckAccumulate_eq]
        rfl
      | cons e' es =>
        simp only [List.map_cons, readValues, List.zipWith_cons_cons] at h5 ⊢
        simp only [ckaccTail, List.getLast?_cons_cons] at h5 ⊢
        cases hl : (lineOf bc rt e' (readValue s.mem dr e'.addr) ::
          List.zipWith (lineOf bc rt) es (readValues s.mem (drawsAfter s.mem dr e'.addr) (es.map Entry.addr))).getLast? with
        | none => simp at hl
        | some x => rw [hl] at h5; exact h5

end Sys2Proof.Machine
end

