-- ==== Sys2Proof/Laws/Outcome.lean ====
section
/-! SUPPORT. What the work of every command can do, however it ends: what it keeps, and why it fails, hangs or is cut off (60_exceptions.md R201). -/

namespace Sys2Proof.Machine

/-! ## What a command's work keeps -/

/-- The commands that write the SRAM. -/
def writesSram : Opcode → Bool
  | .write | .dump => true
  | .clrAddr | .clrData | .read | .verify | .bulkRead | .checksum | .lowerMargin | .upperMargin => false

/-- The commands with a progress output (44_batch.md R160). -/
def reportsProgress : Opcode → Bool
  | .dump | .verify | .bulkRead => true
  | .clrAddr | .clrData | .write | .read | .checksum | .lowerMargin | .upperMargin => false

/-- What the work of a command of opcode `o` keeps, at every state it passes through. -/
structure Reaches (o : Opcode) (s t : State) : Prop where
  words : t.words = s.words
  rx : t.rx = s.rx
  out : t.out = s.out
  ioRest : t.ioRest = s.ioRest
  cmdPtr : t.cmdPtr = s.cmdPtr
  phase : t.phase = s.phase
  ioerr : t.ioerr = s.ioerr
  opc : t.opc = s.opc
  opa : t.opa = s.opa
  opb : t.opb = s.opb
  opd : t.opd = s.opd
  bc : t.bc = s.bc
  rt : t.rt = s.rt
  clra : o ≠ .clrAddr → t.clra = s.clra
  clrd : o ≠ .clrData → t.clrd = s.clrd
  progress : reportsProgress o = false → t.progress = s.progress
  sched : writesSram o = false → t.sched = s.sched
  mem : writesSram o = false → t.mem = s.mem
  memWf : Memory.wf s.mem → Memory.wf t.mem
  io : ∃ k, t.io = s.io.drop k
  resets : s.resets = [] → t.resets = []

theorem Reaches.refl (o : Opcode) (s : State) : Reaches o s s :=
  ⟨rfl, rfl, rfl, rfl, rfl, rfl, rfl, rfl, rfl, rfl, rfl, rfl, rfl, fun _ => rfl, fun _ => rfl, fun _ => rfl,
    fun _ => rfl, fun _ => rfl, id, ⟨0, rfl⟩, id⟩

theorem Reaches.trans {o : Opcode} {s t u : State} (h : Reaches o s t) (k : Reaches o t u) : Reaches o s u where
  words := k.words.trans h.words
  rx := k.rx.trans h.rx
  out := k.out.trans h.out
  ioRest := k.ioRest.trans h.ioRest
  cmdPtr := k.cmdPtr.trans h.cmdPtr
  phase := k.phase.trans h.phase
  ioerr := k.ioerr.trans h.ioerr
  opc := k.opc.trans h.opc
  opa := k.opa.trans h.opa
  opb := k.opb.trans h.opb
  opd := k.opd.trans h.opd
  bc := k.bc.trans h.bc
  rt := k.rt.trans h.rt
  clra := fun x => (k.clra x).trans (h.clra x)
  clrd := fun x => (k.clrd x).trans (h.clrd x)
  progress := fun x => (k.progress x).trans (h.progress x)
  sched := fun x => (k.sched x).trans (h.sched x)
  mem := fun x => (k.mem x).trans (h.mem x)
  memWf := fun x => k.memWf (h.memWf x)
  io := by
    obtain ⟨a, ha⟩ := h.io
    obtain ⟨b, hb⟩ := k.io
    exact ⟨a + b, by rw [hb, ha, List.drop_drop]⟩
  resets := fun x => k.resets (h.resets x)

theorem Reaches.ioNoFail {o : Opcode} {s t : State} (h : Reaches o s t) (k : IoNoFail s) : IoNoFail t := by
  obtain ⟨n, hn⟩ := h.io
  refine ⟨fun x hx => k.1 x ?_, by rw [h.ioRest]; exact k.2⟩
  rw [hn] at hx
  exact List.mem_of_mem_drop hx

theorem Reaches.ioAnswers {o : Opcode} {s t : State} (h : Reaches o s t) (k : IoAnswers s) : IoAnswers t := by
  obtain ⟨n, hn⟩ := h.io
  refine ⟨fun x hx => k.1 x ?_, by rw [h.ioRest]; exact k.2⟩
  rw [hn] at hx
  exact List.mem_of_mem_drop hx

/-- How a piece of a command's work that begins in `s` can end. -/
def Ends {ε α : Type} (o : Opcode) (s : State) : Run ε α → Prop
  | .done _ t => Reaches o s t
  | .failed _ t => Reaches o s t ∧ ¬ IoNoFail s
  | .hung t => Reaches o s t ∧ ¬ IoAnswers s
  | .cut t => Reaches o s t ∧ s.resets ≠ [] ∧ t.resetDue = true
  | .fault _ => False

theorem Ends.of_reaches {ε α : Type} {o : Opcode} {s u : State} {r : Run ε α} (h : Reaches o s u)
    (k : Ends o u r) : Ends o s r := by
  cases r with
  | done a t => exact h.trans k
  | failed e t => exact ⟨h.trans k.1, fun x => k.2 (h.ioNoFail x)⟩
  | hung t => exact ⟨h.trans k.1, fun x => k.2 (h.ioAnswers x)⟩
  | cut t => exact ⟨h.trans k.1, fun x => k.2.1 (h.resets x), k.2.2⟩
  | fault f => exact k

theorem Ends.bind {ε ε' α β : Type} {o : Opcode} {s : State} {r : Run ε α} {e : ε'} {k : α → State → Run ε' β}
    (h : Ends o s r) (hk : ∀ a t, r = .done a t → Ends o t (k a t)) : Ends o s (r.bind e k) := by
  cases r with
  | done a t => exact Ends.of_reaches h (hk a t rfl)
  | failed e t => exact h
  | hung t => exact h
  | cut t => exact h
  | fault f => exact h

/-! ## One micro-operation -/

/-- The micro-operations a command of opcode `o` may take. -/
def allowed (o : Opcode) : MicroOp → Bool
  | .drive (.out .wrClk) true => writesSram o
  | .drive (.out _) _ => true
  | .drive .rdSer _ => false
  | .sample .rdSer => true
  | .sample (.out _) => false
  | .bitcnt _ => true
  | .wait _ => true

theorem directed_of_allowed {o : Opcode} {op : MicroOp} (h : allowed o op = true) : directed op = true := by
  cases op with
  | drive r on => cases r <;> first | rfl | cases h
  | sample r => cases r <;> first | rfl | cases h
  | bitcnt i => rfl
  | wait d => rfl

theorem reaches_of_parts {o : Opcode} {s t : State} (h1 : sequencerPart t = sequencerPart s)
    (h2 : writesSram o = false → t.mem = s.mem) (h3 : Memory.wf s.mem → Memory.wf t.mem)
    (h4 : ∃ k, t.io = s.io.drop k) (h5 : s.resets = [] → t.resets = []) : Reaches o s t where
  words := (congrArg State.words h1 : (sequencerPart t).words = (sequencerPart s).words)
  rx := (congrArg State.rx h1 : (sequencerPart t).rx = (sequencerPart s).rx)
  out := (congrArg State.out h1 : (sequencerPart t).out = (sequencerPart s).out)
  ioRest := (congrArg State.ioRest h1 : (sequencerPart t).ioRest = (sequencerPart s).ioRest)
  cmdPtr := (congrArg State.cmdPtr h1 : (sequencerPart t).cmdPtr = (sequencerPart s).cmdPtr)
  phase := (congrArg State.phase h1 : (sequencerPart t).phase = (sequencerPart s).phase)
  ioerr := (congrArg State.ioerr h1 : (sequencerPart t).ioerr = (sequencerPart s).ioerr)
  opc := (congrArg State.opc h1 : (sequencerPart t).opc = (sequencerPart s).opc)
  opa := (congrArg State.opa h1 : (sequencerPart t).opa = (sequencerPart s).opa)
  opb := (congrArg State.opb h1 : (sequencerPart t).opb = (sequencerPart s).opb)
  opd := (congrArg State.opd h1 : (sequencerPart t).opd = (sequencerPart s).opd)
  bc := (congrArg State.bc h1 : (sequencerPart t).bc = (sequencerPart s).bc)
  rt := (congrArg State.rt h1 : (sequencerPart t).rt = (sequencerPart s).rt)
  clra := fun _ => (congrArg State.clra h1 : (sequencerPart t).clra = (sequencerPart s).clra)
  clrd := fun _ => (congrArg State.clrd h1 : (sequencerPart t).clrd = (sequencerPart s).clrd)
  progress := fun _ => (congrArg State.progress h1 : (sequencerPart t).progress = (sequencerPart s).progress)
  sched := fun _ => (congrArg State.sched h1 : (sequencerPart t).sched = (sequencerPart s).sched)
  mem := h2
  memWf := h3
  io := h4
  resets := h5

theorem react_mem {r : OutRole} (h : r ≠ .wrClk) (s : State) : (react r s).mem = s.mem := by
  cases r <;> simp only [react, latchEdge] <;> try (exact absurd rfl h)
  split
  · split <;> rfl
  · rfl

/-- Only the assert drive of the write clock can change the SRAM (20_memory.md R54). -/
theorem driveOk_mem {r : OutRole} {on : Bool} (h : r ≠ .wrClk ∨ on = false) (s : State) :
    (driveOk r on s).mem = s.mem := by
  unfold driveOk
  simp only
  split
  · rename_i he
    rcases h with h | rfl
    · rw [react_mem h]; simp
    · simp [isEdge] at he
  · simp

theorem ioNow_mem {s : State} (h : s.io ≠ []) : s.tick.ioNow ∈ s.io := by
  cases hs : s.io with
  | nil => exact absurd hs h
  | cons o os => simp [State.ioNow, State.tick, hs]

theorem ioNow_rest {s : State} {o : IoOutcome} (h : s.io = []) (hr : s.ioRest = some o) : s.tick.ioNow = o := by
  simp [State.ioNow, State.tick, h, hr]

theorem not_ioNoFail {s : State} (h : s.tick.ioNow = .fail) : ¬ IoNoFail s := by
  rintro ⟨h1, h2⟩
  by_cases hs : s.io = []
  · rcases h2 with h2 | h2 <;> rw [ioNow_rest hs h2] at h <;> cases h
  · exact h1 _ (ioNow_mem hs) h

theorem not_ioAnswers {s : State} (h : s.tick.ioNow = .never) : ¬ IoAnswers s := by
  rintro ⟨h1, h2⟩
  by_cases hs : s.io = []
  · rcases h2 with h2 | h2 <;> rw [ioNow_rest hs h2] at h <;> cases h
  · exact h1 _ (ioNow_mem hs) h

theorem resets_of_resetDue {s : State} (h : s.resetDue = true) : s.resets ≠ [] := by
  intro h'; simp [State.resetDue, h'] at h

/-- How one micro-operation of a command can end. -/
theorem stepOp_ends {o : Opcode} {op : MicroOp} (h : allowed o op = true) (s : State) :
    Ends o s (stepOp op s) := by
  have hparts : ∀ t, runState (stepOp op s) = some t → (writesSram o = false → t.mem = s.mem) →
      (∃ k, t.io = s.io.drop k) → (s.resets = [] → t.resets = []) → Reaches o s t :=
    fun t ht h2 h4 h5 => reaches_of_parts (stepOp_sequencerPart ht) h2 (fun hm => stepOp_mem_wf hm ht) h4 h5
  cases op with
  | bitcnt i => exact hparts _ rfl (fun _ => rfl) ⟨0, rfl⟩ id
  | wait d =>
    cases hd : s.resetDue with
    | true =>
      have e : stepOp (.wait d) s = .cut s := by simp [stepOp, wait, hd]
      rw [e]
      exact ⟨Reaches.refl o s, resets_of_resetDue hd, hd⟩
    | false =>
      have e : stepOp (.wait d) s = .done [] s.tick := by simp [stepOp, wait, hd]
      rw [e] at hparts ⊢
      exact hparts _ rfl (fun _ => rfl) ⟨0, rfl⟩ (fun hr => by simp [State.tick, hr, countDown])
  | drive r on =>
    cases r with
    | rdSer => cases h
    | out r =>
      have hw : writesSram o = false → r ≠ .wrClk ∨ on = false := by
        intro hw
        by_cases hr : r = .wrClk
        · subst hr
          cases on with
          | false => exact .inr rfl
          | true => simp only [allowed] at h; rw [hw] at h; cases h
        · exact .inl hr
      rcases drive_cases r on s with ⟨hd, h'⟩ | ⟨-, -, h'⟩ | ⟨-, hf, h'⟩ | ⟨-, hn, h'⟩ <;>
        simp only [stepOp, h'] at hparts ⊢
      · exact ⟨Reaches.refl o s, resets_of_resetDue hd, hd⟩
      · exact hparts _ rfl (fun x => by rw [driveOk_mem (hw x)]; simp) ⟨1, by simp [ioUsed_io]⟩
          (fun hr => by simp [State.tick, hr, countDown])
      · exact ⟨hparts _ rfl (fun _ => by simp) ⟨1, by simp [ioUsed_io]⟩
          (fun hr => by simp [State.tick, hr, countDown]), not_ioNoFail hf⟩
      · exact ⟨hparts _ rfl (fun _ => by simp) ⟨1, by simp [ioUsed_io]⟩
          (fun hr => by simp [State.tick, hr, countDown]), not_ioAnswers hn⟩
  | sample r =>
    cases r with
    | out r => cases h
    | rdSer =>
      rcases sample_cases s with ⟨hd, h'⟩ | ⟨-, -, h'⟩ | ⟨-, hf, h'⟩ | ⟨-, hn, h'⟩ <;>
        simp only [stepOp, h'] at hparts ⊢
      · exact ⟨Reaches.refl o s, resets_of_resetDue hd, hd⟩
      · rcases sampleOk_cases s.tick.ioUsed with ⟨b, -, h''⟩ | ⟨-, h''⟩ <;> rw [h''] at hparts ⊢
        · exact hparts _ rfl (fun _ => by simp) ⟨1, by simp [ioUsed_io]⟩
            (fun hr => by simp [State.tick, hr, countDown])
        · exact hparts _ rfl (fun _ => by simp) ⟨1, by simp [ioUsed_io]⟩
            (fun hr => by simp [State.tick, hr, countDown])
      · exact ⟨hparts _ rfl (fun _ => by simp) ⟨1, by simp [ioUsed_io]⟩
          (fun hr => by simp [State.tick, hr, countDown]), not_ioNoFail hf⟩
      · exact ⟨hparts _ rfl (fun _ => by simp) ⟨1, by simp [ioUsed_io]⟩
          (fun hr => by simp [State.tick, hr, countDown]), not_ioAnswers hn⟩

theorem runOps_ends {o : Opcode} {ops : List MicroOp} (h : ∀ op ∈ ops, allowed o op = true) (s : State) :
    Ends o s (runOps ops s) := by
  induction ops generalizing s with
  | nil => exact Reaches.refl o s
  | cons op ops ih =>
    rw [runOps_cons]
    refine Ends.bind (stepOp_ends (h op List.mem_cons_self) s) fun bs t _ => ?_
    exact Ends.bind (ih (fun o ho => h o (List.mem_cons_of_mem _ ho)) t) fun cs u _ => Reaches.refl o u

/-- The two engines: the run hangs only where an operation is never answered, and fails only where one fails. -/
theorem runPar_ends {o : Opcode} {ops : List (Chain × MicroOp)} (h : ∀ p ∈ ops, allowed o p.2 = true)
    {ea ed : Engine} {s₀ s : State} (hs : Reaches o s₀ s) (ha : ea = .failed ∨ ed = .failed → ¬ IoNoFail s₀)
    (hd : ea = .stuck ∨ ed = .stuck → ¬ IoAnswers s₀) : Ends o s₀ (runPar ops ea ed s) := by
  induction ops generalizing s ea ed with
  | nil =>
    simp only [runPar, barrier]
    split
    · rename_i hb; exact ⟨hs, hd hb⟩
    · split
      · rename_i hb; exact ⟨hs, ha hb⟩
      · exact hs
  | cons p ops ih =>
    obtain ⟨c, op⟩ := p
    have hop := stepOp_ends (h _ List.mem_cons_self) s
    have hrest : ∀ p ∈ ops, allowed o p.2 = true := fun p hp => h p (List.mem_cons_of_mem _ hp)
    cases c <;> simp only [runPar] <;> split
    all_goals first
      | exact ih hrest hs ha hd
      | (rename_i he
         simp only at hop
         split <;> rename_i hs' <;> rw [hs'] at hop
         · exact ih hrest (hs.trans hop) (fun x => ha (by simpa [he] using x)) (fun x => hd (by simpa [he] using x))
         · exact ih hrest (hs.trans hop.1) (fun _ k => hop.2 (hs.ioNoFail k)) (fun x => hd (by simpa [he] using x))
         · exact ih hrest (hs.trans hop.1) (fun x => ha (by simpa [he] using x)) (fun _ k => hop.2 (hs.ioAnswers k))
         · exact ⟨hs.trans hop.1, fun k => hop.2.1 (hs.resets k), hop.2.2⟩
         · exact hop)

/-! ## The sequences -/

theorem allowed_of_engineOp {o : Opcode} {c : Chain} {op : MicroOp} (h : engineOp c op = true) :
    allowed o op = true := by
  cases op with
  | bitcnt i => rfl
  | wait d => rfl
  | sample r => cases h
  | drive r on =>
    cases r with
    | rdSer => cases h
    | out r => cases c <;> cases r <;> cases on <;> first | rfl | cases h

theorem writeSeq_ends {o : Opcode} (ho : writesSram o = true) (a : Addr) (d : Data) (s : State) :
    Ends o s (writeSeq a d s) := by
  unfold writeSeq
  refine Ends.bind ?_ fun bs t _ => runOps_ends ?_ t
  · unfold par
    have hr : Reaches o s (s.withSched (s.sched.drop ((shiftOps .addr a).length + (shiftOps .data d).length))) :=
      { Reaches.refl o s with sched := fun h => by rw [ho] at h; cases h }
    refine runPar_ends ?_ hr (by simp) (by simp)
    intro p hp
    have := (interleave_perm _ _ _).mem_iff.1 (List.mem_map_of_mem (f := Prod.snd) hp)
    rcases List.mem_append.1 this with h | h
    · exact allowed_of_engineOp (engineOp_shift .addr a _ h)
    · exact allowed_of_engineOp (engineOp_shift .data d _ h)
  · intro op h
    simp only [writeStrobeOps, pulseOps, List.cons_append, List.nil_append, List.mem_cons, List.not_mem_nil,
      or_false] at h
    rcases h with rfl | rfl | rfl | rfl | rfl | rfl | rfl | rfl | rfl <;> first | rfl | exact ho

theorem allowed_read (o : Opcode) (a : Addr) : ∀ op ∈ readOps a, allowed o op = true := by
  intro op h
  rw [readOps_eq] at h
  rcases List.mem_append.1 h with h | h
  · rcases List.mem_cons.1 h with rfl | h
    · rfl
    · rcases List.mem_append.1 h with h | h
      · exact allowed_of_engineOp (engineOp_shift .addr a op h)
      · rcases List.mem_singleton.1 h with rfl; rfl
  · simp only [List.mem_append, List.mem_cons, List.not_mem_nil, or_false] at h
    rcases h with rfl | (rfl | rfl) | h
    · rfl
    · rfl
    · rfl
    · rcases List.mem_append.1 h with h | h
      · simp only [List.mem_cons, List.not_mem_nil, or_false] at h
        rcases h with rfl | rfl <;> rfl
      · obtain ⟨j, -, h⟩ := List.mem_flatMap.1 h
        simp only [sampleBitOps, pulseOps, List.mem_append, List.mem_cons, List.not_mem_nil, or_false] at h
        rcases h with rfl | (rfl | rfl | rfl) | rfl | rfl | rfl <;> rfl

/-- A change of the working registers alone. -/
theorem reaches_registers {o : Opcode} (s : State) (acc : Val Data) (ckacc : Val Byte) (bitcnt : Val (BitVec 5))
    (idx : Val (BitVec 17)) : Reaches o s { s with acc := acc, ckacc := ckacc, bitcnt := bitcnt, idx := idx } :=
  { Reaches.refl o s with }

theorem readSeq_ends (o : Opcode) (a : Addr) (s : State) : Ends o s (readSeq a s) :=
  Ends.bind (runOps_ends (allowed_read o a) s) fun bits t _ =>
    reaches_registers t (.known (assemble bits)) t.ckacc t.bitcnt t.idx

theorem pulseProgress_ends {o : Opcode} (ho : reportsProgress o = true) (s : State) :
    Ends o s (pulseProgress s) := by
  unfold pulseProgress
  cases hd : s.resetDue with
  | true => exact ⟨Reaches.refl o s, resets_of_resetDue hd, hd⟩
  | false =>
    exact { Reaches.refl o s with
      progress := fun h => by rw [ho] at h; cases h
      resets := fun h => by simp [State.tick, h, countDown] }

theorem dumpLoop_ends (i : Nat) (m : Mapping) (records : List Record) (s : State) :
    Ends .dump s (dumpLoop i m records s) := by
  induction records generalizing i m s with
  | nil => exact Reaches.refl _ s
  | cons r rs ih =>
    refine Ends.of_reaches (u := withIdx i s) (reaches_registers s s.acc s.ckacc s.bitcnt _) ?_
    exact Ends.bind (writeSeq_ends rfl r.addr r.data _) fun _ t _ =>
      Ends.bind (pulseProgress_ends rfl t) fun _ u _ => ih _ _ u

theorem allowed_blink (o : Opcode) : ∀ op ∈ blinkOps, allowed o op = true := by
  intro op h
  simp only [blinkOps, List.mem_cons, List.not_mem_nil, or_false] at h
  rcases h with rfl | rfl | rfl | rfl | rfl | rfl | rfl <;> rfl

theorem allowed_clear (o : Opcode) (c : Chain) : ∀ op ∈ clearOps c, allowed o op = true := by
  intro op h
  simp only [clearOps, pulseOps, List.mem_cons, List.not_mem_nil, or_false] at h
  rcases h with rfl | rfl | rfl <;> cases c <;> rfl

theorem verifyLoop_ends (bc rt : Byte) (i : Nat) (lines : List Line) (entries : List Entry) (s : State) :
    Ends .verify s (verifyLoop bc rt i lines entries s) := by
  induction entries generalizing i lines s with
  | nil =>
    unfold verifyLoop verifyEnd
    split
    · exact Ends.bind (runOps_ends (allowed_blink _) s) fun _ t _ => Reaches.refl _ t
    · exact Reaches.refl _ s
  | cons e es ih =>
    refine Ends.of_reaches (u := withIdx i s) (reaches_registers s s.acc s.ckacc s.bitcnt _) ?_
    refine Ends.bind (readSeq_ends _ e.addr _) fun d t _ => ?_
    refine Ends.of_reaches (u := withChecksum (canon bc e.addr rt d) t)
      (reaches_registers t t.acc _ t.bitcnt t.idx) ?_
    exact Ends.bind (pulseProgress_ends rfl _) fun _ u _ => ih _ _ u

theorem bulkLoop_ends (l u : Addr) (n i : Nat) (values : List Word) (s : State) :
    Ends .bulkRead s (bulkLoop l u n i values s) := by
  induction n generalizing i values s with
  | zero => exact Reaches.refl _ s
  | succ n ih =>
    refine Ends.of_reaches (u := withIdx i s) (reaches_registers s s.acc s.ckacc s.bitcnt _) ?_
    exact Ends.bind (readSeq_ends _ _ _) fun _ t _ =>
      Ends.bind (pulseProgress_ends rfl t) fun _ v _ => ih _ _ v

/-! ## Every command -/

/-- The work of a command, after admission. -/
def workOf : Instr → State → Run (List Word) (List Word)
  | .clrAddr _ => fun t => (runOps (clearOps .addr) t).bind [] fun _ u => .done [] { u with clra := true }
  | .clrData _ => fun t => (runOps (clearOps .data) t).bind [] fun _ u => .done [] { u with clrd := true }
  | .write _ a _ d => fun t => (writeSeq a d t).bind [] fun _ u => .done [] u
  | .read _ a => fun t => (readSeq a t).bind [] fun d u => .done [d.setWidth 32] u
  | .dump _ records => dumpLoop 0 [] records
  | .verify _ bc rt _ entries => verifyLoop bc rt 0 [] entries
  | .bulkRead _ l _ u => bulkLoop l u (windowSize l u) 0 []
  | .checksum _ bytes _ => fun t => .done [(ck8 bytes).setWidth 32] (withChecksum bytes t)
  | .lowerMargin _ a => fun t => .done [(lowerMargin a).setWidth 32] t
  | .upperMargin _ a => fun t => .done [(upperMargin a).setWidth 32] t

/-- Every command is admission, then its work, then its end (30_encoding.md R81). -/
theorem exec_eq (i : Instr) (s : State) : exec i s = perform i (workOf i) s := by cases i <;> rfl

theorem workOf_ends (i : Instr) (s : State) : Ends i.opcode s (workOf i s) := by
  cases i with
  | clrAddr rsv =>
    exact Ends.bind (runOps_ends (allowed_clear _ _) s) fun _ t _ =>
      { Reaches.refl _ t with clra := fun h => absurd rfl h }
  | clrData rsv =>
    exact Ends.bind (runOps_ends (allowed_clear _ _) s) fun _ t _ =>
      { Reaches.refl _ t with clrd := fun h => absurd rfl h }
  | write rsv0 a rsv1 d => exact Ends.bind (writeSeq_ends rfl a d s) fun _ t _ => Reaches.refl _ t
  | read rsv a => exact Ends.bind (readSeq_ends _ a s) fun _ t _ => Reaches.refl _ t
  | dump rsv records => exact dumpLoop_ends 0 [] records s
  | verify rsv0 bc rt rsv1 entries => exact verifyLoop_ends bc rt 0 [] entries s
  | bulkRead rsv0 l rsv1 u => exact bulkLoop_ends l u _ 0 [] s
  | checksum rsv bytes pad => exact reaches_registers s s.acc _ s.bitcnt s.idx
  | lowerMargin rsv a => exact Reaches.refl _ s
  | upperMargin rsv a => exact Reaches.refl _ s

/-- How every command's execution goes on: refused at admission, or its work done to one of its ends. -/
theorem exec_cases (i : Instr) (s : State) :
    (∃ st, admission i s = some st ∧ exec i s = respond i.opcode.byte st [] s) ∨
    (admission i s = none ∧
      Ends i.opcode (latchOperands i.opcode.byte i s) (workOf i (latchOperands i.opcode.byte i s)) ∧
      exec i s = conclude i.opcode.byte (workOf i (latchOperands i.opcode.byte i s))) := by
  rw [exec_eq]
  cases h : admission i s with
  | some st => exact .inl ⟨st, rfl, perform_refused h _⟩
  | none => exact .inr ⟨rfl, workOf_ends i _, perform_admitted h _⟩

theorem opcode_byte (i : Instr) : i.opcode.byte = BitVec.ofNat 8 (opcodeNumber i) := by cases i <;> rfl

/-- What decode's writes leave (30_encoding.md R73). -/
theorem latchOperands_keeps (opc : Byte) (i : Instr) (s : State) :
    latchOperands opc i s =
      { s with
        opc := .known opc, opa := (latchOperands opc i s).opa, opb := (latchOperands opc i s).opb
        opd := (latchOperands opc i s).opd, bc := (latchOperands opc i s).bc, rt := (latchOperands opc i s).rt } := by
  cases i <;> rfl

/-- The state a command's work begins in. -/
def started (i : Instr) (s : State) : State := latchOperands i.opcode.byte i s

/-- The state after a whole response of which `rs` is what is left of the reset input. -/
def respondedTo (i : Instr) (status : Byte) (payload : List Word) (rs : List Nat) (s : State) : State :=
  { s with
    out := s.out ++ headerWord i.opcode.byte status s.ioerr s.clrd s.clra :: payload, micro := 0, resets := rs }

/-- Every way a command's execution can end in a next state. -/
inductive Ending (i : Instr) (s : State) : State → Prop where
  /-- refused at admission (60_exceptions.md R202) -/
  | refused (st : Status) (rs : List Nat) (ha : admission i s = some st) (hr : s.resets = [] → rs = []) :
    Ending i s (respondedTo i (statusCode st) [] rs s)
  /-- ended OK -/
  | finished (p : List Word) (u : State) (rs : List Nat) (ha : admission i s = none)
    (hw : workOf i (started i s) = .done p u) (hu : Reaches i.opcode (started i s) u)
    (hr : s.resets = [] → rs = []) : Ending i s (respondedTo i 0 p rs u)
  /-- ended by a transport failure (60_exceptions.md R203) -/
  | failed (p : List Word) (u : State) (rs : List Nat) (ha : admission i s = none)
    (hw : workOf i (started i s) = .failed p u) (hu : Reaches i.opcode (started i s) u) (hf : ¬ IoNoFail s)
    (hr : s.resets = [] → rs = []) : Ending i s (respondedTo i 4 p rs (transportFailure u))
  /-- never ends (60_exceptions.md R204) -/
  | hung (u : State) (ha : admission i s = none) (hw : workOf i (started i s) = .hung u)
    (hu : Reaches i.opcode (started i s) u) (hn : ¬ IoAnswers s) : Ending i s { u with phase := .hung }
  /-- cut off by a reset while refused -/
  | cutRefused (m : Nat) (rs : List Nat) (hr : s.resets ≠ []) :
    Ending i s (blockReset (.known i.opcode.byte) { s with micro := m, resets := rs })
  /-- cut off by a reset during the work, or during the response after it -/
  | cut (u : State) (m : Nat) (rs : List Nat) (sent : List Word) (ha : admission i s = none)
    (hu : Reaches i.opcode (started i s) u) (hr : s.resets ≠ [])
    (hs : sent = [] ∨ ∃ p k, workOf i (started i s) = .done p u ∧ k < p.length + 1 ∧
      sent = (headerWord i.opcode.byte 0 u.ioerr u.clrd u.clra :: p).take k) :
    Ending i s (blockReset (.known i.opcode.byte) { u with out := u.out ++ sent, micro := m, resets := rs })
  /-- cut off by a reset during the response to a transport failure -/
  | cutFailed (u : State) (m : Nat) (rs : List Nat) (sent : List Word) (ha : admission i s = none)
    (hu : Reaches i.opcode (started i s) u) (hf : ¬ IoNoFail s) (hr : s.resets ≠ [])
    (hs : ∃ ws k, sent = (headerWord i.opcode.byte 4 true false false :: ws).take k) :
    Ending i s (blockReset (.known i.opcode.byte)
      { transportFailure u with out := u.out ++ sent, micro := m, resets := rs })

@[simp] theorem started_resets (i : Instr) (s : State) : (started i s).resets = s.resets := by
  rw [started, latchOperands_keeps]

@[simp] theorem started_words (i : Instr) (s : State) : (started i s).words = s.words := by
  rw [started, latchOperands_keeps]

@[simp] theorem started_rx (i : Instr) (s : State) : (started i s).rx = s.rx := by
  rw [started, latchOperands_keeps]

@[simp] theorem started_out (i : Instr) (s : State) : (started i s).out = s.out := by
  rw [started, latchOperands_keeps]

@[simp] theorem started_progress (i : Instr) (s : State) : (started i s).progress = s.progress := by
  rw [started, latchOperands_keeps]

@[simp] theorem started_io (i : Instr) (s : State) : (started i s).io = s.io := by
  rw [started, latchOperands_keeps]

@[simp] theorem started_ioRest (i : Instr) (s : State) : (started i s).ioRest = s.ioRest := by
  rw [started, latchOperands_keeps]

@[simp] theorem started_sched (i : Instr) (s : State) : (started i s).sched = s.sched := by
  rw [started, latchOperands_keeps]

@[simp] theorem started_cmdPtr (i : Instr) (s : State) : (started i s).cmdPtr = s.cmdPtr := by
  rw [started, latchOperands_keeps]

@[simp] theorem started_phase (i : Instr) (s : State) : (started i s).phase = s.phase := by
  rw [started, latchOperands_keeps]

@[simp] theorem started_clra (i : Instr) (s : State) : (started i s).clra = s.clra := by
  rw [started, latchOperands_keeps]

@[simp] theorem started_clrd (i : Instr) (s : State) : (started i s).clrd = s.clrd := by
  rw [started, latchOperands_keeps]

@[simp] theorem started_ioerr (i : Instr) (s : State) : (started i s).ioerr = s.ioerr := by
  rw [started, latchOperands_keeps]

@[simp] theorem started_pins (i : Instr) (s : State) : (started i s).pins = s.pins := by
  rw [started, latchOperands_keeps]

@[simp] theorem started_sa (i : Instr) (s : State) : (started i s).sa = s.sa := by
  rw [started, latchOperands_keeps]

@[simp] theorem started_oa (i : Instr) (s : State) : (started i s).oa = s.oa := by
  rw [started, latchOperands_keeps]

@[simp] theorem started_sd (i : Instr) (s : State) : (started i s).sd = s.sd := by
  rw [started, latchOperands_keeps]

@[simp] theorem started_od (i : Instr) (s : State) : (started i s).od = s.od := by
  rw [started, latchOperands_keeps]

@[simp] theorem started_q (i : Instr) (s : State) : (started i s).q = s.q := by
  rw [started, latchOperands_keeps]

@[simp] theorem started_mem (i : Instr) (s : State) : (started i s).mem = s.mem := by
  rw [started, latchOperands_keeps]

@[simp] theorem started_draws (i : Instr) (s : State) : (started i s).draws = s.draws := by
  rw [started, latchOperands_keeps]

theorem started_ioNoFail {i : Instr} {s : State} : IoNoFail (started i s) ↔ IoNoFail s := by
  rw [started, latchOperands_keeps]

theorem started_ioAnswers {i : Instr} {s : State} : IoAnswers (started i s) ↔ IoAnswers s := by
  rw [started, latchOperands_keeps]

theorem exec_ending (i : Instr) (s : State) : ∃ t, exec i s = .next t ∧ Ending i s t := by
  rcases exec_cases i s with ⟨st, ha, h⟩ | ⟨ha, he, h⟩
  · rcases respond_cases i.opcode.byte st [] s with ⟨rs, hr, h'⟩ | ⟨k, m, rs, hr, hk, h'⟩
    · exact ⟨_, h.trans h', .refused st rs ha hr⟩
    · refine ⟨_, h.trans h', ?_⟩
      have hk0 : k = 0 := by simpa using hk
      subst hk0
      have e := Ending.cutRefused (i := i) (s := s) m rs hr
      simpa using e
  · rw [h]
    change Ends _ (started i s) (workOf i (started i s)) at he
    change ∃ t, conclude _ (workOf i (started i s)) = _ ∧ _
    have hs := started_resets i s
    cases hw : workOf i (started i s) with
    | done p u =>
      rw [hw] at he
      have hu : Reaches _ _ u := he
      rcases respond_cases i.opcode.byte .ok p u with ⟨rs, hr, h'⟩ | ⟨k, m, rs, hr, hk, h'⟩
      · exact ⟨_, h', .finished p u rs ha hw hu fun x => hr (hu.resets (hs.trans x))⟩
      · exact ⟨_, h', .cut u m rs _ ha hu (fun x => hr (hu.resets (hs.trans x)))
          (.inr ⟨p, k, hw, hk, rfl⟩)⟩
    | failed p u =>
      rw [hw] at he
      have hf : ¬ IoNoFail s := fun x => he.2 (started_ioNoFail.2 x)
      rcases respond_cases i.opcode.byte .transportError p (transportFailure u) with
        ⟨rs, hr, h'⟩ | ⟨k, m, rs, hr, -, h'⟩
      · exact ⟨_, h', .failed p u rs ha hw he.1 hf fun x => hr (he.1.resets (hs.trans x))⟩
      · exact ⟨_, h', .cutFailed u m rs _ ha he.1 hf (fun x => hr (he.1.resets (hs.trans x))) ⟨p, k, rfl⟩⟩
    | hung u =>
      rw [hw] at he
      exact ⟨_, rfl, .hung u ha hw he.1 fun x => he.2 (started_ioAnswers.2 x)⟩
    | cut u =>
      rw [hw] at he
      refine ⟨_, rfl, ?_⟩
      have e := Ending.cut (i := i) (s := s) u u.micro u.resets [] ha he.1 (fun x => he.2.1 (hs.trans x)) (.inl rfl)
      simpa using e
    | fault f => rw [hw] at he; exact he.elim

theorem ending_of_exec {i : Instr} {s t : State} (h : exec i s = .next t) : Ending i s t := by
  obtain ⟨t', h', he⟩ := exec_ending i s
  rw [h'] at h
  cases h
  exact he

theorem statusCode_ok {a : Status} (h : statusCode a = 0) : a = .ok := by
  cases a <;> first | rfl | (revert h; decide)

theorem admission_ne_ok {i : Instr} {s : State} {st : Status} (h : admission i s = some st) : st ≠ .ok := by
  rintro rfl
  unfold admission at h
  split at h
  · cases h
  · split at h
    · cases h
    · split at h <;> cases h

/-- A command that ended OK had its work done, with this payload, and was answered whole. -/
theorem endsOk_work {i : Instr} {s t : State} {payload : List Word} (h : exec i s = .next t)
    (he : EndsOk i.opcode.byte payload s t)
    (hp : needsAddrChain i.opcode = true ∨ i.opcode = .clrAddr ∨ i.opcode = .clrData) :
    ∃ u rs, admission i s = none ∧ workOf i (started i s) = .done payload u ∧ t = respondedTo i 0 payload rs u := by
  unfold EndsOk at he
  rw [header_eq] at he
  cases ending_of_exec h with
  | refused st rs ha hr =>
    have h1 := List.append_cancel_left he
    simp only [List.cons.injEq] at h1
    exact absurd (statusCode_ok (headerWord_inj h1.1).2.1) (admission_ne_ok ha)
  | finished p u rs ha hw hu hr =>
    simp only [respondedTo, hu.out, started_out] at he
    have h1 := List.append_cancel_left he
    simp only [List.cons.injEq] at h1
    obtain rfl := h1.2
    exact ⟨u, rs, ha, hw, rfl⟩
  | failed p u rs ha hw hu hf hr =>
    simp only [respondedTo, transportFailure, hu.out, started_out] at he
    have h1 := List.append_cancel_left he
    simp only [List.cons.injEq] at h1
    exact absurd (headerWord_inj h1.1).2.1 (by decide)
  | hung u ha hw hu hn =>
    simp only [hu.out, started_out] at he
    simp at he
  | cutRefused m rs hr => simp [blockReset] at he
  | cut u m rs sent ha hu hr hs =>
    simp only [blockReset, hu.out, started_out] at he
    have h1 := List.append_cancel_left he
    rcases hs with rfl | ⟨p, k, hw, hk, rfl⟩
    · cases h1
    · cases k with
      | zero => cases h1
      | succ k =>
        rw [List.take_succ_cons, List.cons.injEq] at h1
        rcases hp with hp | hp | hp
        · have h2 := (headerWord_inj h1.1).2.2.2.2
          have h3 : i.opcode ≠ .clrAddr := by intro h4; rw [h4] at hp; cases hp
          rw [hu.clra h3, started_clra] at h2
          have h5 := (admission_none.1 ha).2.2
          simp [chainsCleared, hp, h2] at h5
        · cases i <;> cases hp
          obtain ⟨_, _, _, h4⟩ := Run.bind_eq_done.1 hw
          cases h4
          simp at hk
        · cases i <;> cases hp
          obtain ⟨_, _, _, h4⟩ := Run.bind_eq_done.1 hw
          cases h4
          simp at hk
  | cutFailed u m rs sent ha hu hf hr hs =>
    simp only [blockReset] at he
    rw [hu.out, started_out] at he
    have h1 := List.append_cancel_left he
    obtain ⟨ws, k, rfl⟩ := hs
    cases k with
    | zero => cases h1
    | succ k =>
      rw [List.take_succ_cons, List.cons.injEq] at h1
      exact absurd (headerWord_inj h1.1).2.1 (by decide)

end Sys2Proof.Machine
end

