-- ==== Sys2Proof/Laws/Effect.lean ====
section
/-! SUPPORT. What the work of every command leaves when it ends, whatever the I/O layer answered (43_memory_driver.md R144 and R146, 44_batch.md R161, R163, R170). -/

namespace Sys2Proof.Machine

/-! ## The two sequences -/

/-- `WriteSeq` that ran to its end: the state it leaves (43_memory_driver.md R144). -/
theorem writeSeq_effect {a : Addr} {d : Data} {s t : State} {bs : List Bool} (hq : Quiet s)
    (h : writeSeq a d s = .done bs t) :
    t = { s with
          mem := Memory.set s.mem a.toNat d
          sa := bitsOf a, oa := bitsOf a, sd := bitsOf d, od := bitsOf d, sched := t.sched
          micro := t.micro, resets := t.resets, io := t.io, draws := t.draws, bitcnt := t.bitcnt } := by
  have e := eq_of_devicePart (t := t)
    (u := memBecomes (Memory.set s.mem a.toNat d)
      (dataHolds d (addrHolds a (s.withSched (s.sched.drop (writeShiftSteps a d))))))
    ((writeSeq_device hq h).trans rfl)
  have es : t.sched = s.sched.drop (writeShiftSteps a d) := by rw [e]; rfl
  rw [es]
  exact e

/-- `ReadSeq` that ran to its end: the state it leaves, and its answer (43_memory_driver.md R146). -/
theorem readSeq_effect {a : Addr} {d : Data} {s t : State} (hq : Quiet s) (h : readSeq a s = .done d t) :
    (∀ v, Memory.read s.mem a.toNat = .known v → d = v) ∧
    t = { s with
          sa := bitsOf a, oa := bitsOf a, q := clockedOut 23 d, acc := .known d, bitcnt := .known 23
          micro := t.micro, resets := t.resets, io := t.io, draws := t.draws } := by
  obtain ⟨⟨n, hd, -⟩, hdev, -, hb, -⟩ := readSeq_done hq h
  refine ⟨fun v hv => by rw [hd, readValue, hv], ?_⟩
  have e := eq_of_devicePart (t := t) (u := withQ (clockedOut 23 d) { addrHolds a s with acc := .known d })
    (hdev.trans rfl)
  rw [hb] at e
  exact e.trans (by simp only [withQ, addrHolds])

theorem pulseProgress_done {s t : State} (h : pulseProgress s = .done () t) :
    t = { s with progress := s.progress + 1, micro := t.micro, resets := t.resets } := by
  unfold pulseProgress at h
  split at h
  · cases h
  · cases h; rfl

/-! ## The loops -/

/-- What a batch leaves of a chain: known stages, or those it found. -/
def ChainKept {n : Nat} (v w : Bits n) : Prop := w = v ∨ AllKnown w

theorem ChainKept.refl {n : Nat} (v : Bits n) : ChainKept v v := .inl rfl

theorem ChainKept.of_known {n : Nat} {u v w : Bits n} (h : AllKnown v) (k : ChainKept v w) : ChainKept u w :=
  k.elim (fun e => .inr (e ▸ h)) .inr

/-- DUMP's loop that ran to its end. -/
theorem dumpLoop_effect {i : Nat} {m : Mapping} {records : List Record} {s t : State} {p : List Word} (hq : Quiet s)
    (h : dumpLoop i m records s = .done p t) :
    p = dumpPayload (records.foldl (fun m r => mapPut m r.addr r.ck) m) ∧
    t = { s with
          mem := records.foldl (fun m r => Memory.set m r.addr.toNat r.data) s.mem
          progress := s.progress + records.length
          sa := t.sa, oa := t.oa, sd := t.sd, od := t.od, bitcnt := t.bitcnt, idx := t.idx, sched := t.sched
          micro := t.micro, resets := t.resets, io := t.io, draws := t.draws } ∧
    ChainKept s.sa t.sa ∧ ChainKept s.sd t.sd := by
  induction records generalizing i m s with
  | nil => cases h; exact ⟨rfl, rfl, .refl _, .refl _⟩
  | cons r rs ih =>
    obtain ⟨bs, u, h1, h2⟩ := Run.bind_eq_done.1 h
    obtain ⟨⟨⟩, v, h3, h4⟩ := Run.bind_eq_done.1 h2
    have hqi : Quiet (withIdx i s) := hq
    have e1 := writeSeq_effect hqi h1
    have e2 := pulseProgress_done h3
    have hqu : Quiet u := by rw [e1]; exact hq
    have hqv : Quiet v := by rw [e2]; exact hqu
    obtain ⟨hp, ht, ka, kd⟩ := ih hqv h4
    have esa : v.sa = bitsOf r.addr := by rw [e2, e1]
    have esd : v.sd = bitsOf r.data := by rw [e2, e1]
    refine ⟨hp, ht.trans ?_, .of_known (esa ▸ allKnown_bitsOf r.addr) ka, .of_known (esd ▸ allKnown_bitsOf r.data) kd⟩
    rw [e2, e1]
    simp only [List.foldl_cons, List.length_cons, Nat.add_assoc, Nat.add_comm 1]
    rfl

/-- BULK_READ's loop that ran to its end. -/
theorem bulkLoop_effect {l u : Addr} {n i : Nat} {values : List Word} {s t : State} {p : List Word} (hq : Quiet s)
    (h : bulkLoop l u n i values s = .done p t) :
    (∃ data : List Data, data.length = n ∧
      p = bulkPayload l u (values ++ List.zipWith (valueWord l u)
        ((List.range' i n).map fun j => lowerMargin l + BitVec.ofNat 16 j) data) ∧
      ∀ q ∈ List.zip ((List.range' i n).map fun j => lowerMargin l + BitVec.ofNat 16 j) data, ∀ d,
        Memory.read s.mem q.1.toNat = .known d → q.2 = d) ∧
    t = { s with
          progress := s.progress + n
          sa := t.sa, oa := t.oa, q := t.q, acc := t.acc, bitcnt := t.bitcnt, idx := t.idx
          micro := t.micro, resets := t.resets, io := t.io, draws := t.draws } ∧
    ChainKept s.sa t.sa := by
  induction n generalizing i values s with
  | zero =>
    cases h
    exact ⟨⟨[], rfl, by simp, by simp⟩, rfl, .refl _⟩
  | succ n ih =>
    obtain ⟨d, w, h1, h2⟩ := Run.bind_eq_done.1 h
    obtain ⟨⟨⟩, v, h3, h4⟩ := Run.bind_eq_done.1 h2
    have hqi : Quiet (withIdx i s) := hq
    obtain ⟨hd, e1⟩ := readSeq_effect hqi h1
    have e2 := pulseProgress_done h3
    have hqw : Quiet w := by rw [e1]; exact hq
    have hqv : Quiet v := by rw [e2]; exact hqw
    obtain ⟨⟨data, hl, hp, hm⟩, ht, ka⟩ := ih hqv h4
    have em : v.mem = s.mem := by rw [e2, e1]; rfl
    have esa : v.sa = bitsOf (lowerMargin l + BitVec.ofNat 16 i) := by rw [e2, e1]
    refine ⟨⟨d :: data, by simp [hl], ?_, ?_⟩, ht.trans ?_, .of_known (esa ▸ allKnown_bitsOf _) ka⟩
    · rw [hp, List.range'_succ, List.map_cons, List.zipWith_cons_cons, List.append_assoc]; rfl
    · rw [em] at hm
      rw [List.range'_succ, List.map_cons, List.zip_cons_cons]
      intro q hq d' hd'
      rcases List.mem_cons.1 hq with rfl | hq
      · exact hd d' hd'
      · exact hm q hq d' hd'
    · rw [e2, e1]
      simp only [Nat.add_assoc, Nat.add_comm 1]
      rfl

theorem verifyEnd_effect {lines : List Line} {s t : State} {p : List Word} (hq : Quiet s)
    (h : verifyEnd lines s = .done p t) :
    p = verifyPayload (lines.all linePass) (lines.all linePass) lines ∧
    t = { s with micro := t.micro, resets := t.resets, io := t.io, draws := t.draws, bitcnt := t.bitcnt } := by
  unfold verifyEnd at h
  split at h
  · rename_i ha
    obtain ⟨bs, u, h1, h2⟩ := Run.bind_eq_done.1 h
    cases h2
    have hqd : Quiet (devicePart s) := hq
    obtain ⟨-, e, -⟩ := runOps_plain (u := s) hq plain_blink (devRun_blink hqd) h1
    exact ⟨by rw [ha], eq_of_devicePart e⟩
  · rename_i ha
    cases h
    have ha' : lines.all linePass = false := by simpa using ha
    exact ⟨by rw [ha'], rfl⟩

/-- VERIFY's loop that ran to its end. -/
theorem verifyLoop_effect {bc rt : Byte} {i : Nat} {done : List Line} {entries : List Entry} {s t : State}
    {p : List Word} (hq : Quiet s) (h : verifyLoop bc rt i done entries s = .done p t) :
    (∃ lines : List Line,
      p = verifyPayload ((done ++ lines).all linePass) ((done ++ lines).all linePass) (done ++ lines) ∧
      lines.map (fun l => (l.addr, l.expected)) = entries.map (fun e => (e.addr, e.ck)) ∧
      ∀ l ∈ lines, l.computed = ck8 (canon bc l.addr rt l.data) ∧
        ∀ d, Memory.read s.mem l.addr.toNat = .known d → l.data = d) ∧
    t = { s with
          progress := s.progress + entries.length
          sa := t.sa, oa := t.oa, q := t.q, acc := t.acc, ckacc := t.ckacc, bitcnt := t.bitcnt, idx := t.idx
          micro := t.micro, resets := t.resets, io := t.io, draws := t.draws } ∧
    ChainKept s.sa t.sa := by
  induction entries generalizing i done s with
  | nil =>
    obtain ⟨hp, ht⟩ := verifyEnd_effect hq h
    refine ⟨⟨[], by simpa using hp, rfl, by simp⟩, ?_, .inl (by rw [ht])⟩
    rw [ht]
    simp
  | cons e es ih =>
    obtain ⟨d, w, h1, h2⟩ := Run.bind_eq_done.1 h
    obtain ⟨⟨⟩, v, h3, h4⟩ := Run.bind_eq_done.1 h2
    have hqi : Quiet (withIdx i s) := hq
    obtain ⟨hd, e1⟩ := readSeq_effect hqi h1
    have e2 := pulseProgress_done h3
    have hqw : Quiet w := by rw [e1]; exact hq
    have hqv : Quiet v := by rw [e2]; exact hqw
    obtain ⟨⟨lines, hp, hm, hc⟩, ht, ka⟩ := ih hqv h4
    have em : v.mem = s.mem := by rw [e2, withChecksum, e1]; rfl
    have esa : v.sa = bitsOf e.addr := by rw [e2, withChecksum, e1]
    refine ⟨⟨lineOf bc rt e d :: lines, ?_, ?_, ?_⟩, ht.trans ?_, .of_known (esa ▸ allKnown_bitsOf _) ka⟩
    · rw [hp, List.append_assoc]; rfl
    · rw [List.map_cons, List.map_cons, hm]; rfl
    · intro l hl
      rcases List.mem_cons.1 hl with rfl | hl
      · exact ⟨rfl, hd⟩
      · rw [em] at hc; exact hc l hl
    · rw [e2, withChecksum, e1]
      simp only [List.length_cons, Nat.add_assoc, Nat.add_comm 1]
      rfl

/-! ## Every command -/

theorem clear_addr_effect {s t : State} {bs : List Bool} (hq : Quiet s)
    (h : runOps (clearOps .addr) s = .done bs t) :
    t = { s with
          sa := allZero 16, oa := allBot 16
          micro := t.micro, resets := t.resets, io := t.io, draws := t.draws } := by
  have hqd : Quiet (devicePart s) := hq
  obtain ⟨-, e, -, hb, -⟩ := runOps_plain (u := addrCleared s) hq (plain_clear .addr)
    ((devRun_clear_addr hqd).trans rfl) h
  have e' := eq_of_devicePart e
  rw [hb] at e'
  exact e'

theorem clear_data_effect {s t : State} {bs : List Bool} (hq : Quiet s)
    (h : runOps (clearOps .data) s = .done bs t) :
    t = { s with
          sd := allZero 24, od := allBot 24
          micro := t.micro, resets := t.resets, io := t.io, draws := t.draws } := by
  have hqd : Quiet (devicePart s) := hq
  obtain ⟨-, e, -, hb, -⟩ := runOps_plain (u := dataCleared s) hq (plain_clear .data)
    ((devRun_clear_data hqd).trans rfl) h
  have e' := eq_of_devicePart e
  rw [hb] at e'
  exact e'

/-- The work of a command that ran to its end leaves every output released (10_state.md R39) and the stages of a
chain known or as they were. -/
theorem workOf_done {i : Instr} {s t : State} {p : List Word} (hq : Quiet s) (h : workOf i s = .done p t) :
    Quiet t ∧ ChainKept s.sa t.sa ∧ ChainKept s.sd t.sd := by
  cases i with
  | clrAddr rsv =>
    obtain ⟨bs, u, h1, h2⟩ := Run.bind_eq_done.1 h
    cases h2
    have e := clear_addr_effect hq h1
    refine ⟨?_, .inr ?_, .inl ?_⟩
    · change u.pins = _; rw [e]; exact hq
    · change AllKnown u.sa; rw [e]; exact allKnown_allZero 16
    · change u.sd = _; rw [e]
  | clrData rsv =>
    obtain ⟨bs, u, h1, h2⟩ := Run.bind_eq_done.1 h
    cases h2
    have e := clear_data_effect hq h1
    refine ⟨?_, .inl ?_, .inr ?_⟩
    · change u.pins = _; rw [e]; exact hq
    · change u.sa = _; rw [e]
    · change AllKnown u.sd; rw [e]; exact allKnown_allZero 24
  | write rsv0 a rsv1 d =>
    obtain ⟨bs, u, h1, h2⟩ := Run.bind_eq_done.1 h
    cases h2
    have e := writeSeq_effect hq h1
    refine ⟨?_, .inr ?_, .inr ?_⟩
    · rw [e]; exact hq
    · rw [e]; exact allKnown_bitsOf a
    · rw [e]; exact allKnown_bitsOf d
  | read rsv a =>
    obtain ⟨d, u, h1, h2⟩ := Run.bind_eq_done.1 h
    cases h2
    obtain ⟨-, e⟩ := readSeq_effect hq h1
    refine ⟨?_, .inr ?_, .inl ?_⟩
    · rw [e]; exact hq
    · rw [e]; exact allKnown_bitsOf a
    · rw [e]
  | dump rsv records =>
    obtain ⟨-, e, ka, kd⟩ := dumpLoop_effect hq h
    exact ⟨by rw [e]; exact hq, ka, kd⟩
  | verify rsv0 bc rt rsv1 entries =>
    obtain ⟨-, e, ka⟩ := verifyLoop_effect hq h
    exact ⟨by rw [e]; exact hq, ka, .inl (by rw [e])⟩
  | bulkRead rsv0 l rsv1 u =>
    obtain ⟨-, e, ka⟩ := bulkLoop_effect hq h
    exact ⟨by rw [e]; exact hq, ka, .inl (by rw [e])⟩
  | checksum rsv bytes pad => cases h; exact ⟨hq, .refl _, .refl _⟩
  | lowerMargin rsv a => cases h; exact ⟨hq, .refl _, .refl _⟩
  | upperMargin rsv a => cases h; exact ⟨hq, .refl _, .refl _⟩

end Sys2Proof.Machine
end

