-- ==== Sys2Proof/Laws/Failure.lean ====
section
/-! SUPPORT. Which answers of the I/O layer a run uses up to its first failure, and what a batch answers then (60_exceptions.md R203, 44_batch.md R172). -/

namespace Sys2Proof.Machine

/-! ## Answers used -/

theorem ioNow_head {s : State} {o : IoOutcome} (h : s.io[0]? = some o) : s.tick.ioNow = o := by
  cases hs : s.io with
  | nil => rw [hs] at h; cases h
  | cons x xs => rw [hs] at h; cases h; simp [State.ioNow, State.tick, hs]

/-- A completed micro-operation used an OK, where an answer was listed. -/
theorem stepOp_done_ok {op : MicroOp} {s t : State} {bs : List Bool} (h : stepOp op s = .done bs t) :
    ∀ o ∈ s.io.take (ioTaken op), o = .ok := by
  have key : s.tick.ioNow = .ok → ∀ o ∈ s.io.take 1, o = .ok := by
    intro hk o ho
    cases hs : s.io with
    | nil => rw [hs] at ho; cases ho
    | cons x xs =>
      rw [hs] at ho
      have hx : o = x := by simpa using ho
      rw [hx, ← ioNow_head (s := s) (o := x) (by rw [hs]; rfl)]; exact hk
  cases op with
  | bitcnt i => simp [ioTaken]
  | wait d => simp [ioTaken]
  | drive r on =>
    cases r with
    | rdSer => cases h
    | out r => exact key (drive_done h).2.2.1
  | sample r =>
    cases r with
    | out r => cases h
    | rdSer =>
      rcases sample_cases s with ⟨-, h'⟩ | ⟨-, hk, -⟩ | ⟨-, -, h'⟩ | ⟨-, -, h'⟩
      · simp only [stepOp, h'] at h; cases h
      · exact key hk
      · simp only [stepOp, h'] at h; cases h
      · simp only [stepOp, h'] at h; cases h

/-- The answers a run used that failed: `m` of them, all OK but the last, which is the failure. -/
structure FailedAt (s t : State) (m : Nat) : Prop where
  pos : 0 < m
  used : t.io = s.io.drop m
  before : ∀ o ∈ s.io.take (m - 1), o = .ok
  last : ∀ o, s.io[m - 1]? = some o → o = .fail

theorem FailedAt.after {s u t : State} {k m : Nat} (hu : u.io = s.io.drop k) (hk : ∀ o ∈ s.io.take k, o = .ok)
    (h : FailedAt u t m) : FailedAt s t (k + m) := by
  have hm := h.pos
  have e : k + m - 1 = k + (m - 1) := by omega
  refine ⟨by omega, by rw [h.used, hu, List.drop_drop], ?_, ?_⟩
  · intro o ho
    rw [e, List.take_add, ← hu] at ho
    exact (List.mem_append.1 ho).elim (hk o) (h.before o)
  · intro o ho
    rw [e, ← List.getElem?_drop, ← hu] at ho
    exact h.last o ho

theorem stepOp_failed {op : MicroOp} {s t : State} {e : Unit} (h : stepOp op s = .failed e t) :
    ioTaken op = 1 ∧ FailedAt s t 1 := by
  have key : s.tick.ioNow = .fail → ∀ o, s.io[1 - 1]? = some o → o = .fail := by
    intro hk o ho; rw [← ioNow_head ho]; exact hk
  cases op with
  | bitcnt i => cases h
  | wait d => simp only [stepOp, wait] at h; split at h <;> cases h
  | drive r on =>
    cases r with
    | rdSer => cases h
    | out r =>
      rcases drive_cases r on s with ⟨-, h'⟩ | ⟨-, -, h'⟩ | ⟨-, hk, h'⟩ | ⟨-, -, h'⟩ <;>
        simp only [stepOp, h'] at h <;> cases h
      exact ⟨rfl, by decide, by simp [ioUsed_io], by simp, key hk⟩
  | sample r =>
    cases r with
    | out r => cases h
    | rdSer =>
      rcases sample_cases s with ⟨-, h'⟩ | ⟨-, -, h'⟩ | ⟨-, hk, h'⟩ | ⟨-, -, h'⟩ <;>
        simp only [stepOp, h'] at h
      · cases h
      · rcases sampleOk_cases s.tick.ioUsed with ⟨b, -, h''⟩ | ⟨-, h''⟩ <;> rw [h''] at h <;> cases h
      · cases h; exact ⟨rfl, by decide, by simp [ioUsed_io], by simp, key hk⟩
      · cases h

theorem runOps_done_ok {ops : List MicroOp} {s t : State} {bs : List Bool} (h : runOps ops s = .done bs t) :
    ∀ o ∈ s.io.take (ioCount ops), o = .ok := by
  induction ops generalizing s bs with
  | nil => simp
  | cons op ops ih =>
    obtain ⟨b1, u, b2, h1, h2, -⟩ := runOps_cons_done.1 h
    intro o ho
    rw [ioCount_cons, List.take_add, ← stepOp_io h1] at ho
    exact (List.mem_append.1 ho).elim (stepOp_done_ok h1 o) (ih h2 o)

/-- Where a piece of a run fails, or what follows it. -/
theorem Run.bind_failed_cases {ε ε' α β : Type} {r : Run ε α} {e x : ε'} {k : α → State → Run ε' β} {t : State}
    (h : r.bind e k = .failed x t) :
    ((∃ y, r = .failed y t) ∧ x = e) ∨ ∃ a s, r = .done a s ∧ k a s = .failed x t := by
  cases r with
  | done a s => exact .inr ⟨a, s, rfl, h⟩
  | failed y s => cases h; exact .inl ⟨⟨y, rfl⟩, rfl⟩
  | hung s => cases h
  | cut s => cases h
  | fault f => cases h

/-- A sequence that fails asked for no operation after the first that failed (60_exceptions.md R203). -/
theorem runOps_failed {ops : List MicroOp} {s t : State} {e : Unit} (h : runOps ops s = .failed e t) :
    ∃ m, m ≤ ioCount ops ∧ FailedAt s t m := by
  induction ops generalizing s with
  | nil => cases h
  | cons op ops ih =>
    rw [runOps_cons] at h
    rcases Run.bind_failed_cases h with ⟨⟨y, h1⟩, -⟩ | ⟨bs, u, h1, h2⟩
    · obtain ⟨h3, h4⟩ := stepOp_failed h1
      exact ⟨1, by rw [ioCount_cons, h3]; omega, h4⟩
    · rcases Run.bind_failed_cases h2 with ⟨⟨y, h3⟩, -⟩ | ⟨cs, v, h3, h4⟩
      · obtain ⟨m, hm, hf⟩ := ih h3
        exact ⟨ioTaken op + m, by rw [ioCount_cons]; omega, hf.after (stepOp_io h1) (stepOp_done_ok h1)⟩
      · cases h4

/-! ## The two sequences -/

theorem readSeq_done_ok {a : Addr} {d : Data} {s t : State} (h : readSeq a s = .done d t) :
    t.io = s.io.drop 124 ∧ ∀ o ∈ s.io.take 124, o = .ok := by
  obtain ⟨bits, u, h1, h2⟩ := Run.bind_eq_done.1 h
  cases h2
  have h3 := runOps_io h1
  have h4 := runOps_done_ok h1
  rw [ioCount_read] at h3 h4
  exact ⟨h3, h4⟩

theorem readSeq_failed {a : Addr} {s t : State} {e : Unit} (h : readSeq a s = .failed e t) :
    ∃ m, m ≤ 124 ∧ FailedAt s t m := by
  rcases Run.bind_failed_cases h with ⟨⟨y, h1⟩, -⟩ | ⟨bits, u, -, h2⟩
  · obtain ⟨m, hm, hf⟩ := runOps_failed h1
    exact ⟨m, by rwa [ioCount_read] at hm, hf⟩
  · cases h2

/-- What a micro-operation that did not complete used. -/
theorem stepOp_io_le {op : MicroOp} {s t : State} (h : runState (stepOp op s) = some t) :
    ∃ m, m ≤ ioTaken op ∧ t.io = s.io.drop m := by
  cases op with
  | bitcnt i => cases h; exact ⟨0, le_refl _, rfl⟩
  | wait d =>
    simp only [stepOp, wait] at h
    split at h <;> cases h <;> exact ⟨0, le_refl _, rfl⟩
  | drive r on =>
    cases r with
    | rdSer => cases h
    | out r =>
      rcases drive_cases r on s with ⟨-, h'⟩ | ⟨-, -, h'⟩ | ⟨-, -, h'⟩ | ⟨-, -, h'⟩ <;>
        simp only [stepOp, h', runState, Option.some.injEq] at h <;> subst h
      · exact ⟨0, Nat.zero_le _, rfl⟩
      all_goals exact ⟨1, le_refl _, by simp [ioUsed_io]⟩
  | sample r =>
    cases r with
    | out r => cases h
    | rdSer =>
      rcases sample_cases s with ⟨-, h'⟩ | ⟨-, -, h'⟩ | ⟨-, -, h'⟩ | ⟨-, -, h'⟩ <;>
        simp only [stepOp, h', runState, Option.some.injEq] at h
      · subst h; exact ⟨0, Nat.zero_le _, rfl⟩
      · rcases sampleOk_cases s.tick.ioUsed with ⟨b, -, h''⟩ | ⟨-, h''⟩ <;> rw [h''] at h <;>
          simp only [Option.some.injEq] at h <;> subst h <;> exact ⟨1, le_refl _, by simp [ioUsed_io]⟩
      all_goals subst h; exact ⟨1, le_refl _, by simp [ioUsed_io]⟩

/-- The two engines use no more answers than they have operations. -/
theorem runPar_io_le {ops : List (Chain × MicroOp)} {ea ed : Engine} {s t : State}
    (h : runState (runPar ops ea ed s) = some t) :
    ∃ m, m ≤ ioCount (ops.map Prod.snd) ∧ t.io = s.io.drop m := by
  induction ops generalizing s ea ed with
  | nil =>
    simp only [runPar, barrier] at h
    refine ⟨0, le_refl _, ?_⟩
    split at h
    · cases h; rfl
    · split at h <;> cases h <;> rfl
  | cons c ops ih =>
    obtain ⟨c, op⟩ := c
    have more : ∀ {u : State} {ea ed : Engine}, runState (stepOp op s) = some u →
        runState (runPar ops ea ed u) = some t →
        ∃ m, m ≤ ioCount (((c, op) :: ops).map Prod.snd) ∧ t.io = s.io.drop m := by
      intro u ea ed h1 h2
      obtain ⟨m1, hm1, e1⟩ := stepOp_io_le h1
      obtain ⟨m2, hm2, e2⟩ := ih h2
      exact ⟨m1 + m2, by rw [List.map_cons, ioCount_cons]; simp only; omega, by rw [e2, e1, List.drop_drop]⟩
    have skip : ∀ {ea ed : Engine}, runState (runPar ops ea ed s) = some t →
        ∃ m, m ≤ ioCount (((c, op) :: ops).map Prod.snd) ∧ t.io = s.io.drop m := by
      intro ea ed h2
      obtain ⟨m2, hm2, e2⟩ := ih h2
      exact ⟨m2, by rw [List.map_cons, ioCount_cons]; omega, e2⟩
    cases c <;> simp only [runPar] at h <;> split at h
    all_goals first
      | exact skip h
      | (split at h <;> rename_i h'
         · exact more (by rw [h']; rfl) h
         · exact more (by rw [h']; rfl) h
         · exact more (by rw [h']; rfl) h
         · cases h
           obtain ⟨m, hm, e⟩ := stepOp_io_le (t := t) (by rw [h']; rfl)
           exact ⟨m, by rw [List.map_cons, ioCount_cons]; simp only; omega, e⟩
         · cases h)

/-- Two engines of which one failed or hangs used an answer at least. -/
theorem runPar_failed {ops : List (Chain × MicroOp)} {s t : State} {e : Unit}
    (h : runPar ops .running .running s = .failed e t) :
    ∃ m, 0 < m ∧ m ≤ ioCount (ops.map Prod.snd) ∧ t.io = s.io.drop m := by
  induction ops generalizing s with
  | nil => simp [runPar, barrier] at h
  | cons c ops ih =>
    obtain ⟨c, op⟩ := c
    have done : ∀ {u : State} {bs : List Bool}, stepOp op s = .done bs u →
        runPar ops .running .running u = .failed e t →
        ∃ m, 0 < m ∧ m ≤ ioCount (((c, op) :: ops).map Prod.snd) ∧ t.io = s.io.drop m := by
      intro u bs h1 h2
      obtain ⟨m, hp, hm, e'⟩ := ih h2
      exact ⟨ioTaken op + m, by omega, by rw [List.map_cons, ioCount_cons]; simp only; omega,
        by rw [e', stepOp_io h1, List.drop_drop]⟩
    have failed : ∀ {u : State} {x : Unit} {ea ed : Engine}, stepOp op s = .failed x u →
        runPar ops ea ed u = .failed e t →
        ∃ m, 0 < m ∧ m ≤ ioCount (((c, op) :: ops).map Prod.snd) ∧ t.io = s.io.drop m := by
      intro u x ea ed h1 h2
      obtain ⟨ht, hf⟩ := stepOp_failed h1
      obtain ⟨m, hm, e'⟩ := runPar_io_le (t := t) (by rw [h2]; rfl)
      exact ⟨1 + m, by omega, by rw [List.map_cons, ioCount_cons]; simp only; omega,
        by rw [e', hf.used, List.drop_drop]⟩
    have stuck : ∀ {ops : List (Chain × MicroOp)} {ea ed : Engine} {u : State}, ea = .stuck ∨ ed = .stuck →
        runPar ops ea ed u ≠ .failed e t := by
      intro ops
      induction ops with
      | nil => intro ea ed u hs h'; simp [runPar, barrier, hs] at h'
      | cons p ops ih' =>
        intro ea ed u hs h'
        obtain ⟨c', op'⟩ := p
        cases c' <;> simp only [runPar] at h' <;> split at h' <;> try exact ih' hs h'
        all_goals
          rename_i hr
          split at h'
          · exact ih' (by simpa [hr] using hs) h'
          · exact ih' (by simpa [hr] using hs) h'
          · exact ih' (by simp) h'
          · cases h'
          · cases h'
    cases c <;> simp only [runPar, if_true] at h <;> split at h <;> rename_i h'
    · exact done h' h
    · exact failed h' h
    · exact absurd h (stuck (by simp))
    · cases h
    · cases h
    · exact done h' h
    · exact failed h' h
    · exact absurd h (stuck (by simp))
    · cases h
    · cases h

theorem ioCount_par (a : Addr) (d : Data) (sc : List Chain) :
    ioCount ((interleave sc (shiftOps .addr a) (shiftOps .data d)).map Prod.snd) = 126 := by
  rw [ioCount_perm (interleave_perm sc _ _), ioCount_append, ioCount_shift, ioCount_shift]

theorem writeSeq_done_ok {a : Addr} {d : Data} {s t : State} {bs : List Bool} (h : writeSeq a d s = .done bs t) :
    t.io = s.io.drop 130 ∧ ∀ o ∈ s.io.take 130, o = .ok := by
  obtain ⟨b1, u, h1, h2⟩ := Run.bind_eq_done.1 h
  obtain ⟨-, cs, h3⟩ := runPar_done h1
  have e1 := runOps_io h3
  have e2 := runOps_done_ok h3
  rw [ioCount_par] at e1 e2
  have e3 : u.io = s.io.drop 126 := e1
  refine ⟨by rw [runOps_io h2, e3, List.drop_drop]; rfl, fun o ho => ?_⟩
  rw [show 130 = 126 + 4 from rfl, List.take_add, ← e3] at ho
  exact (List.mem_append.1 ho).elim (e2 o) (runOps_done_ok h2 o)

/-- A `WriteSeq` that fails used an answer, and no more than its 130. -/
theorem writeSeq_failed {a : Addr} {d : Data} {s t : State} {e : Unit} (h : writeSeq a d s = .failed e t) :
    ∃ m, 0 < m ∧ m ≤ 130 ∧ t.io = s.io.drop m := by
  rcases Run.bind_failed_cases h with ⟨⟨y, h1⟩, -⟩ | ⟨b1, u, h1, h2⟩
  · obtain ⟨m, hp, hm, e'⟩ := runPar_failed h1
    rw [ioCount_par] at hm
    exact ⟨m, hp, by omega, e'⟩
  · obtain ⟨-, cs, h3⟩ := runPar_done h1
    have e1 := runOps_io h3
    rw [ioCount_par] at e1
    obtain ⟨m, hm, hf⟩ := runOps_failed h2
    have : ioCount writeStrobeOps = 4 := rfl
    have hp := hf.pos
    exact ⟨126 + m, by omega, by omega, by rw [hf.used, e1, List.drop_drop]; rfl⟩

/-! ## The loops -/

theorem pulseProgress_not_failed {s t : State} {e : Unit} : pulseProgress s ≠ .failed e t := by
  unfold pulseProgress
  split <;> simp

/-- DUMP's loop that fails, in record number `k` (44_batch.md R172). -/
theorem dumpLoop_failed {i : Nat} {m : Mapping} {records : List Record} {s t : State} {p : List Word}
    (h : dumpLoop i m records s = .failed p t) :
    ∃ k n, k < records.length ∧ t.progress = s.progress + k ∧
      p = dumpPayload ((records.take k).foldl (fun m r => mapPut m r.addr r.ck) m) ∧
      130 * k < n ∧ n ≤ 130 * (k + 1) ∧ (∀ o ∈ s.io.take (130 * k), o = .ok) ∧ t.io = s.io.drop n := by
  induction records generalizing i m s with
  | nil => cases h
  | cons r rs ih =>
    rcases Run.bind_failed_cases h with ⟨⟨y, h1⟩, rfl⟩ | ⟨bs, u, h1, h2⟩
    · obtain ⟨n, hp, hn, e⟩ := writeSeq_failed h1
      have hr : Reaches .dump (withIdx i s) t := by
        have := writeSeq_ends (o := .dump) rfl r.addr r.data (withIdx i s)
        rw [h1] at this; exact this.1
      have hprog : t.progress = s.progress := by
        have := writeSeq_ends (o := .write) rfl r.addr r.data (withIdx i s)
        rw [h1] at this; exact this.1.progress rfl
      exact ⟨0, n, by simp, by simp [hprog], rfl, by omega, by omega, by simp, e⟩
    · rcases Run.bind_failed_cases h2 with ⟨⟨y, h3⟩, -⟩ | ⟨⟨⟩, v, h3, h4⟩
      · exact absurd h3 pulseProgress_not_failed
      · obtain ⟨e1, ok1⟩ := writeSeq_done_ok h1
        have e2 := pulseProgress_done h3
        obtain ⟨k, n, hk, hpr, hp, hn1, hn2, hok, hio⟩ := ih h4
        have hprog : u.progress = s.progress := by
          have := writeSeq_ends (o := .write) rfl r.addr r.data (withIdx i s)
          rw [h1] at this; exact this.progress rfl
        have ev : v.io = s.io.drop 130 := by rw [e2]; exact e1
        have ep : v.progress = s.progress + 1 := by rw [e2, ← hprog]
        refine ⟨k + 1, 130 + n, by simpa using hk, by omega, hp, by omega, by omega, ?_, ?_⟩
        · intro o ho
          rw [show 130 * (k + 1) = 130 + 130 * k by omega, List.take_add, ← ev] at ho
          exact (List.mem_append.1 ho).elim (ok1 o) (hok o)
        · rw [hio, ev, List.drop_drop]

/-- What a `ReadSeq` that ended keeps of the progress count. -/
theorem readSeq_progress {a : Addr} {s t : State} {d : Data} (h : readSeq a s = .done d t) :
    t.progress = s.progress := by
  have := readSeq_ends .read a s
  rw [h] at this; exact this.progress rfl

theorem readSeq_failed_progress {a : Addr} {s t : State} {e : Unit} (h : readSeq a s = .failed e t) :
    t.progress = s.progress := by
  have := readSeq_ends .read a s
  rw [h] at this; exact this.1.progress rfl

/-- BULK_READ's loop that fails, after the words `data` (44_batch.md R172). -/
theorem bulkLoop_failed {l u : Addr} {n i : Nat} {values : List Word} {s t : State} {p : List Word}
    (h : bulkLoop l u n i values s = .failed p t) :
    ∃ (data : List Data) (m : Nat), data.length < n ∧ t.progress = s.progress + data.length ∧
      (Quiet s → ∀ q ∈ List.zip ((List.range' i n).map fun j => lowerMargin l + BitVec.ofNat 16 j) data, ∀ d,
        Memory.read s.mem q.1.toNat = .known d → q.2 = d) ∧
      p = bulkPayload l u (values ++ List.zipWith (valueWord l u)
        ((List.range' i n).map fun j => lowerMargin l + BitVec.ofNat 16 j) data) ∧
      124 * data.length < m ∧ m ≤ 124 * (data.length + 1) ∧ FailedAt s t m := by
  induction n generalizing i values s with
  | zero => cases h
  | succ n ih =>
    rcases Run.bind_failed_cases h with ⟨⟨y, h1⟩, rfl⟩ | ⟨d, w, h1, h2⟩
    · obtain ⟨m, hm, hf⟩ := readSeq_failed h1
      exact ⟨[], m, by simp, (readSeq_failed_progress h1).trans rfl, by simp, by simp, hf.pos, hm,
        ⟨hf.pos, hf.used, hf.before, hf.last⟩⟩
    · rcases Run.bind_failed_cases h2 with ⟨⟨y, h3⟩, -⟩ | ⟨⟨⟩, v, h3, h4⟩
      · exact absurd h3 pulseProgress_not_failed
      · obtain ⟨e1, ok1⟩ := readSeq_done_ok h1
        have e2 := pulseProgress_done h3
        obtain ⟨data, m, hl, hpr, hm, hp, hm1, hm2, hf⟩ := ih h4
        have ev : v.io = s.io.drop 124 := by rw [e2]; exact e1
        have ep : v.progress = s.progress + 1 := by
          have e0 : w.progress = s.progress := (readSeq_progress h1).trans rfl
          rw [e2, ← e0]
        refine ⟨d :: data, 124 + m, by simpa using hl, by rw [hpr, ep, List.length_cons]; omega, ?_, ?_,
          by rw [List.length_cons]; omega, by rw [List.length_cons]; omega, hf.after ev ok1⟩
        · intro hq
          have hqi : Quiet (withIdx i s) := hq
          obtain ⟨hd, e3⟩ := readSeq_effect hqi h1
          have hqv : Quiet v := by rw [e2, e3]; exact hq
          have em : v.mem = s.mem := by rw [e2, e3]; rfl
          rw [List.range'_succ, List.map_cons, List.zip_cons_cons]
          intro q hmem d' hd'
          rcases List.mem_cons.1 hmem with rfl | hmem
          · exact hd d' hd'
          · exact hm hqv q hmem d' (by rw [em]; exact hd')
        · rw [hp, List.range'_succ, List.map_cons, List.zipWith_cons_cons, List.append_assoc]; rfl

theorem verifyEnd_failed {lines : List Line} {s t : State} {p : List Word} (h : verifyEnd lines s = .failed p t) :
    lines.all linePass = true ∧ p = verifyPayload true false lines ∧ t.progress = s.progress ∧
      ∃ m, m ≤ 4 ∧ FailedAt s t m := by
  unfold verifyEnd at h
  split at h
  · rename_i ha
    rcases Run.bind_failed_cases h with ⟨⟨y, h1⟩, rfl⟩ | ⟨bs, u, -, h2⟩
    · obtain ⟨m, hm, hf⟩ := runOps_failed h1
      have hr := runOps_ends (o := .read) (allowed_blink .read) s
      rw [h1] at hr
      exact ⟨ha, rfl, hr.1.progress rfl, m, hm, hf⟩
    · cases h2
  · cases h

/-- VERIFY's loop that fails, after these lines (44_batch.md R172). -/
theorem verifyLoop_failed {bc rt : Byte} {i : Nat} {done : List Line} {entries : List Entry} {s t : State}
    {p : List Word} (h : verifyLoop bc rt i done entries s = .failed p t) :
    ∃ (lines : List Line) (m : Nat), lines.length ≤ entries.length ∧
      lines.map (fun l => (l.addr, l.expected)) = (entries.take lines.length).map (fun e => (e.addr, e.ck)) ∧
      (∀ l ∈ lines, l.computed = ck8 (canon bc l.addr rt l.data)) ∧
      (Quiet s → ∀ l ∈ lines, ∀ d, Memory.read s.mem l.addr.toNat = .known d → l.data = d) ∧
      t.progress = s.progress + lines.length ∧
      p = verifyPayload ((done ++ lines).all linePass && lines.length == entries.length) false (done ++ lines) ∧
      124 * lines.length < m ∧ m ≤ 124 * lines.length + (if lines.length = entries.length then 4 else 124) ∧
      FailedAt s t m := by
  induction entries generalizing i done s with
  | nil =>
    obtain ⟨ha, hp, hpr, m, hm, hf⟩ := verifyEnd_failed h
    exact ⟨[], m, by simp, rfl, by simp, by simp, hpr, by simp [hp, ha], hf.pos, by simpa using hm, hf⟩
  | cons e es ih =>
    rcases Run.bind_failed_cases h with ⟨⟨y, h1⟩, rfl⟩ | ⟨d, w, h1, h2⟩
    · obtain ⟨m, hm, hf⟩ := readSeq_failed h1
      exact ⟨[], m, by simp, rfl, by simp, by simp, (readSeq_failed_progress h1).trans rfl, by simp, hf.pos,
        by simpa using hm, ⟨hf.pos, hf.used, hf.before, hf.last⟩⟩
    · rcases Run.bind_failed_cases h2 with ⟨⟨y, h3⟩, -⟩ | ⟨⟨⟩, v, h3, h4⟩
      · exact absurd h3 pulseProgress_not_failed
      · obtain ⟨e1, ok1⟩ := readSeq_done_ok h1
        have e2 := pulseProgress_done h3
        obtain ⟨lines, m, hle, hl, hc, hd, hpr, hp, hm1, hm2, hf⟩ := ih h4
        have ev : v.io = s.io.drop 124 := by rw [e2]; exact e1
        have ep : v.progress = s.progress + 1 := by
          have e0 : w.progress = s.progress := (readSeq_progress h1).trans rfl
          rw [e2, ← e0]; rfl
        refine ⟨lineOf bc rt e d :: lines, 124 + m, by simpa using hle, ?_, ?_, ?_, ?_, ?_, ?_, ?_,
          hf.after ev ok1⟩
        · rw [List.length_cons, List.take_succ_cons, List.map_cons, List.map_cons, hl]; rfl
        · intro l hm
          rcases List.mem_cons.1 hm with rfl | hm
          · rfl
          · exact hc l hm
        · intro hq
          have hqi : Quiet (withIdx i s) := hq
          obtain ⟨hr, e3⟩ := readSeq_effect hqi h1
          have hqv : Quiet v := by rw [e2, withChecksum, e3]; exact hq
          have em : v.mem = s.mem := by rw [e2, withChecksum, e3]; rfl
          intro l hm d' hd'
          rcases List.mem_cons.1 hm with rfl | hm
          · exact hr d' hd'
          · exact hd hqv l hm d' (by rw [em]; exact hd')
        · rw [hpr, ep, List.length_cons]; omega
        · rw [hp, List.append_assoc]; simp
        · rw [List.length_cons]; omega
        · simp only [List.length_cons, Nat.add_right_cancel_iff]; omega

/-! ## Answers not yet used -/

/-- The I/O layer has these answers after the ones listed. -/
def moreIo (ys : List IoOutcome) (s : State) : State := { s with io := s.io ++ ys }

theorem moreIo_tick (ys : List IoOutcome) (s : State) : (moreIo ys s).tick = moreIo ys s.tick := rfl

theorem moreIo_ioNow {s : State} (ys : List IoOutcome) (h : s.io ≠ []) : (moreIo ys s).ioNow = s.ioNow := by
  cases hs : s.io with
  | nil => exact absurd hs h
  | cons o os => simp [State.ioNow, moreIo, hs]

theorem moreIo_ioUsed {s : State} (ys : List IoOutcome) (h : s.io ≠ []) :
    (moreIo ys s).ioUsed = moreIo ys s.ioUsed := by
  cases hs : s.io with
  | nil => exact absurd hs h
  | cons o os => simp [State.ioUsed, moreIo, hs]

theorem moreIo_react (ys : List IoOutcome) (r : OutRole) (s : State) :
    react r (moreIo ys s) = moreIo ys (react r s) := by
  cases r <;> simp only [react, latchEdge, moreIo]
  split
  · split <;> rfl
  · rfl

theorem moreIo_driveOk (ys : List IoOutcome) (r : OutRole) (on : Bool) (s : State) :
    driveOk r on (moreIo ys s) = moreIo ys (driveOk r on s) := by
  have e : edgeDrawn (s.pins.get r) on (moreIo ys s) = moreIo ys (edgeDrawn (s.pins.get r) on s) := by
    unfold edgeDrawn; split <;> rfl
  have e2 : isEdge (s.pins.get r) on (moreIo ys s) = isEdge (s.pins.get r) on s := by unfold isEdge; split <;> rfl
  have e3 : ∀ w : State, (moreIo ys w).pins = w.pins := fun _ => rfl
  unfold driveOk
  simp only [e, e2, e3, edgeDrawn_pins]
  split
  · exact moreIo_react ys r ((edgeDrawn (s.pins.get r) on s).withPins (s.pins.set r (driven on)))
  · rfl

/-- A completed micro-operation does not see the answers after those it used. -/
theorem stepOp_more {op : MicroOp} {s t : State} {bs : List Bool} (ys : List IoOutcome)
    (hl : ioTaken op ≤ s.io.length) (h : stepOp op s = .done bs t) :
    stepOp op (moreIo ys s) = .done bs (moreIo ys t) := by
  cases op with
  | bitcnt i => cases h; rfl
  | wait d =>
    obtain ⟨rfl, hr, rfl⟩ := wait_done h
    have hr' : (moreIo ys s).resetDue = false := hr
    simp only [stepOp, wait, hr', Bool.false_eq_true, if_false, moreIo_tick]
  | drive r on =>
    have hne : s.tick.io ≠ [] := by intro h'; rw [tick_io'] at h'; rw [h'] at hl; simp [ioTaken] at hl
    cases r with
    | rdSer => cases h
    | out r =>
      obtain ⟨rfl, hr, ho, rfl⟩ := drive_done h
      have hr' : (moreIo ys s).resetDue = false := hr
      simp only [stepOp, drive, hr', Bool.false_eq_true, if_false, moreIo_tick, moreIo_ioNow ys hne, ho,
        moreIo_ioUsed ys hne, moreIo_driveOk]
  | sample r =>
    have hne : s.tick.io ≠ [] := by intro h'; rw [tick_io'] at h'; rw [h'] at hl; simp [ioTaken] at hl
    cases r with
    | out r => cases h
    | rdSer =>
      rcases sample_cases s with ⟨-, h'⟩ | ⟨hr, ho, h'⟩ | ⟨-, -, h'⟩ | ⟨-, -, h'⟩ <;> simp only [stepOp, h'] at h
      · cases h
      · have hr' : (moreIo ys s).resetDue = false := hr
        simp only [stepOp, sample, hr', Bool.false_eq_true, if_false, moreIo_tick, moreIo_ioNow ys hne, ho,
          moreIo_ioUsed ys hne]
        generalize s.tick.ioUsed = w at h
        have e : (moreIo ys w).q = w.q := rfl
        unfold sampleOk at h ⊢
        rw [e]
        cases hb : w.q[23] <;> rw [hb] at h <;> cases h <;> rfl
      · cases h
      · cases h

/-- A completed sequence does not see the answers after those it used. -/
theorem runOps_more {ops : List MicroOp} {s t : State} {bs : List Bool} (ys : List IoOutcome)
    (hl : ioCount ops ≤ s.io.length) (h : runOps ops s = .done bs t) :
    runOps ops (moreIo ys s) = .done bs (moreIo ys t) := by
  induction ops generalizing s bs with
  | nil => cases h; rfl
  | cons op ops ih =>
    obtain ⟨b1, u, b2, h1, h2, rfl⟩ := runOps_cons_done.1 h
    rw [ioCount_cons] at hl
    have hu := stepOp_io h1
    exact runOps_cons_done.2 ⟨b1, _, b2, stepOp_more ys (by omega) h1,
      ih (by rw [hu, List.length_drop]; omega) h2, rfl⟩

theorem readSeq_more {a : Addr} {s t : State} {d : Data} (ys : List IoOutcome) (hl : 124 ≤ s.io.length)
    (h : readSeq a s = .done d t) : readSeq a (moreIo ys s) = .done d (moreIo ys t) := by
  obtain ⟨bits, u, h1, h2⟩ := Run.bind_eq_done.1 h
  cases h2
  exact Run.bind_eq_done.2 ⟨bits, _, runOps_more ys (by rw [ioCount_read]; exact hl) h1, rfl⟩

/-- A `ReadSeq` whose answers are OK, whatever answers follow them. -/
theorem readSeq_prefix {s : State} (a : Addr) (ys : List IoOutcome) (hr : s.resets = [])
    (hi : s.ioRest = some .ok) (hq : Quiet s) (hio : s.io = List.replicate 124 .ok ++ ys) :
    ∃ m, readSeq a s = .done (readValue s.mem s.draws a)
      { s with
        sa := bitsOf a, oa := bitsOf a, q := clockedOut 23 (readValue s.mem s.draws a)
        acc := .known (readValue s.mem s.draws a), bitcnt := .known 23
        io := ys, draws := drawsAfter s.mem s.draws a, micro := m } := by
  have hc : Calm { s with io := List.replicate 124 .ok } := ⟨hr, fun o ho => List.eq_of_mem_replicate ho, hi⟩
  obtain ⟨m, h⟩ := readSeq_calm (s := { s with io := List.replicate 124 .ok }) a hc hq
  refine ⟨m, ?_⟩
  have := readSeq_more ys (by simp) h
  have e : moreIo ys { s with io := List.replicate 124 IoOutcome.ok } = s := by rw [moreIo, ← hio]
  rw [e] at this
  rw [this]
  simp [moreIo]

/-- VERIFY's loop whose reads are answered OK comes to its end, whatever answers follow (44_batch.md R163). -/
theorem verifyLoop_prefix (bc rt : Byte) (i : Nat) (done : List Line) (entries : List Entry)
    (ys : List IoOutcome) {s : State} (hr : s.resets = []) (hi : s.ioRest = some .ok) (hq : Quiet s)
    (hio : s.io = List.replicate (124 * entries.length) .ok ++ ys) :
    ∃ t, verifyLoop bc rt i done entries s =
        verifyEnd (done ++ linesOf bc rt entries (readValues s.mem s.draws (entries.map Entry.addr))) t ∧
      t.resets = [] ∧ Quiet t ∧ t.io = ys ∧ t.out = s.out := by
  induction entries generalizing i done s with
  | nil => exact ⟨s, by simp [verifyLoop, linesOf], hr, hq, by simpa using hio, rfl⟩
  | cons e es ih =>
    have hio' : (withIdx i s).io = List.replicate 124 .ok ++ (List.replicate (124 * es.length) .ok ++ ys) := by
      change s.io = _
      rw [hio, ← List.append_assoc, List.replicate_append_replicate, List.length_cons]
      congr 2; omega
    obtain ⟨k, h1⟩ := readSeq_prefix (s := withIdx i s) e.addr _ hr hi hq hio'
    rw [verifyLoop, h1, Run.bind_done, pulseProgress_calm (by exact hr), Run.bind_done]
    generalize hv : readValue (withIdx i s).mem (withIdx i s).draws e.addr = v
    generalize hd : drawsAfter (withIdx i s).mem (withIdx i s).draws e.addr = dr
    obtain ⟨t, h2, h3, h4, h5, h6⟩ := ih (i := i + 1) (done := done ++ [lineOf bc rt e v])
      (s := ⟨s.words, s.rx, s.out, s.progress + 1, s.resets, List.replicate (124 * es.length) .ok ++ ys, s.ioRest,
        s.sched, s.cmdPtr, s.phase, k + 1, s.clra, s.clrd, s.ioerr, s.opc, s.opa, s.opb, s.opd, s.bc, s.rt, .known v,
        .known (ckAccumulate (canon bc e.addr rt v)), .known 23, .known (BitVec.ofNat 17 i), s.pins,
        bitsOf e.addr, bitsOf e.addr, s.sd, s.od, clockedOut 23 v, s.mem, dr⟩) hr hi hq rfl
    have hv' : readValue s.mem s.draws e.addr = v := hv
    have hd' : drawsAfter s.mem s.draws e.addr = dr := hd
    refine ⟨t, ?_, h3, h4, h5, h6⟩
    simp only [List.map_cons, readValues, hv', hd', linesOf, List.zipWith_cons_cons]
    rw [List.append_assoc] at h2
    exact h2

/-- A blink of which drive number `j` is never answered leaves the notifier as the drives before it did (44_batch.md
R164): off, on, off, on. -/
theorem blink_hang {s : State} (j : Nat) (rest : List IoOutcome) (hj : j < 4) (hr : s.resets = []) (hq : Quiet s)
    (hio : s.io = List.replicate j .ok ++ .never :: rest) :
    ∃ t, runOps blinkOps s = .hung t ∧ t.io = rest ∧ t.out = s.out ∧
      t.pins = { Pins.released with notify := if j % 2 = 1 then .asserted else .released } := by
  have hp : s.pins = Pins.released := hq
  obtain ⟨⟩ := s
  simp only at hr hio hp
  subst hr hio hp
  have : j = 0 ∨ j = 1 ∨ j = 2 ∨ j = 3 := by omega
  rcases this with rfl | rfl | rfl | rfl <;>
    refine ⟨_, rfl, rfl, rfl, rfl⟩

/-! ## The first operation that does not complete -/

/-- Where the next `k` answers are OK and the `k`-th asked after them is not, a sequence in its roles' directions
comes to that operation (60_exceptions.md R203, R204). -/
theorem runOps_stops {ops : List MicroOp} {s : State} {k : Nat} {o : IoOutcome} {rest : List IoOutcome}
    (hd : ∀ op ∈ ops, directed op = true) (hr : s.resets = []) (hk : k < ioCount ops) (ho : o ≠ .ok)
    (hio : s.io = List.replicate k .ok ++ o :: rest) :
    ∃ pre op post bs u, ops = pre ++ op :: post ∧ ioCount pre = k ∧ ioTaken op = 1 ∧
      runOps pre s = .done bs u ∧ u.io = o :: rest ∧ u.resets = [] ∧
      ∃ v, v.io = rest ∧ v.resets = [] ∧
        ((o = .fail ∧ stepOp op u = .failed () v) ∨ (o = .never ∧ stepOp op u = .hung v)) ∧
        v = u.tick.ioUsed.withPins v.pins ∧
        (v.pins = u.pins ∨ ∃ r on, op = .drive (.out r) on ∧ v.pins = u.pins.set r .bot) := by
  induction ops generalizing s k with
  | nil => simp at hk
  | cons op ops ih =>
    have hdue := resetDue_of_nil hr
    by_cases hstop : ioTaken op = 1 ∧ k = 0
    · obtain ⟨ht, rfl⟩ := hstop
      have hio' : s.io = o :: rest := by simpa using hio
      have hnow : s.tick.ioNow = o := ioNow_head (by rw [hio']; rfl)
      have hrest : s.tick.ioUsed.io = rest := by rw [ioUsed_io, tick_io', hio']; rfl
      have hres : s.tick.ioUsed.resets = [] := by simp [State.tick, hr, countDown]
      refine ⟨[], op, ops, [], s, rfl, rfl, ht, rfl, hio', hr, ?_⟩
      have hdop := hd op List.mem_cons_self
      cases op with
      | bitcnt i => cases ht
      | wait d => cases ht
      | drive r on =>
        cases r with
        | rdSer => cases hdop
        | out r =>
          cases o with
          | ok => exact absurd rfl ho
          | fail =>
            exact ⟨s.tick.ioUsed.withPins (s.pins.set r .bot), hrest, hres,
              .inl ⟨rfl, by simp only [stepOp, drive, hdue, hnow]; rfl⟩, rfl, .inr ⟨r, on, rfl, rfl⟩⟩
          | never =>
            exact ⟨_, hrest, hres, .inr ⟨rfl, by simp only [stepOp, drive, hdue, hnow]; rfl⟩, rfl,
              .inl (by simp)⟩
      | sample r =>
        cases r with
        | out r => cases hdop
        | rdSer =>
          cases o with
          | ok => exact absurd rfl ho
          | fail =>
            exact ⟨_, hrest, hres, .inl ⟨rfl, by simp only [stepOp, sample, hdue, hnow]; rfl⟩, rfl, .inl (by simp)⟩
          | never =>
            exact ⟨_, hrest, hres, .inr ⟨rfl, by simp only [stepOp, sample, hdue, hnow]; rfl⟩, rfl, .inl (by simp)⟩
    · have hle : ioTaken op ≤ k := by cases op <;> simp [ioTaken] at hstop ⊢ <;> omega
      obtain ⟨bs, u, h1⟩ : ∃ bs u, stepOp op s = .done bs u := by
        have hdop := hd op List.mem_cons_self
        have hnow : ioTaken op = 1 → s.tick.ioNow = .ok := by
          intro h1
          refine ioNow_head ?_
          rw [hio]
          cases k with
          | zero => omega
          | succ k => rfl
        cases op with
        | bitcnt i => exact ⟨_, _, rfl⟩
        | wait d => exact ⟨[], s.tick, by simp [stepOp, wait, hdue]⟩
        | drive r on =>
          cases r with
          | rdSer => cases hdop
          | out r => exact ⟨[], _, by simp only [stepOp, drive, hdue, hnow rfl]; rfl⟩
        | sample r =>
          cases r with
          | out r => cases hdop
          | rdSer =>
            have e : stepOp (.sample .rdSer) s = sampleOk s.tick.ioUsed := by
              simp only [stepOp, sample, hdue, hnow rfl]; rfl
            rcases sampleOk_cases s.tick.ioUsed with ⟨b, -, h⟩ | ⟨-, h⟩
            · exact ⟨_, _, e.trans h⟩
            · exact ⟨_, _, e.trans h⟩
      have hu : u.io = List.replicate (k - ioTaken op) .ok ++ o :: rest := by
        rw [stepOp_io h1, hio, List.drop_append, List.drop_replicate]
        simp [show ioTaken op - k = 0 by omega]
      rw [ioCount_cons] at hk
      obtain ⟨pre, op', post, cs, w, e, hc', ht, hrun, hwio, hwr, hv⟩ :=
        ih (s := u) (k := k - ioTaken op) (fun x hx => hd x (List.mem_cons_of_mem _ hx)) (stepOp_resets h1 hr)
          (by omega) hu
      exact ⟨op :: pre, op', post, bs ++ cs, w, by rw [e]; rfl, by rw [ioCount_cons]; omega, ht,
        runOps_cons_done.2 ⟨bs, u, cs, h1, hrun, rfl⟩, hwio, hwr, hv⟩

/-! ## The two engines, one of them stopped -/

/-- The steps that both engines complete come first. -/
theorem runPar_append_done {xs ys : List (Chain × MicroOp)} {s t : State} {bs : List Bool}
    (h : runOps (xs.map Prod.snd) s = .done bs t) :
    runPar (xs ++ ys) .running .running s = runPar ys .running .running t := by
  induction xs generalizing s bs with
  | nil => cases h; rfl
  | cons p xs ih =>
    obtain ⟨c, op⟩ := p
    obtain ⟨b1, u, b2, h1, h2, -⟩ := runOps_cons_done.1 h
    simp only at h1
    cases c <;> simp only [List.cons_append, runPar, if_true, h1, ih h2]

/-- The data engine alone, the address engine having stopped. -/
theorem runPar_data_alone {ops : List (Chain × MicroOp)} {ea : Engine} {s t : State} {bs : List Bool}
    (ha : ea ≠ .running) (h : runOps (stepsOf .data ops) s = .done bs t) :
    runPar ops ea .running s = barrier ea .running t := by
  induction ops generalizing s bs with
  | nil => cases h; rfl
  | cons p ops ih =>
    obtain ⟨c, op⟩ := p
    cases c with
    | addr =>
      have e : stepsOf .data ((Chain.addr, op) :: ops) = stepsOf .data ops := by simp [stepsOf]
      rw [e] at h
      simp only [runPar, if_neg ha, ih h]
    | data =>
      have e : stepsOf .data ((Chain.data, op) :: ops) = op :: stepsOf .data ops := by simp [stepsOf]
      rw [e] at h
      obtain ⟨b1, u, b2, h1, h2, -⟩ := runOps_cons_done.1 h
      simp only [runPar, if_true, h1, ih h2]

/-- The address engine alone, the data engine having stopped. -/
theorem runPar_addr_alone {ops : List (Chain × MicroOp)} {ed : Engine} {s t : State} {bs : List Bool}
    (hd : ed ≠ .running) (h : runOps (stepsOf .addr ops) s = .done bs t) :
    runPar ops .running ed s = barrier .running ed t := by
  induction ops generalizing s bs with
  | nil => cases h; rfl
  | cons p ops ih =>
    obtain ⟨c, op⟩ := p
    cases c with
    | data =>
      have e : stepsOf .addr ((Chain.data, op) :: ops) = stepsOf .addr ops := by simp [stepsOf]
      rw [e] at h
      simp only [runPar, if_neg hd, ih h]
    | addr =>
      have e : stepsOf .addr ((Chain.addr, op) :: ops) = op :: stepsOf .addr ops := by simp [stepsOf]
      rw [e] at h
      obtain ⟨b1, u, b2, h1, h2, -⟩ := runOps_cons_done.1 h
      simp only [runPar, if_true, h1, ih h2]

/-- Once an engine has stopped, and no reset is due, the barrier reports a failure, or is never passed
(43_memory_driver.md R142). -/
theorem runPar_stopped {ops : List (Chain × MicroOp)} {ea ed : Engine} {s : State}
    (hd : ∀ p ∈ ops, allowed .write p.2 = true) (hr : s.resets = []) (hs : ea ≠ .running ∨ ed ≠ .running) :
    ∃ t, runPar ops ea ed s = .hung t ∨ (ea ≠ .stuck ∧ ed ≠ .stuck ∧ runPar ops ea ed s = .failed () t) := by
  induction ops generalizing s ea ed with
  | nil =>
    refine ⟨s, ?_⟩
    cases ea <;> cases ed <;> simp [runPar, barrier] at hs ⊢
  | cons p ops ih =>
    obtain ⟨c, op⟩ := p
    have hop := stepOp_ends (hd _ List.mem_cons_self) s
    have hrest : ∀ p ∈ ops, allowed .write p.2 = true := fun p hp => hd p (List.mem_cons_of_mem _ hp)
    simp only at hop
    cases c with
    | addr =>
      simp only [runPar]
      split
      · rename_i he
        subst he
        split <;> rename_i h' <;> rw [h'] at hop
        · exact ih hrest (hop.resets hr) hs
        · obtain ⟨t, ht⟩ := ih (ea := .failed) (ed := ed) hrest (hop.1.resets hr) (by simp)
          exact ⟨t, by simpa using ht⟩
        · obtain ⟨t, ht⟩ := ih (ea := .stuck) (ed := ed) hrest (hop.1.resets hr) (by simp)
          exact ⟨t, ht.imp id fun h => absurd rfl h.1⟩
        · exact absurd hr hop.2.1
        · exact hop.elim
      · exact ih hrest hr hs
    | data =>
      simp only [runPar]
      split
      · rename_i he
        subst he
        split <;> rename_i h' <;> rw [h'] at hop
        · exact ih hrest (hop.resets hr) hs
        · obtain ⟨t, ht⟩ := ih (ea := ea) (ed := .failed) hrest (hop.1.resets hr) (by simp)
          exact ⟨t, by simpa using ht⟩
        · obtain ⟨t, ht⟩ := ih (ea := ea) (ed := .stuck) hrest (hop.1.resets hr) (by simp)
          exact ⟨t, ht.imp id fun h => absurd rfl h.2.1⟩
        · exact absurd hr hop.2.1
        · exact hop.elim
      · exact ih hrest hr hs

end Sys2Proof.Machine
end

