-- ==== Sys2Proof/Laws/Barrier.lean ====
section
/-! SUPPORT. WRITE's two engines under any schedule: whose operation comes next, what each chain holds after part of its shift, and that the strobe's pins wait (43_memory_driver.md R142, 70_reset_and_hazards.md R239). -/

namespace Sys2Proof.Machine

/-! ## The schedule -/

theorem interleave_nil_left (sc : List Chain) (ds : List MicroOp) : interleave sc [] ds = ds.map (Prod.mk .data) := by
  induction sc generalizing ds with
  | nil => rfl
  | cons c sc ih => cases c with
    | addr => simpa [interleave] using ih ds
    | data => cases ds with
      | nil => simpa [interleave] using ih []
      | cons d ds => simp [interleave, ih]

theorem interleave_nil_right (sc : List Chain) (as : List MicroOp) : interleave sc as [] = as.map (Prod.mk .addr) := by
  induction sc generalizing as with
  | nil => simp [interleave]
  | cons c sc ih => cases c with
    | data => simpa [interleave] using ih as
    | addr => cases as with
      | nil => simpa [interleave] using ih []
      | cons d ds => simp [interleave, ih]

/-- No more of the schedule is used than the two engines have steps. -/
theorem interleave_take {n : Nat} (sc : List Chain) (as ds : List MicroOp) (h : as.length + ds.length ≤ n) :
    interleave (sc.take n) as ds = interleave sc as ds := by
  induction sc generalizing n as ds with
  | nil => simp
  | cons c sc ih =>
    cases n with
    | zero =>
      have : as = [] := List.length_eq_zero_iff.1 (by omega)
      have : ds = [] := List.length_eq_zero_iff.1 (by omega)
      subst as ds; simp [interleave_nil_left]
    | succ n =>
      rw [List.take_succ_cons]
      cases c with
      | addr => cases as with
        | nil => simp [interleave_nil_left]
        | cons a as => simp only [interleave]; rw [ih]; simp at h ⊢; omega
      | data => cases ds with
        | nil => simp [interleave_nil_right]
        | cons d ds => simp only [interleave]; rw [ih]; simp at h ⊢; omega

/-! ## What the engines leave of the strobe -/

/-- The SRAM, write-enable and write-clock are as they were. -/
def StrobeIdle (s₀ s : State) : Prop :=
  s.mem = s₀.mem ∧ s.pins.wrEn = s₀.pins.wrEn ∧ s.pins.wrClk = s₀.pins.wrClk

theorem strobeIdle_set {r : OutRole} (l : Level) (p : Pins) (h : r ≠ .wrEn ∧ r ≠ .wrClk) :
    (p.set r l).wrEn = p.wrEn ∧ (p.set r l).wrClk = p.wrClk := by
  cases r <;> first | exact ⟨rfl, rfl⟩ | exact absurd rfl h.1 | exact absurd rfl h.2

theorem role_of_engine {c : Chain} {r : OutRole} {on : Bool} (h : engineOp c (.drive (.out r) on) = true) :
    r ≠ .wrEn ∧ r ≠ .wrClk := by
  cases c <;> cases r <;> first | (cases h; done) | exact ⟨nofun, nofun⟩

theorem strobeIdle_stepOp {c : Chain} {op : MicroOp} (h : engineOp c op = true) {s t : State}
    (ht : runState (stepOp op s) = some t) : StrobeIdle s t := by
  have hm := stepOp_ends (o := .read) (allowed_of_engineOp h) s
  cases op with
  | bitcnt i => cases ht; exact ⟨rfl, rfl, rfl⟩
  | wait d => simp only [stepOp, wait] at ht; split at ht <;> cases ht <;> exact ⟨rfl, rfl, rfl⟩
  | sample r => cases h
  | drive r on =>
    cases r with
    | rdSer => cases h
    | out r =>
      have hr := role_of_engine h
      rcases drive_cases r on s with ⟨-, h'⟩ | ⟨-, -, h'⟩ | ⟨-, -, h'⟩ | ⟨-, -, h'⟩ <;>
        simp only [stepOp, h', runState, Option.some.injEq] at ht hm <;> subst ht
      · exact ⟨rfl, rfl, rfl⟩
      · refine ⟨hm.mem rfl, ?_⟩
        rw [driveOk_pins]
        simpa using strobeIdle_set (driven on) s.pins hr
      · exact ⟨by simp, by simpa using strobeIdle_set .bot s.pins hr⟩
      · exact ⟨by simp, by simp, by simp⟩

/-- The two shifts, however they end, leave the strobe's pins and the SRAM (70_reset_and_hazards.md R239). -/
theorem strobeIdle_runPar {ops : List (Chain × MicroOp)} {ea ed : Engine} {s t : State}
    (h : ∀ p ∈ ops, engineOp p.1 p.2 = true) (ht : runState (runPar ops ea ed s) = some t) : StrobeIdle s t := by
  induction ops generalizing s ea ed with
  | nil =>
    simp only [runPar, barrier] at ht
    split at ht
    · cases ht; exact ⟨rfl, rfl, rfl⟩
    · split at ht <;> cases ht <;> exact ⟨rfl, rfl, rfl⟩
  | cons p ops ih =>
    obtain ⟨c, op⟩ := p
    have hr : ∀ p ∈ ops, engineOp p.1 p.2 = true := fun p hp => h p (List.mem_cons_of_mem _ hp)
    have tr : ∀ {u : State} {ea ed : Engine}, runState (stepOp op s) = some u →
        runState (runPar ops ea ed u) = some t → StrobeIdle s t := by
      intro u ea ed h1 h2
      obtain ⟨a, b, d⟩ := strobeIdle_stepOp (h _ List.mem_cons_self) h1
      obtain ⟨a', b', d'⟩ := ih hr h2
      exact ⟨a'.trans a, b'.trans b, d'.trans d⟩
    cases c <;> simp only [runPar] at ht <;> split at ht
    all_goals first
      | exact ih hr ht
      | (split at ht <;> rename_i h'
         · exact tr (by rw [h']; rfl) ht
         · exact tr (by rw [h']; rfl) ht
         · exact tr (by rw [h']; rfl) ht
         · cases ht; exact strobeIdle_stepOp (h _ List.mem_cons_self) (by rw [h']; rfl)
         · cases ht)

/-! ## Whose operation is the next -/

theorem asksIo_iff (op : MicroOp) : ioTaken op = if asksIo op then 1 else 0 := by cases op <;> rfl

theorem ioCount_eq (ops : List MicroOp) : ioCount ops = (ops.filter asksIo).length := by
  induction ops with
  | nil => rfl
  | cons op ops ih => rw [ioCount_cons, ih, List.filter_cons, asksIo_iff]; split <;> (simp; try omega)

/-- Whose each operation is that asks the I/O layer. -/
def asked (ops : List (Chain × MicroOp)) : List Chain := (ops.filter fun p => asksIo p.2).map Prod.fst

theorem asked_length (ops : List (Chain × MicroOp)) : (asked ops).length = ioCount (ops.map Prod.snd) := by
  rw [ioCount_eq, asked, List.length_map, List.filter_map, List.length_map]; rfl

theorem asked_count (c : Chain) (ops : List (Chain × MicroOp)) : (asked ops).count c = ioCount (stepsOf c ops) := by
  induction ops with
  | nil => rfl
  | cons p ops ih =>
    obtain ⟨c', op⟩ := p
    have e1 : asked ((c', op) :: ops) = (if asksIo op then [c'] else []) ++ asked ops := by
      simp only [asked, List.filter_cons]; split <;> rfl
    have e2 : stepsOf c ((c', op) :: ops) = (if c' = c then [op] else []) ++ stepsOf c ops := by
      simp only [stepsOf, List.filter_cons, beq_iff_eq]; split <;> simp
    rw [e1, e2, List.count_append, ioCount_append, ih]
    congr 1
    by_cases h : c' = c <;> cases ha : asksIo op <;> simp [h, asksIo_iff, ha]

theorem asked_append (xs ys : List (Chain × MicroOp)) : asked (xs ++ ys) = asked xs ++ asked ys := by simp [asked]

theorem stepsOf_append (c : Chain) (xs ys : List (Chain × MicroOp)) :
    stepsOf c (xs ++ ys) = stepsOf c xs ++ stepsOf c ys := by
  simp [stepsOf]

/-! ## The chains under an interleaving -/

/-- Completed steps of both engines leave each chain as its own steps do. -/
theorem mixed_device {ops : List (Chain × MicroOp)} {s t : State} {bs : List Bool} (hk : LevelsKnown s)
    (hp : ∀ p ∈ ops, engineOp p.1 p.2 = true) (h : runOps (ops.map Prod.snd) s = .done bs t) :
    addrView t = viewRun .addr (stepsOf .addr ops) (addrView s) ∧
      dataView t = viewRun .data (stepsOf .data ops) (dataView s) ∧ LevelsKnown t := by
  induction ops generalizing s bs with
  | nil => cases h; exact ⟨rfl, rfl, hk⟩
  | cons p ops ih =>
    obtain ⟨c, op⟩ := p
    obtain ⟨b1, u, b2, h1, h2, -⟩ := runOps_cons_done.1 h
    have he := hp _ List.mem_cons_self
    have hpl := plainOp_of_engineOp he
    obtain ⟨-, hu⟩ := stepOp_device hk hpl h1
    have hku := stepOp_levelsKnown hk hpl h1
    obtain ⟨i1, i2, i3⟩ := ih hku (fun p hp' => hp p (List.mem_cons_of_mem _ hp')) h2
    have va : addrView u = addrView (devicePart u) := rfl
    have vd : dataView u = dataView (devicePart u) := rfl
    refine ⟨?_, ?_, i3⟩
    · rw [i1, va, hu]
      cases c with
      | addr =>
        have e : stepsOf .addr ((Chain.addr, op) :: ops) = op :: stepsOf .addr ops := by simp [stepsOf]
        rw [e, viewRun, viewRun, List.foldl_cons, devStep_addr he]
        congr 1
        have := viewStep_clr .addr op (addrView (devicePart s))
        change _ = viewStep .addr op (addrView (devicePart s))
        generalize viewStep .addr op (addrView (devicePart s)) = v at this
        cases v; simp only [addrView, putAddr] at *; simp [this]
      | data =>
        have e : stepsOf .addr ((Chain.data, op) :: ops) = stepsOf .addr ops := by simp [stepsOf]
        rw [e, devStep_data he]; rfl
    · rw [i2, vd, hu]
      cases c with
      | data =>
        have e : stepsOf .data ((Chain.data, op) :: ops) = op :: stepsOf .data ops := by simp [stepsOf]
        rw [e, viewRun, viewRun, List.foldl_cons, devStep_data he]
        congr 1
        have := viewStep_clr .data op (dataView (devicePart s))
        change _ = viewStep .data op (dataView (devicePart s))
        generalize viewStep .data op (dataView (devicePart s)) = v at this
        cases v; simp only [dataView, putData] at *; simp [this]
      | addr =>
        have e : stepsOf .data ((Chain.addr, op) :: ops) = stepsOf .data ops := by simp [stepsOf]
        rw [e, devStep_addr he]; rfl

/-- The levels of the roles an engine drives are known. -/
def EngineKnown (c : Chain) (s : State) : Prop :=
  s.pins.get (serRole c) ≠ .bot ∧ s.pins.get (sclkRole c) ≠ .bot ∧ s.pins.get (rclkRole c) ≠ .bot

/-- A completed step of one engine moves its own chain and keeps the other's outputs, whatever the other's levels. -/
theorem alone_step {c : Chain} {op : MicroOp} {s t : State} {bs : List Bool} (he : engineOp c op = true)
    (hk : EngineKnown c s) (h : stepOp op s = .done bs t) :
    (c = .addr → addrView t = viewStep .addr op (addrView s) ∧ t.od = s.od) ∧
    (c = .data → dataView t = viewStep .data op (dataView s) ∧ t.oa = s.oa) ∧ EngineKnown c t := by
  unfold EngineKnown at hk ⊢
  cases op with
  | bitcnt i => cases h; exact ⟨fun _ => ⟨rfl, rfl⟩, fun _ => ⟨rfl, rfl⟩, hk⟩
  | wait d => obtain ⟨-, -, rfl⟩ := wait_done h; exact ⟨fun _ => ⟨rfl, rfl⟩, fun _ => ⟨rfl, rfl⟩, hk⟩
  | sample r => cases he
  | drive r on =>
    cases r with
    | rdSer => cases he
    | out r =>
      obtain ⟨-, -, -, rfl⟩ := drive_done h
      have hr : s.tick.ioUsed.pins.get r ≠ .bot := by
        cases c <;> cases r <;> first
          | (cases he; done)
          | (rw [ioUsed_pins, tick_pins]; first | exact hk.1 | exact hk.2.1 | exact hk.2.2)
      rw [driveOk_known hr]
      have hp := hk
      generalize hw : s.tick.ioUsed = w
      have e1 : addrView s = addrView w := by rw [← hw]; simp [addrView]
      have e2 : dataView s = dataView w := by rw [← hw]; simp [dataView]
      have e3 : s.od = w.od := by rw [← hw]; simp
      have e4 : s.oa = w.oa := by rw [← hw]; simp
      have e5 : s.pins = w.pins := by rw [← hw]; simp
      rw [e1, e2, e3, e4]
      rw [e5] at hp
      have hd := fun h => devStep_addr (op := .drive (.out r) on) h w
      have hd2 := fun h => devStep_data (op := .drive (.out r) on) h w
      change (c = .addr → addrView (devStep (.drive (.out r) on) w) = _ ∧ _) ∧
        (c = .data → dataView (devStep (.drive (.out r) on) w) = _ ∧ (devStep (.drive (.out r) on) w).oa = _) ∧
        (devStep (.drive (.out r) on) w).pins.get _ ≠ _ ∧ (devStep (.drive (.out r) on) w).pins.get _ ≠ _ ∧
        (devStep (.drive (.out r) on) w).pins.get _ ≠ _
      refine ⟨?_, ?_, ?_⟩
      · rintro rfl
        change addrView (devStep (.drive (.out r) on) w) = _ ∧ (devStep (.drive (.out r) on) w).od = _
        rw [hd he]
        refine ⟨?_, rfl⟩
        have := viewStep_clr .addr (.drive (.out r) on) (addrView w)
        generalize viewStep .addr (.drive (.out r) on) (addrView w) = v at this
        cases v; simp only [addrView, putAddr] at *; simp [this]
      · rintro rfl
        rw [hd2 he]
        refine ⟨?_, rfl⟩
        have := viewStep_clr .data (.drive (.out r) on) (dataView w)
        generalize viewStep .data (.drive (.out r) on) (dataView w) = v at this
        cases v; simp only [dataView, putData] at *; simp [this]
      · have e : (devStep (.drive (.out r) on) w).pins = w.pins.set r (driven on) := by
          simp only [devStep]; cases rises on (w.pins.get r) <;> simp
        rw [e]
        simp only [Pins.get_set]
        refine ⟨?_, ?_, ?_⟩ <;> split <;> simp [hp]

/-- The same of a completed run. -/
theorem alone {c : Chain} {ops : List MicroOp} {s t : State} {bs : List Bool}
    (he : ∀ op ∈ ops, engineOp c op = true) (hk : EngineKnown c s) (h : runOps ops s = .done bs t) :
    (c = .addr → addrView t = viewRun .addr ops (addrView s) ∧ t.od = s.od) ∧
    (c = .data → dataView t = viewRun .data ops (dataView s) ∧ t.oa = s.oa) := by
  induction ops generalizing s bs with
  | nil => cases h; exact ⟨fun _ => ⟨rfl, rfl⟩, fun _ => ⟨rfl, rfl⟩⟩
  | cons op ops ih =>
    obtain ⟨b1, u, b2, h1, h2, -⟩ := runOps_cons_done.1 h
    obtain ⟨a1, a2, a3⟩ := alone_step (he _ List.mem_cons_self) hk h1
    obtain ⟨i1, i2⟩ := ih (fun o ho => he o (List.mem_cons_of_mem _ ho)) a3 h2
    refine ⟨fun hc => ?_, fun hc => ?_⟩
    · rw [(i1 hc).1, (i1 hc).2, (a1 hc).1, (a1 hc).2]; exact ⟨rfl, rfl⟩
    · rw [(i2 hc).1, (i2 hc).2, (a2 hc).1, (a2 hc).2]; exact ⟨rfl, rfl⟩

/-! ## The outputs after part of a shift -/

/-- Only the register clock's assert drive changes the outputs (41_shift_chain.md R113). -/
theorem viewRun_outs {n : Nat} (c : Chain) (ops : List MicroOp) (v : ChainView n)
    (h : ∀ op ∈ ops, op ≠ .drive (.out (rclkRole c)) true) : (viewRun c ops v).outs = v.outs := by
  induction ops generalizing v with
  | nil => rfl
  | cons op ops ih =>
    rw [viewRun, List.foldl_cons]
    refine (ih _ (fun o ho => h o (List.mem_cons_of_mem _ ho))).trans ?_
    have h1 := h op List.mem_cons_self
    cases op with
    | drive r on => cases r with
      | rdSer => rfl
      | out r =>
        simp only [viewStep]
        split_ifs with a b d
        · rfl
        · rfl
        · subst d
          cases on with
          | true => exact absurd rfl h1
          | false => cases v.rclk <;> rfl
        · rfl
    | sample r => rfl
    | bitcnt i => rfl
    | wait d => rfl

theorem loop_not_rclk (c : Chain) (i : Nat) (bs : List Bool) :
    ∀ op ∈ shiftLoopOps c i bs, op ≠ .drive (.out (rclkRole c)) true := by
  induction bs generalizing i with
  | nil => simp [shiftLoopOps]
  | cons b bs ih =>
    intro op h
    rcases List.mem_append.1 h with h | h
    · simp only [shiftBitOps, pulseOps, List.mem_cons, List.not_mem_nil, or_false] at h
      rcases h with rfl | rfl | rfl | rfl | rfl | rfl <;> cases c <;> nofun
    · exact ih (i+1) op h

/-- After part of a shift the outputs are as before, up to its register clock, and hold the value from there. -/
theorem prefix_outs {n : Nat} (c : Chain) (w : BitVec n) {pre post : List MicroOp} {v : ChainView n}
    (e : shiftOps c w = pre ++ post) (h1 : v.sclk = .released) (h2 : v.rclk = .released) (h3 : v.clr = .released) :
    (viewRun c pre v).outs = if ioCount pre ≤ 3 * n then v.outs else bitsOf w := by
  have hl : ioCount (shiftLoopOps c 0 (bitList w)) = 3 * n := by rw [ioCount_shiftLoop, length_bitList]
  rw [shiftOps] at e
  rcases List.append_eq_append_iff.1 e with ⟨x, rfl, hx⟩ | ⟨x, hx, rfl⟩
  · obtain ⟨hs, hk, hr, ho⟩ := viewRun_shiftLoop c 0 (bitList w) h1 h3
    have hc := viewRun_clr c (shiftLoopOps c 0 (bitList w)) v
    rw [foldl_shiftIn_bitList] at hs
    rw [viewRun_append, ioCount_append, hl]
    cases x with
    | nil => simp [viewRun]; exact ho
    | cons y x =>
      have hy : y = .drive (.out (rclkRole c)) true := by
        simp only [shiftEndOps, pulseOps, List.cons_append, List.cons.injEq] at hx; exact hx.1.symm
      have hx' : x ++ post = [.wait .hold, .drive (.out (rclkRole c)) false, .drive (.out (serRole c)) false] := by
        simp only [shiftEndOps, pulseOps, List.cons_append, List.cons.injEq] at hx; exact hx.2.symm
      subst hy
      rw [if_neg (by rw [ioCount_cons]; simp [ioTaken])]
      rw [viewRun, List.foldl_cons, ← viewRun, viewRun_outs]
      · generalize viewRun c (shiftLoopOps c 0 (bitList w)) v = u at hs hk hr hc
        have hne : rclkRole c ≠ serRole c ∧ rclkRole c ≠ sclkRole c := by cases c <;> exact ⟨nofun, nofun⟩
        simp only [viewStep, if_neg hne.1, if_neg hne.2, if_true]
        rw [hr, h2, hc, h3]
        exact hs
      · intro op hop
        have := List.mem_append_left post hop
        rw [hx'] at this
        simp only [List.mem_cons, List.not_mem_nil, or_false] at this
        rcases this with rfl | rfl | rfl <;> cases c <;> nofun
  · have : ioCount pre ≤ 3 * n := by rw [← hl, hx, ioCount_append]; omega
    rw [if_pos this]
    exact viewRun_outs c pre v (fun op ho => loop_not_rclk c 0 _ op (by rw [hx]; exact List.mem_append_left _ ho))

theorem mapsnd_split {ops : List (Chain × MicroOp)} {pre : List MicroOp} {op : MicroOp} {post : List MicroOp}
    (e : ops.map Prod.snd = pre ++ op :: post) :
    ∃ p c q, ops = p ++ (c, op) :: q ∧ p.map Prod.snd = pre ∧ q.map Prod.snd = post := by
  obtain ⟨p, r, rfl, hp, hr⟩ := List.map_eq_append_iff.1 e
  obtain ⟨⟨c, op'⟩, q, rfl, rfl, hq⟩ := List.map_eq_cons_iff.1 hr
  exact ⟨p, c, q, rfl, hp, hq⟩

theorem barrier_state {ea ed : Engine} {w t : State}
    (h : barrier ea ed w = .hung t ∨ (ea ≠ .stuck ∧ ed ≠ .stuck ∧ barrier ea ed w = .failed () t)) : t = w := by
  cases ea <;> cases ed <;> simp [barrier] at h <;> exact h.symm

end Sys2Proof.Machine
end

