-- ==== Sys2Proof/Laws/Encoding.lean ====
section
/-! SUPPORT. Fields of words as numbers, and the length of an encoded frame's operand words. -/

namespace Sys2Proof

/-- A concatenation, as a number. -/
theorem toNat_append_mul {n m : Nat} (x : BitVec n) (y : BitVec m) : (x ++ y).toNat = x.toNat * 2 ^ m + y.toNat := by
  rw [BitVec.toNat_append, ← Nat.shiftLeft_add_eq_or_of_lt y.isLt, Nat.shiftLeft_eq]

/-- A field, as a number. -/
theorem toNat_field {n : Nat} (w : BitVec n) (lo len : Nat) :
    (w.extractLsb' lo len).toNat = w.toNat / 2 ^ lo % 2 ^ len := by
  rw [BitVec.extractLsb'_toNat, Nat.shiftRight_eq_div_pow]

/-- The opcode of an encoded command is in its first byte (30_encoding.md R72). -/
theorem byte3_first2 (b : Byte) (r : BitVec 24) : byte3 (b ++ r) = b := by
  apply BitVec.eq_of_toNat_eq
  simp only [byte3, toNat_field, toNat_append_mul]
  omega

theorem byte3_first3 (b r : Byte) (a : BitVec 16) : byte3 (b ++ r ++ a) = b := by
  apply BitVec.eq_of_toNat_eq
  simp only [byte3, toNat_field, toNat_append_mul]
  omega

theorem byte3_first4 (b r x y : Byte) : byte3 (b ++ r ++ x ++ y) = b := by
  apply BitVec.eq_of_toNat_eq
  simp only [byte3, toNat_field, toNat_append_mul]
  omega

theorem byte3_checksum (b : Byte) (r : BitVec 16) (n : Byte) : byte3 (b ++ r ++ n) = b := by
  apply BitVec.eq_of_toNat_eq
  simp only [byte3, toNat_field, toNat_append_mul]
  omega

/-- The opcode of each command's byte is the command (30_encoding.md R70). -/
theorem opcodeOfByte_byte (op : Opcode) : opcodeOfByte op.byte = some op := by cases op <;> decide

/-- Only whole words are packed: a frame's bytes and pad fill its last word (30_encoding.md R87). -/
theorem length_packBytes (bs : List Byte) : (packBytes bs).length = bs.length / 4 := by
  suffices h : ∀ n (bs : List Byte), bs.length ≤ n → (packBytes bs).length = bs.length / 4 from h _ bs le_rfl
  intro n
  induction n with
  | zero => intro bs h; cases bs with
    | nil => rfl
    | cons b bs => simp at h
  | succ n ih =>
    intro bs h
    match bs with
    | [] => rfl
    | [_] => simp [packBytes]
    | [_, _] => simp [packBytes]
    | [_, _, _] => simp [packBytes]
    | b0 :: b1 :: b2 :: b3 :: bs =>
      simp only [packBytes, List.length_cons] at h ⊢
      rw [ih bs (by omega)]
      omega

theorem length_records (rs : List Record) : (rs.flatMap encodeRecord).length = 2 * rs.length := by
  induction rs with
  | nil => rfl
  | cons r rs ih => simp only [List.flatMap_cons, List.length_append, ih, List.length_cons, encodeRecord, List.length_nil]; omega

/-- What a decoded frame is: its opcode, its length, all its words present, and the command of its words. -/
theorem decode_cases {ws : List Word} {i : Instr} {n : Nat} (h : decode ws = .ok (i, n)) :
    ∃ w0 rest op, ws = w0 :: rest ∧ opcodeOfByte (byte3 w0) = some op ∧ frameLength ws = some n ∧
      n ≤ rest.length + 1 ∧ i = instrOf op w0 (rest.take (n - 1)) := by
  cases ws with
  | nil => cases h
  | cons w0 rest =>
    simp only [decode] at h
    cases hop : opcodeOfByte (byte3 w0) with
    | none => rw [hop] at h; cases h
    | some op =>
      rw [hop] at h
      cases hl : frameLength (w0 :: rest) with
      | none => simp only [hl] at h; cases h
      | some m =>
        simp only [hl, List.length_cons] at h
        split at h
        · cases h
        · injection h with h
          injection h with h1 h2
          subst h2
          exact ⟨w0, rest, op, rfl, hop, rfl, by omega, h1.symm⟩

/-- A frame at the head of the words, whatever follows it, decodes to the command of its own words. -/
theorem decode_frame {op : Opcode} {w0 : Word} {args rest : List Word} (h : opcodeOfByte (byte3 w0) = some op)
    (hl : frameLength (w0 :: args ++ rest) = some (args.length + 1)) :
    decode (w0 :: args ++ rest) = .ok (instrOf op w0 args, args.length + 1) := by
  simp only [List.cons_append] at hl ⊢
  simp only [decode, h, hl]
  rw [if_neg (by simp)]
  simp

/-- An opcode byte that is assigned is the byte of its command. -/
theorem byte_of_opcode {b : Byte} {op : Opcode} (h : opcodeOfByte b = some op) : b = op.byte := by
  unfold opcodeOfByte at h
  repeat' split at h
  all_goals first | (injection h with h; subst h; assumption) | cases h

/-- The four bytes of a word, in frame order (30_encoding.md R87). -/
theorem bytesOf_append (b0 b1 b2 b3 : Byte) : bytesOf (b0 ++ b1 ++ b2 ++ b3) = [b0, b1, b2, b3] := by
  simp only [bytesOf, List.cons.injEq, and_true]
  refine ⟨?_, ?_, ?_, ?_⟩ <;> apply BitVec.eq_of_toNat_eq <;>
    simp only [byte3, byte2, byte1, byte0, toNat_field, toNat_append_mul] <;> omega

theorem append_bytesOf (w : Word) : byte3 w ++ byte2 w ++ byte1 w ++ byte0 w = w := by
  apply BitVec.eq_of_toNat_eq
  simp only [byte3, byte2, byte1, byte0, toNat_field, toNat_append_mul]
  omega

theorem recordOf_append (r : Record) : recordOf (r.bc ++ r.addr ++ r.type) (r.data ++ r.ck) = r := by
  obtain ⟨bc, addr, type, data, ck⟩ := r
  simp only [recordOf, Record.mk.injEq]
  refine ⟨?_, ?_, ?_, ?_, ?_⟩ <;> apply BitVec.eq_of_toNat_eq <;>
    simp only [byte3, byte0, toNat_field, toNat_append_mul] <;> omega

theorem encodeRecord_recordOf (rw0 rw1 : Word) : encodeRecord (recordOf rw0 rw1) = [rw0, rw1] := by
  simp only [encodeRecord, recordOf, List.cons.injEq, and_true]
  refine ⟨?_, ?_⟩ <;> apply BitVec.eq_of_toNat_eq <;>
    simp only [byte3, byte0, toNat_field, toNat_append_mul] <;> omega

theorem recordsOf_flatMap (rs : List Record) : recordsOf (rs.flatMap encodeRecord) = rs := by
  induction rs with
  | nil => rfl
  | cons r rs ih =>
    show recordsOf ((r.bc ++ r.addr ++ r.type) :: (r.data ++ r.ck) :: rs.flatMap encodeRecord) = _
    rw [recordsOf, recordOf_append, ih]

theorem flatMap_recordsOf (n : Nat) : ∀ ws : List Word, ws.length = 2 * n →
    (recordsOf ws).flatMap encodeRecord = ws ∧ (recordsOf ws).length = n := by
  induction n with
  | zero =>
    intro ws h
    obtain rfl := List.length_eq_zero_iff.1 (show ws.length = 0 by omega)
    exact ⟨rfl, rfl⟩
  | succ n ih =>
    intro ws h
    match ws, h with
    | rw0 :: rw1 :: ws, h =>
      obtain ⟨h1, h2⟩ := ih ws (by simp only [List.length_cons] at h; omega)
      simp only [recordsOf, List.flatMap_cons, encodeRecord_recordOf, h1, List.length_cons, h2]
      exact ⟨rfl, trivial⟩

/-- Record `k` is the record of words `2k` and `2k + 1`. -/
theorem getElem_recordsOf : ∀ (k : Nat) (ws : List Word) (h : k < (recordsOf ws).length),
    (recordsOf ws)[k] = recordOf (ws.getD (2 * k) 0) (ws.getD (2 * k + 1) 0)
  | _, [], h => absurd h (Nat.not_lt_zero _)
  | _, [_], h => absurd h (Nat.not_lt_zero _)
  | 0, _ :: _ :: _, _ => rfl
  | k + 1, rw0 :: rw1 :: ws, h => by
    have := getElem_recordsOf k ws (by simpa [recordsOf] using h)
    simpa [recordsOf, Nat.mul_add, Nat.add_right_comm] using this

theorem entryOf_encodeEntry (e : Entry) : entryOf (encodeEntry e) = e := by
  obtain ⟨rsv, addr, ck⟩ := e
  simp only [entryOf, encodeEntry, Entry.mk.injEq]
  refine ⟨?_, ?_, ?_⟩ <;> apply BitVec.eq_of_toNat_eq <;>
    simp only [byte3, byte0, toNat_field, toNat_append_mul] <;> omega

theorem encodeEntry_entryOf (w : Word) : encodeEntry (entryOf w) = w := by
  apply BitVec.eq_of_toNat_eq
  simp only [entryOf, encodeEntry, byte3, byte0, toNat_field, toNat_append_mul]
  omega

theorem flatMap_packBytes (n : Nat) : ∀ bs : List Byte, bs.length = 4 * n → (packBytes bs).flatMap bytesOf = bs := by
  induction n with
  | zero =>
    intro bs h
    obtain rfl := List.length_eq_zero_iff.1 (show bs.length = 0 by omega)
    rfl
  | succ n ih =>
    intro bs h
    match bs, h with
    | b0 :: b1 :: b2 :: b3 :: bs, h =>
      simp only [packBytes, List.flatMap_cons, bytesOf_append]
      rw [ih bs (by simp only [List.length_cons] at h; omega)]
      rfl

theorem packBytes_flatMap (ws : List Word) : packBytes (ws.flatMap bytesOf) = ws := by
  induction ws with
  | nil => rfl
  | cons w ws ih =>
    show packBytes (byte3 w :: byte2 w :: byte1 w :: byte0 w :: ws.flatMap bytesOf) = _
    rw [packBytes, append_bytesOf, ih]

theorem length_flatMap_bytesOf (ws : List Word) : (ws.flatMap bytesOf).length = 4 * ws.length := by
  induction ws with
  | nil => rfl
  | cons w ws ih => simp only [List.flatMap_cons, List.length_append, ih, bytesOf, List.length_cons, List.length_nil]; omega

/-- Where packed byte `j` lies (30_encoding.md R87). -/
theorem getElem_flatMap_bytesOf : ∀ (ws : List Word) (j : Nat) (h : j < (ws.flatMap bytesOf).length),
    ((ws.flatMap bytesOf)[j]).toNat = (ws.getD (j / 4) 0).toNat / 2 ^ (24 - 8 * (j % 4)) % 2 ^ 8
  | [], j, h => by simp at h
  | w :: ws, 0, h => by simp [bytesOf, byte3, Nat.shiftRight_eq_div_pow]
  | w :: ws, 1, h => by simp [bytesOf, byte2, Nat.shiftRight_eq_div_pow]
  | w :: ws, 2, h => by simp [bytesOf, byte1, Nat.shiftRight_eq_div_pow]
  | w :: ws, 3, h => by simp [bytesOf, byte0]
  | w :: ws, j + 4, h => by
    have := getElem_flatMap_bytesOf ws j
      (by simp only [length_flatMap_bytesOf, List.length_cons] at h ⊢; omega)
    have e : (j + 4) / 4 = j / 4 + 1 := by omega
    have e' : (j + 4) % 4 = j % 4 := by omega
    rw [e, e']
    simpa [bytesOf] using this

open Machine

theorem opcField_eq (w0 : Word) : opcField w0 = (byte3 w0).toNat := by
  simp only [opcField, byte3, toNat_field]
  omega

/-- The bytes outside the table of 30_encoding.md R70. -/
theorem unassigned_iff (w0 : Word) : opcodeOfByte (byte3 w0) = none ↔ Unassigned (opcField w0) := by
  rw [opcField_eq]
  generalize byte3 w0 = b
  revert b
  decide

/-- The decoder's frame length is the table's (30_encoding.md R76). -/
theorem frameLength_eq (w0 : Word) (rest : List Word) : frameLength (w0 :: rest) = tableLength w0 rest.head? := by
  simp only [frameLength]
  cases h : opcodeOfByte (byte3 w0) with
  | none =>
    have := (unassigned_iff w0).1 h
    simp only [tableLength, List.mem_cons, List.not_mem_nil, or_false]
    unfold Unassigned at this
    rw [if_neg (by omega), if_neg (by omega), if_neg (by omega), if_neg (by omega), if_neg (by omega)]
  | some op =>
    have e := opcField_eq w0
    rw [byte_of_opcode h] at e
    cases op <;> simp only [Opcode.byte] at e <;> simp [tableLength, e, half0, byte0, packedWords]
    cases rest <;> simp

end Sys2Proof
end

