-- ==== Sys2Proof/Laws/PerInstr.lean ====
section
/-! SUPPORT. The statement made for each instruction: an encoded frame's own words give its length (30_encoding.md R76), whatever follows it. -/

namespace Sys2Proof.Laws.EncodedLength

/-- The frame of the command has the length that its first words announce. -/
def Statement (i : Instr) : Prop :=
  i.encodable = true → ∀ rest : List Word, frameLength (encode i ++ rest) = some (encode i).length

theorem clrAddr (rsv : BitVec 24) : Statement (.clrAddr rsv) := by
  intro _ rest
  simp only [encode, List.cons_append, frameLength, byte3_first2, opcodeOfByte_byte, List.length_cons, List.length_nil]

theorem clrData (rsv : BitVec 24) : Statement (.clrData rsv) := by
  intro _ rest
  simp only [encode, List.cons_append, frameLength, byte3_first2, opcodeOfByte_byte, List.length_cons, List.length_nil]

theorem write (rsv0 : Byte) (a : Addr) (rsv1 : Byte) (d : Data) : Statement (.write rsv0 a rsv1 d) := by
  intro _ rest
  simp only [encode, List.cons_append, frameLength, byte3_first3, opcodeOfByte_byte, List.length_cons, List.length_nil]

theorem read (rsv : Byte) (a : Addr) : Statement (.read rsv a) := by
  intro _ rest
  simp only [encode, List.cons_append, frameLength, byte3_first3, opcodeOfByte_byte, List.length_cons, List.length_nil]

theorem dump (rsv : Byte) (records : List Record) : Statement (.dump rsv records) := by
  intro h rest
  have hn : records.length < 2 ^ 16 := by simpa [Instr.encodable] using h
  simp only [encode, List.cons_append, frameLength, byte3_first3, opcodeOfByte_byte, List.length_cons, length_records,
    half0, toNat_field, toNat_append_mul, BitVec.toNat_ofNat, Option.some.injEq]
  omega

theorem verify (rsv0 bc rt : Byte) (rsv1 : BitVec 15) (entries : List Entry) :
    Statement (.verify rsv0 bc rt rsv1 entries) := by
  intro h rest
  have hn : entries.length < 2 ^ 17 := by simpa [Instr.encodable] using h
  simp only [encode, List.cons_append, frameLength, byte3_first4, opcodeOfByte_byte, List.length_cons, List.length_map,
    toNat_field, toNat_append_mul, BitVec.toNat_ofNat, Option.some.injEq]
  omega

theorem bulkRead (rsv0 : Byte) (l : Addr) (rsv1 : BitVec 16) (u : Addr) : Statement (.bulkRead rsv0 l rsv1 u) := by
  intro _ rest
  simp only [encode, List.cons_append, frameLength, byte3_first3, opcodeOfByte_byte, List.length_cons, List.length_nil]

theorem checksum (rsv : BitVec 16) (bytes pad : List Byte) : Statement (.checksum rsv bytes pad) := by
  intro h rest
  have hn : bytes.length < 2 ^ 8 ∧ pad.length = padLength bytes.length := by simpa [Instr.encodable] using h
  simp only [encode, List.cons_append, frameLength, byte3_checksum, opcodeOfByte_byte, List.length_cons,
    length_packBytes, List.length_append, hn.2, byte0, toNat_field, toNat_append_mul, BitVec.toNat_ofNat,
    packedWords, padLength, Option.some.injEq]
  omega

theorem lowerMargin (rsv : Byte) (a : Addr) : Statement (.lowerMargin rsv a) := by
  intro _ rest
  simp only [encode, List.cons_append, frameLength, byte3_first3, opcodeOfByte_byte, List.length_cons, List.length_nil]

theorem upperMargin (rsv : Byte) (a : Addr) : Statement (.upperMargin rsv a) := by
  intro _ rest
  simp only [encode, List.cons_append, frameLength, byte3_first3, opcodeOfByte_byte, List.length_cons, List.length_nil]

end Sys2Proof.Laws.EncodedLength
end

