-- ==== Sys2Proof/Laws/Port.lean ====
section
/-! SUPPORT. Everything the command port and one step of the block can do, each said once (30_encoding.md R77, 10_state.md R26). -/

namespace Sys2Proof.Machine

/-- Everything the command port can do. -/
theorem receive_cases (s : State) :
    (∃ i n, decode (s.rx ++ s.words) = .ok (i, n) ∧ resetWithin (n - s.rx.length) s.resets = none ∧
      receive s = .command i (consumeFrame (n - s.rx.length) n s)) ∨
    (∃ opc, decode (s.rx ++ s.words) = .error (.illegalCommand opc) ∧
      resetWithin (1 - s.rx.length) s.resets = none ∧
      receive s = .illegal opc (consumeFrame (1 - s.rx.length) 1 s)) ∨
    (decode (s.rx ++ s.words) = .error .incompleteFrame ∧ resetWithin s.words.length s.resets = none ∧
      receive s = .waiting (acceptAll s)) ∨
    (∃ d, s.resets ≠ [] ∧ receive s = .waiting (cutReception d s)) := by
  have hr : ∀ k d, resetWithin k s.resets = some d → s.resets ≠ [] := by
    intro k d h h'
    rw [h'] at h
    cases h
  unfold receive
  cases hd : decode (s.rx ++ s.words) with
  | ok p =>
    obtain ⟨i, n⟩ := p
    cases hk : resetWithin (n - s.rx.length) s.resets with
    | none => exact .inl ⟨i, n, rfl, hk, by simp [hk]⟩
    | some d => exact .inr (.inr (.inr ⟨d, hr _ _ hk, by simp [hk]⟩))
  | error e =>
    cases e with
    | illegalCommand opc =>
      cases hk : resetWithin (1 - s.rx.length) s.resets with
      | none => exact .inr (.inl ⟨opc, rfl, rfl, by simp⟩)
      | some d => exact .inr (.inr (.inr ⟨d, hr _ _ hk, by simp⟩))
    | incompleteFrame =>
      cases hk : resetWithin s.words.length s.resets with
      | none => exact .inr (.inr (.inl ⟨rfl, rfl, by simp⟩))
      | some d => exact .inr (.inr (.inr ⟨d, hr _ _ hk, by simp⟩))

/-- What accepting words can do where the frame stays incomplete. -/
theorem acceptAll_cases (s : State) :
    (s.words = [] ∧ s.resetDue = true ∧ acceptAll s = cutReception 0 s) ∨
    (s.words = [] ∧ s.resetDue = false ∧ acceptAll s = { s with resets := countDown 1 s.resets }) ∨
    (s.words ≠ [] ∧ acceptAll s =
      { s with
        rx := s.rx ++ s.words, words := [], resets := countDown s.words.length s.resets, phase := .receiving }) := by
  unfold acceptAll
  by_cases h : s.words = []
  · cases hd : s.resetDue with
    | true => exact .inl ⟨h, rfl, by simp [h]⟩
    | false => exact .inr (.inl ⟨h, rfl, by simp [h]⟩)
  · exact .inr (.inr ⟨h, by simp [h]⟩)

theorem waitForHost_cases (found : Val Byte) (s : State) :
    (s.resetDue = true ∧ waitForHost found s = blockReset found s) ∨
    (s.resetDue = false ∧ waitForHost found s = { s with resets := countDown 1 s.resets }) := by
  unfold waitForHost
  cases h : s.resetDue with
  | true => exact .inl ⟨rfl, by simp⟩
  | false => exact .inr ⟨rfl, by simp⟩

/-- Everything one step of a block that waits for the host does. -/
theorem step_waiting {s : State} (h : Waiting s) :
    step s = match receive s with
      | .command i t => exec i t
      | .illegal opc t => illegalCommand opc t
      | .waiting t => .next t := by
  rcases h with h | h <;> simp only [step, h] <;> cases receive s <;> rfl

theorem step_hung {s : State} (h : s.phase = .hung) : step s = .next (waitForHost s.opc s) := by
  simp only [step, h]

theorem step_held {s : State} (h : s.phase = .held) : step s = .next (waitForHost .bot s) := by
  simp only [step, h]

theorem step_resetting {s : State} (h : s.phase = .resetting) : step s = bindPins s := by
  simp only [step, h]

theorem allowed_bind (o : Opcode) : ∀ op ∈ bindOps, allowed o op = true := by
  intro op h
  obtain ⟨r, -, rfl⟩ := List.mem_map.1 h
  cases r <;> rfl

/-- Completed release drives put each role at its released level and leave the devices (40_pin.md R100). -/
theorem runOps_release {rs : List OutRole} {s t : State} {bs : List Bool}
    (h : runOps (rs.map fun r => MicroOp.drive (.out r) false) s = .done bs t) :
    t.pins = rs.foldl (fun p r => p.set r .released) s.pins ∧
      devicePart t = devicePart (s.withPins t.pins) ∧ (s.ioRest.isSome = true → t.draws = s.draws) := by
  induction rs generalizing s bs with
  | nil => cases h; exact ⟨rfl, rfl, fun _ => rfl⟩
  | cons r rs ih =>
    obtain ⟨b1, u, b2, h1, h2, -⟩ := runOps_cons_done.1 h
    obtain ⟨-, -, -, rfl⟩ := drive_done h1
    have e : driveOk r false s.tick.ioUsed = s.tick.ioUsed.withPins (s.pins.set r .released) := by
      simp [driveOk, isEdge, edgeDrawn, driven]
    rw [e] at h2
    obtain ⟨i1, i2, i3⟩ := ih h2
    refine ⟨i1, i2.trans ?_, fun hr => ?_⟩
    · simp only [devicePart_withPins, devicePart_ioUsed, devicePart_tick]
      rfl
    · rw [i3 (by simpa using hr), withPins_draws]
      exact ioUsed_draws (by simpa using hr)

theorem bind_pins (p : Pins) : OutRole.all.foldl (fun p r => p.set r .released) p = Pins.released := rfl

/-- Everything the bind can do. -/
theorem bindPins_cases (s : State) :
    (∃ bs t, runOps bindOps s = .done bs t ∧ bindPins s = .next { t with phase := .idle, micro := 0 } ∧
      t.pins = Pins.released ∧ devicePart t = devicePart (s.withPins Pins.released) ∧
      (s.ioRest.isSome = true → t.draws = s.draws) ∧ Reaches .read s t) ∨
    (∃ t, bindPins s = .next { t with phase := .held } ∧ Reaches .read s t ∧ (¬ IoNoFail s ∨ ¬ IoAnswers s)) ∨
    (∃ t, bindPins s = .next (blockReset .bot t) ∧ Reaches .read s t ∧ s.resets ≠ []) := by
  have he := runOps_ends (o := .read) (allowed_bind .read) s
  unfold bindPins
  cases hb : runOps bindOps s with
  | done bs t =>
    rw [hb] at he
    obtain ⟨h1, h2, h3⟩ := runOps_release hb
    rw [bind_pins] at h1
    exact .inl ⟨bs, t, rfl, rfl, h1, h1 ▸ h2, h3, he⟩
  | failed e t => rw [hb] at he; exact .inr (.inl ⟨t, rfl, he.1, .inl he.2⟩)
  | hung t => rw [hb] at he; exact .inr (.inl ⟨t, rfl, he.1, .inr he.2⟩)
  | cut t => rw [hb] at he; exact .inr (.inr ⟨t, rfl, he.1, he.2.1⟩)
  | fault f => rw [hb] at he; exact he.elim

end Sys2Proof.Machine
end

