-- ==== Sys2Proof/Tests/Slice0.lean ====
section
/-! SUPPORT. Tests: words written out from the encodings, terms the checks refuse, one step of each command against the spec's vectors (95_test_vectors.md), and for each statement a state that meets its hypotheses. -/

namespace Sys2Proof.Tests

open Sys2Proof.Machine

/-! ## Helpers -/

/-- The outcome is a next state of which `P` holds. -/
def nextIs (o : Host.Outcome State Fault Refusal) (P : State → Prop) [DecidablePred P] : Bool :=
  match o with
  | .next t => decide (P t)
  | .fault _ => false
  | .refused _ => false

theorem exists_next {o : Host.Outcome State Fault Refusal} {P : State → Prop} [DecidablePred P]
    (h : nextIs o P = true) : ∃ t, o = .next t ∧ P t := by
  cases o with
  | next t => exact ⟨t, rfl, by simpa [nextIs] using h⟩
  | fault f => cases h
  | refused r => cases h

/-- A block right after reset, to which the host presents these words. -/
def fresh (ws : List Word) : State := { State.reset with words := ws }

/-- A block after CLR_ADDR and CLR_DATA (95_test_vectors.md V46), with this SRAM and these words presented. -/
def cleared (m : Memory) (ws : List Word) : State :=
  { State.reset with words := ws, clra := true, clrd := true, sa := allZero 16, sd := allZero 24, mem := m }

/-- The SRAM after the DUMP of V42. -/
def twoWords : Memory := [(0, 0x020023), (1, 0x0A0B0C)]

/-- Eight words, one for each address of a window. -/
def eightWords : Memory :=
  [(0, 0x10), (1, 0x11), (2, 0x12), (3, 0x13), (4, 0x14), (5, 0x15), (6, 0x16), (7, 0x17)]

/-- An I/O layer that completes `k` operations and then answers `o`. -/
def failsAfter (k : Nat) (o : IoOutcome) (s : State) : State := { s with io := List.replicate k .ok ++ [o] }

/-! ## Decoding, from words written out field by field (30_encoding.md R72) -/

/-- `01 | 000000`. -/
theorem test_decode_clrAddr : decode [0x01000001] = .ok (.clrAddr 1, 1) := by decide
/-- `02 | 800000`, the highest reserved bit set. -/
theorem test_decode_clrData : decode [0x02800000] = .ok (.clrData 0x800000, 1) := by decide
/-- `03 | 00 | ABCD`, `00 | 123456`. -/
theorem test_decode_write : decode [0x0300ABCD, 0x00123456] = .ok (.write 0 0xABCD 0 0x123456, 2) := by decide
/-- `04 | 80 | 0001`. -/
theorem test_decode_read : decode [0x04800001] = .ok (.read 0x80 1, 1) := by decide
/-- `05 | 00 | 0001`, then `BC | ADDR | TYPE` and `DATA | CK`. -/
theorem test_decode_dump :
    decode [0x05000001, 0x11223344, 0x55667788] = .ok (.dump 0 [⟨0x11, 0x2233, 0x44, 0x556677, 0x88⟩], 3) := by
  decide
/-- `06 | 00 | 03 | 04`, `[31:17] 0 | M`, then the entry of V88. -/
theorem test_decode_verify :
    decode [0x06000304, 0x00000001, 0x00ABCD12] = .ok (.verify 0 3 4 0 [⟨0, 0xABCD, 0x12⟩], 3) := by decide
/-- `07 | 00 | L`, `0000 | U`. -/
theorem test_decode_bulkRead : decode [0x07000001, 0x0000FFFE] = .ok (.bulkRead 0 1 0 0xFFFE, 2) := by decide
/-- `10 | 0000 | n`, then the bytes, most significant first, and the pad. -/
theorem test_decode_checksum :
    decode [0x10000005, 0x10203040, 0x50000000] = .ok (.checksum 0 [0x10, 0x20, 0x30, 0x40, 0x50] [0, 0, 0], 3) := by
  decide
/-- `11 | 00 | A`. -/
theorem test_decode_lowerMargin : decode [0x1100FFFF] = .ok (.lowerMargin 0 0xFFFF, 1) := by decide
/-- `12 | 00 | A`. -/
theorem test_decode_upperMargin : decode [0x1200FFF8] = .ok (.upperMargin 0 0xFFF8, 1) := by decide
/-- Unassigned opcodes (30_encoding.md R70), and a frame that is not complete (R77). -/
theorem test_decode_refused :
    decode [0x08000000] = .error (.illegalCommand 0x08) ∧ decode [0x13000000] = .error (.illegalCommand 0x13) ∧
      decode [0x03001000] = .error .incompleteFrame := by decide
/-- The frame lengths of V86. -/
theorem test_frameLength :
    frameLength [0x05000003] = some 7 ∧ frameLength [0x06000000, 0x00000004] = some 6 ∧
      frameLength [0x10000009] = some 4 ∧ frameLength [0x10000000] = some 1 ∧ frameLength [0x13000000] = some 1 := by
  decide

/-! ## Well-formed terms: one that each check refuses -/

/-- Each count has its field's width (30_encoding.md R72). -/
theorem test_encodable_refuses_counts :
    (Instr.dump 0 (List.replicate 65536 ⟨0, 0, 0, 0, 0⟩)).encodable = false ∧
      (Instr.verify 0 0 0 0 (List.replicate 131072 ⟨0, 0, 0⟩)).encodable = false ∧
      (Instr.checksum 0 (List.replicate 256 0) []).encodable = false := by
  simp only [Instr.encodable, List.length_replicate]
  decide
/-- The pad fills the last word (30_encoding.md R87). -/
theorem test_encodable_refuses_pad : (Instr.checksum 0 [1, 2, 3] []).encodable = false := by decide
/-- A reserved bit of word 0 (30_encoding.md R80 (b)). -/
theorem test_legal_refuses_reserved_word0 :
    (Instr.clrAddr 1).legal = false ∧ (Instr.clrData 1).legal = false ∧ (Instr.write 1 0 0 0).legal = false ∧
      (Instr.read 1 0).legal = false ∧ (Instr.dump 1 []).legal = false ∧ (Instr.verify 1 0 0 0 []).legal = false ∧
      (Instr.bulkRead 1 0 0 0).legal = false ∧ (Instr.checksum 1 [0] [0, 0, 0]).legal = false ∧
      (Instr.lowerMargin 1 0).legal = false ∧ (Instr.upperMargin 1 0).legal = false := by decide
/-- A reserved bit of a later word. -/
theorem test_legal_refuses_reserved_later :
    (Instr.write 0 0 1 0).legal = false ∧ (Instr.verify 0 0 0 1 []).legal = false ∧
      (Instr.verify 0 0 0 0 [⟨1, 0, 0⟩]).legal = false ∧ (Instr.bulkRead 0 0 1 0).legal = false := by decide
/-- The operand ranges of 30_encoding.md R80 (c). -/
theorem test_legal_refuses_ranges :
    (Instr.verify 0 0 0 0 [⟨0, 5, 1⟩, ⟨0, 5, 2⟩]).legal = false ∧ (Instr.bulkRead 0 9 0 8).legal = false ∧
      (Instr.checksum 0 [] []).legal = false ∧ (Instr.checksum 0 [1] [0, 0, 1]).legal = false := by decide
/-- More than 65536 mapping entries (V59). -/
theorem test_legal_refuses_many_entries :
    (Instr.verify 0 0 0 0 (List.replicate 65537 ⟨0, 0, 0⟩)).legal = false := by
  simp only [Instr.legal, List.length_replicate, show decide (65537 ≤ maxVerifyEntries) = false by decide,
    Bool.and_false, Bool.false_and]
/-- A well-formed term. -/
theorem test_wellFormed : WellFormed (.verify 0 3 0 0 [⟨0, 0, 0xD8⟩, ⟨0, 1, 0xDB⟩]) := by decide

/-! ## One step of each command -/

set_option maxRecDepth 6000

/-- V45. -/
theorem test_clrAddr : ∃ t, step (fresh [0x01000000]) = .next t ∧
    t.out = [0x01000001] ∧ t.clra = true ∧ t.sa = allZero 16 := exists_next (by decide)
/-- V55: a reserved bit. -/
theorem test_clrAddr_reserved : ∃ t, step (cleared [] [0x01000001]) = .next t ∧ t.out = [0x01020003] :=
  exists_next (by decide)
/-- V46. -/
theorem test_clrData : ∃ t, step { fresh [0x02000000] with clra := true } = .next t ∧
    t.out = [0x02000003] ∧ t.clrd = true ∧ t.sd = allZero 24 := exists_next (by decide)
/-- V47. -/
theorem test_write : ∃ t, step (cleared [] [0x03001000, 0x00020023]) = .next t ∧
    t.out = [0x03000003] ∧ t.mem = [(0x1000, 0x020023)] := exists_next (by decide)
/-- V48. -/
theorem test_read : ∃ t, step (cleared [(0x1000, 0x020023)] [0x04001000]) = .next t ∧
    t.out = [0x04000003, 0x00020023] ∧ t.mem = [(0x1000, 0x020023)] := exists_next (by decide)
/-- V49: the bit order. -/
theorem test_read_bit_order : ∃ t, step (cleared [(0, 1)] [0x04000000]) = .next t ∧
    t.out = [0x04000003, 0x00000001] := exists_next (by decide)
/-- V42. -/
theorem test_dump : ∃ t,
    step (cleared [] [0x05000002, 0x03000000, 0x020023D8, 0x03000100, 0x0A0B0CDB]) = .next t ∧
      t.out = [0x05000003, 0x00000002, 0x000000D8, 0x000001DB] ∧ t.mem = twoWords ∧ t.progress = 2 :=
  exists_next (by decide)
/-- V44: two records of one address. -/
theorem test_dump_repeated : ∃ t,
    step (cleared [] [0x05000002, 0x03000500, 0x111111C5, 0x03000500, 0x22222292]) = .next t ∧
      t.out = [0x05000003, 0x00000001, 0x00000592] ∧ t.mem = [(5, 0x222222)] := exists_next (by decide)
/-- V40. -/
theorem test_verify : ∃ t, step (cleared twoWords [0x06000300, 0x00000002, 0x000000D8, 0x000001DB]) = .next t ∧
    t.out = [0x06000003, 0xC0000002, 0x800000D8, 0xD8020023, 0x800001DB, 0xDB0A0B0C] := exists_next (by decide)
/-- V41: a line that does not pass. -/
theorem test_verify_mismatch : ∃ t,
    step (cleared twoWords [0x06000300, 0x00000002, 0x000000D8, 0x00000100]) = .next t ∧
      t.out = [0x06000003, 0x00000002, 0x800000D8, 0xD8020023, 0x000001DB, 0x000A0B0C] := exists_next (by decide)
/-- V61. -/
theorem test_bulkRead : ∃ t, step (cleared eightWords [0x07000005, 0x00000005]) = .next t ∧
    t.out = [0x07000003, 0x00070000, 0x00000008, 0x10, 0x11, 0x12, 0x13, 0x14, 0x01000015, 0x16, 0x17] :=
  exists_next (by decide)
/-- S1. -/
theorem test_checksum : ∃ t, step (fresh [0x10000007, 0x03000000, 0x02002300]) = .next t ∧
    t.out = [0x10000000, 0x000000D8] := exists_next (by decide)
/-- V38: a pad byte that is not 0. -/
theorem test_checksum_pad : ∃ t, step (fresh [0x10000001, 0x01000001]) = .next t ∧
    t.out = [0x10020000] ∧ t.cmdPtr = 2 := exists_next (by decide)
/-- V66. -/
theorem test_lowerMargin : ∃ t, step (fresh [0x1100FFFF]) = .next t ∧ t.out = [0x11000000, 0x0000FFF8] :=
  exists_next (by decide)
/-- V67. -/
theorem test_upperMargin : ∃ t, step (fresh [0x12000008]) = .next t ∧ t.out = [0x12000000, 0x0000000F] :=
  exists_next (by decide)
/-- V60: a FAIL in the address engine. -/
theorem test_write_failure : ∃ t,
    step (failsAfter 9 .fail (cleared twoWords [0x03001000, 0x00020023])) = .next t ∧
      t.out = [0x03040004] ∧ Havocked t ∧ t.io = [] := exists_next (by decide)
/-- A reset inside a BULK_READ keeps the memory (70_reset_and_hazards.md R232). -/
theorem test_bulkRead_reset : ∃ t,
    step { cleared eightWords [0x07000005, 0x00000005] with resets := [500] } = .next t ∧
      t.out = [] ∧ t.mem = eightWords ∧ t.clra = false ∧ t.phase = .resetting := exists_next (by decide)
/-- The example of 40_pin.md R100, with the default polarities: `A_CLR`, `D_CLR`, `RD_LATCH` and `WR_EN` at 1, the
other nine outputs at 0. -/
theorem test_bind_default_levels :
    (drivesOf bindOps).map (driveLevel Config.Parameters.default) =
      [(.out .aSer, false), (.out .aSclk, false), (.out .aRclk, false), (.out .aClr, true), (.out .dSer, false),
       (.out .dSclk, false), (.out .dRclk, false), (.out .dClr, true), (.out .rdLatch, true), (.out .rdClk, false),
       (.out .wrEn, true), (.out .wrClk, false), (.out .notify, false)] := by
  decide
/-- The default durations of 70_reset_and_hazards.md R245. -/
theorem test_default_durations :
    waitTimeBy Config.Parameters.default.minTime (shiftOps .addr (0 : Addr)) = 1650 ∧
      waitTimeBy Config.Parameters.default.minTime (shiftOps .data (0 : Data)) = 2450 ∧
      waitTimeBy Config.Parameters.default.minTime (clearOps .addr) = 50 ∧
      waitTimeBy Config.Parameters.default.minTime (readOps 0) = 5250 ∧
      waitTimeBy Config.Parameters.default.minTime blinkOps = 1500 := by
  decide
/-- Blink's levels as 44_batch.md R164 writes them, with the default polarity. -/
theorem test_blink_default_levels :
    (drivesOf blinkOps).map (driveLevel Config.Parameters.default) =
      [(.out .notify, true), (.out .notify, false), (.out .notify, true), (.out .notify, false)] := by
  decide
/-- S2, S3, V22 and V24. -/
theorem test_hexCodec :
    toDecimal ['0', 'x', '9', 'e'] = .ok 158 ∧
      binToHex ['0', 'b', '1', '0', '1', '0', '0', '0', '0', '1', '1', '1', '1', '1'] =
        .ok ['0', 'x', 'a', '1', 'f'] ∧
      toBinaryString ['0', 'x', '0', 'a'] = .ok ['0', 'b', '0', '0', '0', '0', '1', '0', '1', '0'] ∧
      decimalToHex 0xFFFF = .ok ['0', 'x', 'f', 'f', 'f', 'f'] ∧ decimalToHex 0x10000 = .error .formatError := by
  decide
/-- V80, with another marker (V82), and V83. -/
theorem test_record :
    decodeRecord ['X', '0', '3', '0', '0', '0', '0', '0', '0', '0', '2', '0', '0', '2', '3', 'd', '8'] =
        .ok ⟨0x03, 0x0000, 0x00, 0x020023, 0xD8⟩ ∧
      decodeRecord [':', '0', '3', '0', '0', '0', '0', '0', '0', '0', '2', '0', '0', '2', '3', 'd'] =
        .error .formatError := by
  decide
/-- A line of assembler text (30_encoding.md R83). -/
theorem test_assembler :
    (assembleLine ['W', 'R', 'I', 'T', 'E', ' ', '0', 'x', '1', '0', '0', '0', ',', ' ', '0', 'x', '0', '2', '0', '0',
      '2', '3']).map encode = .ok [0x03001000, 0x00020023] := by
  decide
/-- The host's numbering of an instruction's bits: a WRITE of which 64 bits are given, and a DUMP with one record
of which 32 are, its operand words 0. -/
theorem test_tableWord :
    decodeTableWord 64 0x0002002303001000 = some (.write 0 0x1000 0 0x020023) ∧
      decodeTableWord 32 0x05000001 = some (.dump 0 [⟨0, 0, 0, 0, 0⟩]) ∧ decodeTableWord 32 0x08000000 = none := by
  decide

/-! ## For each statement with hypotheses, a state and operands that meet them -/

/-- A record and an entry with every bit set. -/
def fullRecord : Record := ⟨0xFF, 0xFFFF, 0xFF, 0xFFFFFF, 0xFF⟩

theorem witness_DecodeEncode :
    (Instr.dump 0xFF [fullRecord]).encodable = true ∧ (Instr.verify 0 0 0 0 [⟨0xFF, 0xFFFF, 0xFF⟩]).encodable = true ∧
      (Instr.checksum 0 [] []).encodable = true ∧ (Instr.checksum 0 [1, 2, 3, 4, 5] [0, 0, 7]).encodable = true := by
  decide

theorem witness_DecodeEncode_greatest_counts :
    (Instr.dump 0 (List.replicate 65535 fullRecord)).encodable = true ∧
      (Instr.verify 0 0 0 0 (List.replicate 131071 ⟨0, 0, 0⟩)).encodable = true ∧
      (Instr.checksum 0 (List.replicate 255 0) [0]).encodable = true := by
  simp only [Instr.encodable, List.length_replicate]
  decide

theorem witness_EncodeDecode :
    decode [0x03FFFFFF, 0xFFFFFFFF, 0x01000000] = .ok (.write 0xFF 0xFFFF 0xFF 0xFFFFFF, 2) := by decide

/-- Both sides of each boundary of the table, and a frame present to its last word. -/
theorem witness_OpcodeMap :
    (Unassigned (opcField 0x00000000) ∧ Unassigned (opcField 0x08000000) ∧ Unassigned (opcField 0x0FFFFFFF) ∧
      Unassigned (opcField 0x13000000) ∧ Unassigned (opcField 0xFF000000)) ∧
    (¬ Unassigned (opcField 0x01000000) ∧ ¬ Unassigned (opcField 0x07FFFFFF) ∧ ¬ Unassigned (opcField 0x10000000) ∧
      ¬ Unassigned (opcField 0x12000000)) ∧
    (tableLength 0x06000000 (some 0x00000001) = some 3 ∧ 3 ≤ [(0x00000001 : Word), 0].length + 1) ∧
    decode [0x12000000] = .ok (.upperMargin 0 0, 1) := by
  decide

theorem witness_OperandFields :
    decode [0x0600FFFF, 0x00000001, 0x00FFFFFF] = .ok (.verify 0 0xFF 0xFF 0 [⟨0, 0xFFFF, 0xFF⟩], 3) ∧
    ∃ t, exec (.write 0 0xFFFF 0 0xFFFFFF) (cleared [] []) = .next t ∧ t.phase ≠ .resetting ∧
      (cleared [] []).phase = .idle ∧ admission (.write 0 0xFFFF 0 0xFFFFFF) (cleared [] []) = none :=
  ⟨by decide, exists_next (by decide)⟩

/-- The first and the last record and entry of a frame, and two records that differ in `BC` and `TYPE` alone. -/
theorem witness_RecordAndEntryWords :
    decode [0x05000002, 0x01020304, 0x05060708, 0xFFFFFFFF, 0xFFFFFFFF] =
      .ok (.dump 0 [⟨1, 0x0203, 4, 0x050607, 8⟩, fullRecord], 5) ∧
    [fullRecord].map (fun r => (r.addr, r.data, r.ck)) =
      [{ fullRecord with bc := 0, type := 0 }].map (fun r => (r.addr, r.data, r.ck)) ∧
    decode [0x06000000, 0x00000002, 0x00000001, 0xFFFFFFFF] =
      .ok (.verify 0 0 0 0 [⟨0, 0, 1⟩, ⟨0xFF, 0xFFFF, 0xFF⟩], 4) ∧
    ∃ e ∈ [(⟨0, 0, 0⟩ : Entry), ⟨1, 1, 0⟩], e.rsv ≠ 0 := by
  decide

/-- Byte 5 of V87 is in word 2, bits [23:16]; the pad byte is the last one, and is not 0. -/
theorem witness_PackedBytes :
    decode [0x10000007, 0x00000000, 0x00AB0001] = .ok (.checksum 0 [0, 0, 0, 0, 0, 0xAB, 0] [1], 3) ∧
      packedByte [0x10000007, 0x00000000, 0x00AB0001] 5 = 0xAB := by
  decide

/-- The first word already received; the reset comes just after the last one. -/
theorem witness_StepRunsDecodedCommand :
    let s := { cleared [] [0x00020023, 0x04001000] with rx := [0x03001000], phase := .receiving, resets := [1] }
    Waiting s ∧ decode (s.rx ++ s.words) = .ok (.write 0 0x1000 0 0x020023, 2) ∧
      resetWithin (2 - s.rx.length) s.resets = none := by
  decide

theorem witness_FrameLength : ∃ t, step (fresh [0x10000009, 1, 2, 3]) = .next t ∧ Waiting (fresh [0x10000009, 1, 2, 3]) ∧
    tableLength 0x10000009 (some 1) = some 4 ∧ 4 ≤ [(1 : Word), 2, 3].length + 1 := exists_next (by decide)

theorem witness_FrameInPieces : ∃ t, step (fresh [0x05000001, 0]) = .next t ∧
    decode [0x05000001, 0] = .error .incompleteFrame := exists_next (by decide)

/-- A block that has received one word of two. -/
def receivingState : State := { cleared twoWords [0x00020023, 0x04001000] with rx := [0x03001000], phase := .receiving }

theorem inv_receivingState : Inv receivingState where
  memory := by decide
  quiet _ _ := rfl
  failed h := nomatch h
  failedWaits h := nomatch h
  addrKnown _ _ := by decide
  dataKnown _ _ := by decide
  idleStep _ := rfl
  partial_frame := by decide
  resetFlags h := nomatch h
  hungOpcode h := nomatch h

/-- A block that an I/O operation hangs, with the reset input about to be asserted. -/
def hungState : State :=
  { cleared twoWords [] with phase := .hung, opc := .known 0x03, micro := 7, resets := [0] }

theorem inv_hungState : Inv hungState where
  memory := by decide
  quiet h _ := by rcases h with h | h <;> cases h
  failed h := nomatch h
  failedWaits h := nomatch h
  addrKnown h _ := by rcases h with h | h <;> cases h
  dataKnown h _ := by rcases h with h | h <;> cases h
  idleStep h := by rcases h with h | h <;> cases h
  partial_frame := by decide
  resetFlags h := nomatch h
  hungOpcode _ := nofun

theorem witness_CommandWordsConserved : ∃ t, step receivingState = .next t ∧ t.cmdPtr = 2 := exists_next (by decide)

/-- An unassigned opcode; a reserved bit; an operand out of range by one; a frame with none of these. -/
theorem witness_RefusedEncodings :
    (Waiting (fresh [0x13000000]) ∧ Unassigned (opcField 0x13000000)) ∧
    (decode [0x03010000, 0] = .ok (.write 1 0 0 0, 2) ∧ ReservedSet [0x03010000, 0]) ∧
    (decode [0x07000001, 0] = .ok (.bulkRead 0 1 0 0, 2) ∧ OutOfRange [0x07000001, 0] ∧
      ¬ ReservedSet [0x07000001, 0]) ∧
    decode [0x07000001, 1] = .ok (.bulkRead 0 1 0 1, 2) ∧ ¬ ReservedSet [0x07000001, 1] ∧
      ¬ OutOfRange [0x07000001, 1] := by
  refine ⟨by decide, by decide, ⟨by decide, ?_, by decide⟩, by decide, by decide, ?_⟩ <;>
    simp [OutOfRange, opcField, frameWord]

/-- One state for each check, and one that passes them all. -/
theorem witness_AdmissionOrder :
    (Waiting { fresh [0x08000000] with ioerr := true } ∧ Unassigned (opcField 0x08000000)) ∧
    (Instr.read 1 0).legal = false ∧
    ((Instr.read 0 0).legal = true ∧ { fresh [] with ioerr := true }.ioerr = true) ∧
    (NeedsClra (opcodeNumber (.read 0 0)) ∧ (fresh []).clra = false) ∧
    (NeedsClrd (opcodeNumber (.write 0 0 0 0)) ∧ { cleared [] [] with clrd := false }.clrd = false) ∧
    ∃ t, exec (.write 0 0 0 0) (cleared [] []) = .next t ∧ t.phase = (cleared [] []).phase ∧
      t.out ≠ (cleared [] []).out :=
  ⟨by decide, by decide, by decide, by decide, by decide, exists_next (by decide)⟩

/-- A command of each outcome. -/
theorem witness_CommandOutcome :
    (∃ t, exec (.clrAddr 0) (fresh []) = .next t ∧ t.phase = .idle) ∧
    (∃ t, exec (.clrAddr 0) (failsAfter 1 .never (fresh [])) = .next t ∧ t.phase = .hung) ∧
    ∃ t, exec (.clrAddr 0) { fresh [] with resets := [3] } = .next t ∧ t.phase = .resetting :=
  ⟨exists_next (by decide), exists_next (by decide), exists_next (by decide)⟩

/-- The greatest number of lines, entries and values. -/
theorem witness_ResponseFields :
    (List.replicate 65536 (⟨0, 0, 0, 0⟩ : Line)).length ≤ 65536 ∧
      (List.replicate 65536 ((0, 0) : Addr × Byte)).length ≤ 65536 ∧
      (List.replicate 65536 (0 : Word)).length ≤ 65536 := by
  simp only [List.length_replicate]
  decide

theorem witness_ClearsComplete : Ready (fresh []) := by decide

theorem witness_WriteCompletes :
    Ready { cleared [] [] with sched := [.data, .addr, .data] } ∧
      { cleared [] [] with sched := [.data, .addr, .data] }.clra = true ∧
      { cleared [] [] with sched := [.data, .addr, .data] }.clrd = true := by
  decide

theorem witness_ReadCompletes : Ready (cleared twoWords []) ∧ (cleared twoWords []).clra = true := by decide

theorem witness_DumpCompletes :
    Ready (cleared [] []) ∧ (cleared [] []).clra = true ∧ (cleared [] []).clrd = true := by
  decide

/-- The lines of the one entry all pass, and of both do not. -/
theorem witness_VerifyCompletes :
    Ready (cleared twoWords []) ∧ (∀ e ∈ [(⟨0, 0, 0xD8⟩ : Entry), ⟨0, 0xFFFF, 0⟩], e.rsv = 0) ∧
      [(⟨0, 0, 0xD8⟩ : Entry), ⟨0, 0xFFFF, 0⟩].length ≤ 65536 ∧
      ([(⟨0, 0, 0xD8⟩ : Entry), ⟨0, 0xFFFF, 0⟩].map Entry.addr).Nodup ∧
      ([⟨0, 0xD8, 0x020023, ck8 (canon 3 0 0 0x020023)⟩] : List Line).all (fun l => l.computed == l.expected) = true := by
  decide

theorem witness_BulkReadCompletes : Ready (cleared eightWords []) ∧ (0xFFFF : Addr) ≤ 0xFFFF ∧ (0 : Addr) ≤ 0xFFFF := by
  decide

theorem witness_ChecksumCompletes :
    [(0xFF : Byte)] ≠ [] ∧ (∀ b ∈ [(0 : Byte), 0, 0], b = 0) ∧ (fresh []).ioerr = false ∧ (fresh []).resets = [] := by
  decide

theorem witness_MarginsComplete : (cleared [] []).ioerr = false ∧ (cleared [] []).resets = [] := by decide

theorem witness_EveryCommandAnswers :
    (failsAfter 3 .fail (cleared [] [])).resets = [] ∧ IoAnswers (failsAfter 3 .fail (cleared [] [])) := by
  decide

theorem witness_ClearEffect :
    Quiet (fresh []) ∧ (∃ t, exec (.clrAddr 0) (fresh []) = .next t ∧ EndsOk 0x01 [] (fresh []) t) ∧
      ∃ t, exec (.clrData 0) (fresh []) = .next t ∧ EndsOk 0x02 [] (fresh []) t :=
  ⟨by decide, exists_next (by decide), exists_next (by decide)⟩

theorem witness_WriteEffect : ∃ t, exec (.write 0 0xFFFF 0 0xFFFFFF) (cleared twoWords []) = .next t ∧
    Quiet (cleared twoWords []) ∧ EndsOk 0x03 [] (cleared twoWords []) t := exists_next (by decide)

theorem witness_ReadEffect : ∃ t, exec (.read 0 1) (cleared twoWords []) = .next t ∧
    Quiet (cleared twoWords []) ∧ EndsOk 0x04 [0x000A0B0C] (cleared twoWords []) t := exists_next (by decide)

theorem witness_PureCommandFrame :
    (fresh []).phase = .idle ∧
    (∃ t, exec (.checksum 0 [1] [0, 0, 0]) (fresh []) = .next t ∧ t.phase ≠ .resetting) ∧
    (∃ t, exec (.lowerMargin 0 7) (fresh []) = .next t ∧ t.phase ≠ .resetting) ∧
    ∃ t, exec (.upperMargin 1 7) (fresh []) = .next t ∧ t.phase ≠ .resetting :=
  ⟨by decide, exists_next (by decide), exists_next (by decide), exists_next (by decide)⟩

theorem witness_DumpEffect : ∃ t,
    exec (.dump 0 [⟨3, 5, 0, 0x111111, 0xC5⟩, ⟨3, 5, 0, 0x222222, 0x92⟩]) (cleared twoWords []) = .next t ∧
      Quiet (cleared twoWords []) ∧ EndsOk 0x05 [1, 0x00000592] (cleared twoWords []) t := exists_next (by decide)

theorem witness_VerifyEffect : ∃ t,
    exec (.verify 0 3 0 0 [⟨0, 0, 0xD8⟩, ⟨0, 1, 0⟩]) (cleared twoWords []) = .next t ∧ Quiet (cleared twoWords []) ∧
      EndsOk 0x06 [0x00000002, 0x800000D8, 0xD8020023, 0x000001DB, 0x000A0B0C] (cleared twoWords []) t :=
  exists_next (by decide)

theorem witness_BulkReadEffect : ∃ t,
    exec (.bulkRead 0 5 0 5) (cleared eightWords []) = .next t ∧ Quiet (cleared eightWords []) ∧
      EndsOk 0x07 [0x00070000, 8, 0x10, 0x11, 0x12, 0x13, 0x14, 0x01000015, 0x16, 0x17] (cleared eightWords []) t :=
  exists_next (by decide)

/-- A state whose SRAM is the one that the WRITE left. -/
theorem witness_WriteThenRead :
    (∃ t, exec (.write 0 5 0 9) (cleared [] []) = .next t ∧ Quiet (cleared [] []) ∧
      EndsOk 0x03 [] (cleared [] []) t ∧ (cleared [(5, 9)] []).mem = t.mem) ∧
    ∃ v, exec (.read 0 5) (cleared [(5, 9)] []) = .next v ∧ Quiet (cleared [(5, 9)] []) ∧
      EndsOk 0x04 [9] (cleared [(5, 9)] []) v :=
  ⟨exists_next (by decide), exists_next (by decide)⟩

theorem witness_InterleavingDoesNotMatter :
    (∃ t, exec (.write 0 5 0 9) { cleared [] [] with sched := [] } = .next t ∧ EndsOk 0x03 [] (cleared [] []) t) ∧
    ∃ t, exec (.write 0 5 0 9) { cleared [] [] with sched := [.data, .addr, .data, .data] } = .next t ∧
      EndsOk 0x03 [] (cleared [] []) t :=
  ⟨exists_next (by decide), exists_next (by decide)⟩

/-- The invariant holds of a block that receives and of one that hangs, and each takes a step. -/
theorem witness_InvPreserved :
    (Inv receivingState ∧ ∃ t, step receivingState = .next t ∧ t.phase = .idle) ∧
      Inv hungState ∧ ∃ t, step hungState = .next t ∧ t.phase = .resetting :=
  ⟨⟨inv_receivingState, exists_next (by decide)⟩, inv_hungState, exists_next (by decide)⟩

theorem witness_OnlyWritesChangeMemory :
    (∃ t, exec (.read 0 1) (cleared twoWords []) = .next t ∧ IoNoFail (cleared twoWords []) ∧
      opcodeNumber (.read 0 1) ≠ 0x03 ∧ opcodeNumber (.read 0 1) ≠ 0x05) ∧
    ∃ t, exec (.read 0 1) (failsAfter 0 .fail (cleared twoWords [])) = .next t ∧ t.mem = Memory.unknown :=
  ⟨exists_next (by decide), exists_next (by decide)⟩

/-- A step that sets each flag and one that clears it. -/
theorem witness_FlagsChange :
    (∃ t, step (fresh [0x01000000]) = .next t ∧ (fresh [0x01000000]).clra = false ∧ t.clra = true) ∧
    (∃ t, step (fresh [0x02000000]) = .next t ∧ (fresh [0x02000000]).clrd = false ∧ t.clrd = true) ∧
    (∃ t, step (failsAfter 0 .fail (cleared [] [0x04000000])) = .next t ∧ t.clra = false ∧ t.clrd = false ∧
      t.ioerr = true) ∧
    ∃ t, step { fresh [] with ioerr := true, resets := [0] } = .next t ∧ t.ioerr = false :=
  ⟨exists_next (by decide), exists_next (by decide), exists_next (by decide), exists_next (by decide)⟩

theorem witness_FailureHavocs : ∃ t,
    exec (.read 0 0) (failsAfter 123 .fail (cleared twoWords [])) = .next t ∧
      (failsAfter 123 .fail (cleared twoWords [])).ioerr = false ∧ t.ioerr = true := exists_next (by decide)

/-- The last operation of each, failing and never answered. -/
theorem witness_FirstFailureEndsCommand :
    (failsAfter 1 .fail (fresh [])).resets = [] ∧ (failsAfter 1 .fail (fresh [])).ioerr = false ∧
    (failsAfter 1 .fail (fresh [])).io = List.replicate 1 .ok ++ .fail :: [] ∧
    (failsAfter 123 .never (cleared [] [])).clra = true ∧
    (failsAfter 123 .never (cleared [] [])).io = List.replicate 123 .ok ++ .never :: [] ∧ 1 < 2 ∧ 123 < 124 := by
  decide

/-- A WRITE's state in which the I/O layer answers `k` operations OK, then `o`, then OK, under this schedule. -/
def stopsAt (k : Nat) (o : IoOutcome) (sched : List Chain) : State :=
  { failsAfter k o (cleared [] []) with sched := sched }

/-- The first and the last operation of the shifts, failing and never answered, and no other failing. -/
theorem witness_BarrierBeforeStrobe : ∀ k ∈ [0, 48, 49, 125], ∀ o ∈ [IoOutcome.fail, .never],
    ∀ sched ∈ [[], [Chain.data, .addr, .data]],
      (stopsAt k o sched).resets = [] ∧ Quiet (stopsAt k o sched) ∧ k < 126 ∧ o ≠ .ok ∧
        (stopsAt k o sched).io = List.replicate k .ok ++ o :: [] ∧ (stopsAt k o sched).ioRest = some .ok := by
  decide

/-- With the address engine first its register clock is operation 48, and the data engine's operations follow; with
the data engine first they come before. -/
theorem witness_BarrierBeforeStrobe_turns :
    (pinTurns 5 9 [])[48]? = some .addr ∧ ((pinTurns 5 9 []).take 48).count .addr = 48 ∧
    (pinTurns 5 9 [])[51]? = some .data ∧
    (pinTurns 5 9 (List.replicate 148 .data))[72]? = some .data ∧
    ((pinTurns 5 9 (List.replicate 148 .data)).take 72).count .data = 72 ∧
    (pinTurns 5 9 (List.replicate 148 .data))[75]? = some .addr := by
  decide

/-- DUMP fails in its second record, VERIFY in its blink, BULK_READ in its second read. -/
theorem witness_BatchFailure :
    Quiet (failsAfter 127 .fail (cleared twoWords [])) ∧ Quiet (failsAfter 124 .fail (cleared eightWords [])) ∧
    (∃ t, exec (.dump 0 [fullRecord, fullRecord]) (failsAfter 131 .fail (cleared [] [])) = .next t ∧ t.ioerr = true) ∧
    (∃ t, exec (.verify 0 3 0 0 [⟨0, 0, 0xD8⟩]) (failsAfter 127 .fail (cleared twoWords [])) = .next t ∧
      t.ioerr = true) ∧
    ∃ t, exec (.bulkRead 0 5 0 5) (failsAfter 124 .fail (cleared eightWords [])) = .next t ∧ t.ioerr = true ∧
      t.out = [0x07040004, 0x00070000, 1, 0x10] ∧ t.io = [] :=
  ⟨by decide, by decide, exists_next (by decide), exists_next (by decide), exists_next (by decide)⟩

theorem witness_HungUntilReset :
    (∃ t, step { hungState with resets := [1] } = .next t ∧ { hungState with resets := [1] }.resetDue = false) ∧
    (∃ t, step hungState = .next t ∧ hungState.resetDue = true) ∧
    ∃ t, step { fresh [] with phase := .held } = .next t ∧ { fresh [] with phase := .held }.resetDue = false :=
  ⟨exists_next (by decide), exists_next (by decide), exists_next (by decide)⟩

theorem witness_ResetCutsCommand :
    (∃ t, exec (.write 0 0 0 0) { cleared twoWords [] with resets := [100] } = .next t ∧ t.phase = .resetting) ∧
    ∃ t, exec (.read 0 0) { cleared twoWords [] with resets := [9] } = .next t ∧ t.phase = .resetting ∧
      IoNoFail { cleared twoWords [] with resets := [9] } :=
  ⟨exists_next (by decide), exists_next (by decide)⟩

/-- A bind after power-on, and one whose last drive fails. -/
theorem witness_BindEndsReset :
    (State.powerOn.phase = .resetting ∧ State.powerOn.resets = [] ∧ IoOk State.powerOn) ∧
    (failsAfter 12 .fail State.powerOn).phase = .resetting ∧ (failsAfter 12 .fail State.powerOn).resets = [] ∧
      IoOutcome.fail ≠ .ok ∧
      (failsAfter 12 .fail State.powerOn).io = List.replicate 12 .ok ++ .fail :: [] ∧ 12 < 13 := by
  decide

theorem witness_ResetValues :
    (hungState.phase = .hung ∧ hungState.words = [] ∧ hungState.rx = [] ∧ hungState.resets = [0] ∧ IoOk hungState) ∧
    Waiting { cleared twoWords [] with resets := [0] } ∧ IoOk { cleared twoWords [] with resets := [0] } := by
  decide

/-- A block whose write strobe is next: the address and the data stand at the outputs of their chains. -/
def strobeState (wrEn : Level) : State :=
  { cleared twoWords [] with
    oa := bitsOf (1 : Addr), od := bitsOf (0xABCDEF : Data), pins := { Pins.released with wrEn := wrEn } }

/-- The micro-operation completes. -/
def completes (r : Run Unit (List Bool)) : Bool :=
  match r with
  | .done _ _ => true
  | .failed _ _ => false
  | .hung _ => false
  | .cut _ => false
  | .fault _ => false

theorem exists_done {r : Run Unit (List Bool)} (h : completes r = true) : ∃ bs t, r = .done bs t := by
  cases r with
  | done bs t => exact ⟨bs, t, rfl⟩
  | failed e t => cases h
  | hung t => cases h
  | cut t => cases h
  | fault f => cases h

/-- Write-enable at each of its levels, and the address and the data known and unknown. -/
theorem witness_SramWriteEdge :
    (∀ l : Level, ∃ bs t, (strobeState l).pins.wrClk = .released ∧ (strobeState l).pins.wrEn = l ∧
      stepOp (.drive (.out .wrClk) true) (strobeState l) = .done bs t) ∧
    (wordOf (strobeState .asserted).oa = .known 1 ∧ wordOf (strobeState .asserted).od = .known 0xABCDEF) ∧
    (∃ bs t, wordOf { strobeState .asserted with od := allBot 24 }.od = .bot ∧
      stepOp (.drive (.out .wrClk) true) { strobeState .asserted with od := allBot 24 } = .done bs t) ∧
    ∃ bs t, wordOf { strobeState .asserted with oa := allBot 16 }.oa = .bot ∧
      stepOp (.drive (.out .wrClk) true) { strobeState .asserted with oa := allBot 16 } = .done bs t := by
  refine ⟨fun l => ?_, by decide, ?_, ?_⟩
  · obtain ⟨bs, t, h⟩ := exists_done (r := stepOp (.drive (.out .wrClk) true) (strobeState l)) (by cases l <;> decide)
    exact ⟨bs, t, by cases l <;> rfl, rfl, h⟩
  · obtain ⟨bs, t, h⟩ := exists_done
      (r := stepOp (.drive (.out .wrClk) true) { strobeState .asserted with od := allBot 24 }) (by decide)
    exact ⟨bs, t, by decide, h⟩
  · obtain ⟨bs, t, h⟩ := exists_done
      (r := stepOp (.drive (.out .wrClk) true) { strobeState .asserted with oa := allBot 16 }) (by decide)
    exact ⟨bs, t, by decide, h⟩

/-- A known word, an unknown word, and a write-enable that is not released. -/
theorem witness_SramReadEdge :
    (∀ l : Level, ∃ bs t, (strobeState l).pins.rdLatch = .released ∧
      stepOp (.drive (.out .rdLatch) true) (strobeState l) = .done bs t) ∧
    (Memory.read (strobeState .released).mem 1 = .known 0x0A0B0C ∧ wordOf (strobeState .released).oa = .known 1) ∧
    ∃ bs t, Memory.read { strobeState .released with mem := [] }.mem 1 = .bot ∧
      stepOp (.drive (.out .rdLatch) true) { strobeState .released with mem := [] } = .done bs t := by
  refine ⟨fun l => ?_, by decide, ?_⟩
  · obtain ⟨bs, t, h⟩ := exists_done (r := stepOp (.drive (.out .rdLatch) true) (strobeState l)) (by cases l <;> decide)
    exact ⟨bs, t, by cases l <;> rfl, h⟩
  · obtain ⟨bs, t, h⟩ := exists_done
      (r := stepOp (.drive (.out .rdLatch) true) { strobeState .released with mem := [] }) (by decide)
    exact ⟨bs, t, by decide, h⟩

/-- A release, an assert that is no edge, a Sample and a Wait. -/
theorem witness_NoEdgeNoReaction :
    (∃ bs t, stepOp (.drive (.out .aSclk) false) (strobeState .released) = .done bs t) ∧
    (∃ bs t, (strobeState .asserted).pins.get .wrEn = .asserted ∧
      stepOp (.drive (.out .wrEn) true) (strobeState .asserted) = .done bs t) ∧
    (∃ bs t, stepOp (.sample .rdSer) { strobeState .released with q := bitsOf (0 : Data) } = .done bs t) ∧
    ∃ bs t, stepOp (.wait .hold) (strobeState .released) = .done bs t := by
  refine ⟨exists_done (by decide), ?_, exists_done (by decide), exists_done (by decide)⟩
  obtain ⟨bs, t, h⟩ := exists_done (r := stepOp (.drive (.out .wrEn) true) (strobeState .asserted)) (by decide)
  exact ⟨bs, t, rfl, h⟩

/-- Both chains, from stages that are unknown (V12 and V13). -/
theorem witness_ShiftPostcondition :
    ((fresh []).pins.aSclk = .released ∧ (fresh []).pins.aRclk = .released ∧ (fresh []).pins.aClr = .released ∧
      (fresh []).pins.dSclk = .released ∧ (fresh []).pins.dRclk = .released ∧ (fresh []).pins.dClr = .released) ∧
    (∃ bs t, runOps (shiftOps .addr (0x1234 : Addr)) (fresh []) = .done bs t) ∧
    ∃ bs t, runOps (shiftOps .data (0x800001 : Data)) (fresh []) = .done bs t :=
  ⟨by decide, exists_done (by decide), exists_done (by decide)⟩

theorem witness_OutputsHeldDuringShift : ∃ t,
    runState (runOps (shiftLoopOps .addr 0 [true, false]) (failsAfter 4 .fail (strobeState .released))) = some t :=
  Option.isSome_iff_exists.1 (by decide)

theorem witness_ChecksumValidates : [(1 : Byte), 2, 3].Perm [3, 1, 2] := by decide

theorem witness_MapPutSemantics :
    (5 : Addr) ∉ [((4 : Addr), (1 : Byte))].map Prod.fst ∧ (5 : Addr) ∉ ([] : Mapping).map Prod.fst := by
  decide

theorem witness_Margins : 0xFFF8 % 8 = 0 ∧ 0xFFF8 ≤ (0xFFFF : Addr).toNat ∧ 7 % 8 = 7 ∧ (0 : Addr).toNat ≤ 7 := by decide

theorem witness_WindowShape : (0 : Addr) ≤ 0xFFFF ∧ (7 : Addr) ≤ 8 ∧ (5 : Addr) ≤ 5 := by decide

theorem witness_HexRoundTrip : parseHex ['0', 'x', '0', '2', 'A', 'f'] = .ok ⟨0x02AF, 4⟩ := by decide

end Sys2Proof.Tests
end

section
/-! The SRAM's reaction to the write clock (20_memory.md R54): what a read answers after a changed word, the
memory after a completed micro-operation, and the obligation on the write edge. -/

namespace Sys2Proof.Machine

/-! ## What a read answers after one word changed -/

theorem Memory.read_set (m : Memory) (a b : Nat) (v : Data) :
    Memory.read (Memory.set m a v) b = if b = a then .known v else Memory.read m b := by
  split
  case isTrue h => rw [h, Memory.read_set_same]
  case isFalse h => exact Memory.read_set_other m v h

theorem Memory.read_forget (m : Memory) (a b : Nat) :
    Memory.read (Memory.forget m a) b = if b = a then .bot else Memory.read m b := by
  split
  case isTrue h => rw [h, Memory.read_forget_same]
  case isFalse h => exact Memory.read_forget_other m h

/-! ## The memory after a completed micro-operation -/

/-- A completed assert edge of the write clock does to the SRAM what `writeEdge` says of the levels and chain
outputs before the drive: neither the drive itself nor the inputs it uses up touch them. -/
theorem wrClk_edge_mem {s t : State} {bs : List Bool} (hc : s.pins.wrClk = .released)
    (h : stepOp (.drive (.out .wrClk) true) s = .done bs t) :
    t.mem = writeEdge s.pins.wrEn (wordOf s.oa) (wordOf s.od) s.mem := by
  obtain ⟨-, -, -, rfl⟩ := drive_done h
  have hg : s.pins.get .wrClk = .released := hc
  rw [driveOk_known (by simp [hg])]
  simp [hg, rises, react, Pins.set]

/-- A completed micro-operation other than the assert drive of the write clock is one that a command which never
writes, such as READ, may take. -/
theorem allowed_read_of_done {op : MicroOp} {s t : State} {bs : List Bool}
    (hop : op ≠ .drive (.out .wrClk) true) (h : stepOp op s = .done bs t) : allowed .read op = true := by
  cases op with
  | bitcnt i => rfl
  | wait d => rfl
  | sample r =>
    cases r with
    | rdSer => rfl
    | out r => cases h
  | drive r on =>
    cases r with
    | rdSer => cases h
    | out r =>
      cases on with
      | false => cases r <;> rfl
      | true =>
        cases r
        case wrClk => exact absurd rfl hop
        all_goals rfl

theorem stepOp_mem_of_ne_wrClk {op : MicroOp} {s t : State} {bs : List Bool}
    (hop : op ≠ .drive (.out .wrClk) true) (h : stepOp op s = .done bs t) : t.mem = s.mem := by
  have hends := stepOp_ends (allowed_read_of_done hop h) s
  rw [h] at hends
  exact hends.mem rfl

/-- Settles O47: the first part reads `writeEdge` case by case, the second is that only the assert drive of the write
clock is not open to a command that leaves the SRAM alone. -/
theorem sramWriteEdge : Obligations.SramWriteEdge := by
  refine ⟨fun s t bs hc h => ?_, fun op s t bs hop h => stepOp_mem_of_ne_wrClk hop h⟩
  rw [wrClk_edge_mem hc h]
  refine ⟨fun hw => ?_, ?_, fun a hw ha hd b => ?_, fun a d hw ha hd b => ?_⟩
  · rw [hw]; rfl
  · rintro (hw | ⟨hw, ha⟩) a
    · rw [hw]; rfl
    · rw [hw, ha]; rfl
  · rw [hw, ha, hd]; exact Memory.read_forget s.mem a.toNat b
  · rw [hw, ha, hd]; exact Memory.read_set s.mem a.toNat b d

end Sys2Proof.Machine
end

section
/-! Decoded frames (30_encoding.md R70, R76, R81): when the decoder answers an illegal command, when it answers a
command, and which words a command it answers was read from. -/

namespace Sys2Proof

open Machine

@[simp] theorem opcode_instrOf (op : Opcode) (w0 : Word) (args : List Word) : (instrOf op w0 args).opcode = op := by
  cases op <;> rfl

theorem toNat_opcode_byte (i : Instr) : i.opcode.byte.toNat = opcodeNumber i := by cases i <;> rfl

theorem decode_illegal_iff (w0 : Word) (rest : List Word) :
    decode (w0 :: rest) = .error (.illegalCommand (byte3 w0)) ↔ opcodeOfByte (byte3 w0) = none := by
  refine ⟨fun h => ?_, fun h => by simp only [decode, h]⟩
  cases hop : opcodeOfByte (byte3 w0) with
  | none => rfl
  | some op =>
    simp only [decode, hop] at h
    split at h
    · cases h
    · split at h <;> cases h

/-- A frame of an assigned opcode that is present to its length decodes. -/
theorem decode_present {w0 : Word} {rest : List Word} {op : Opcode} {n : Nat}
    (hop : opcodeOfByte (byte3 w0) = some op) (hl : frameLength (w0 :: rest) = some n) (hn : n ≤ rest.length + 1) :
    decode (w0 :: rest) = .ok (instrOf op w0 (rest.take (n - 1)), n) := by
  simp only [decode, hop, hl]
  rw [if_neg (by simpa using hn)]

theorem decode_operands {w0 : Word} {rest : List Word} {i : Instr} {n : Nat} (h : decode (w0 :: rest) = .ok (i, n)) :
    i = instrOf i.opcode w0 (rest.take (n - 1)) := by
  obtain ⟨_, _, op, e, -, -, -, rfl⟩ := decode_cases h
  cases e
  rw [opcode_instrOf]

theorem byte3_of_decode {w0 : Word} {rest : List Word} {i : Instr} {n : Nat} (h : decode (w0 :: rest) = .ok (i, n)) :
    byte3 w0 = i.opcode.byte := by
  obtain ⟨_, _, op, e, hop, -, -, rfl⟩ := decode_cases h
  cases e
  rw [opcode_instrOf]
  exact byte_of_opcode hop

/-- The words of a frame announce its length whether or not other words follow them (30_encoding.md R76). -/
theorem frameLength_take {w0 : Word} {rest : List Word} {n : Nat} (h : frameLength (w0 :: rest) = some n) :
    1 ≤ n ∧ frameLength (w0 :: rest.take (n - 1)) = some n := by
  cases hop : opcodeOfByte (byte3 w0) with
  | none =>
    simp only [frameLength, hop, Option.some.injEq] at h ⊢
    omega
  | some op =>
    cases op
    case verify =>
      cases rest with
      | nil => simp [frameLength, hop] at h
      | cons w1 rest =>
        simp only [frameLength, hop, Option.some.injEq] at h
        obtain ⟨m, rfl⟩ : ∃ m, n = m + 2 := ⟨_, (h.symm.trans (Nat.add_comm ..))⟩
        simpa [frameLength, hop] using h
    all_goals
      simp only [frameLength, hop, Option.some.injEq] at h ⊢
      omega

/-- A decoded command is read from the words of its frame alone, and these have the length they announce. -/
theorem decode_take {ws : List Word} {i : Instr} {n : Nat} (h : decode ws = .ok (i, n)) :
    ∃ w0 args op, ws.take n = w0 :: args ∧ opcodeOfByte (byte3 w0) = some op ∧
      frameLength (w0 :: args) = some (args.length + 1) ∧ i = instrOf op w0 args := by
  obtain ⟨w0, rest, op, rfl, hop, hl, hn, rfl⟩ := decode_cases h
  obtain ⟨hpos, hl'⟩ := frameLength_take hl
  obtain ⟨m, rfl⟩ : ∃ m, n = m + 1 := ⟨n - 1, by omega⟩
  have hm : (rest.take m).length = m := List.length_take_of_le (by omega)
  exact ⟨w0, rest.take m, op, rfl, hop, by rw [hm]; exact hl', rfl⟩

end Sys2Proof
end

section
/-! Words of a frame and the operands read from them: the records of a DUMP, the entries of a VERIFY and the packed
bytes of a CHECKSUM (30_encoding.md R74, R75, R87). -/

namespace Sys2Proof

open Machine

theorem frameWord_take {ws : List Word} {n k : Nat} (h : k < n) : frameWord (ws.take n) k = frameWord ws k := by
  simp [frameWord, h]

theorem frameWord_succ (w0 : Word) (ws : List Word) (k : Nat) : frameWord (w0 :: ws) (1 + k) = frameWord ws k := by
  simp [frameWord, Nat.add_comm 1]

/-! ## Records -/

theorem length_recordsOf : ∀ ws : List Word, (recordsOf ws).length = ws.length / 2
  | [] => rfl
  | [_] => by simp [recordsOf]
  | _ :: _ :: ws => by simp only [recordsOf, List.length_cons, length_recordsOf ws]; omega

theorem toNat_recordOf (rw0 rw1 : Word) :
    (recordOf rw0 rw1).bc.toNat = rw0.toNat / 2 ^ 24 ∧
    (recordOf rw0 rw1).addr.toNat = rw0.toNat / 2 ^ 8 % 2 ^ 16 ∧
    (recordOf rw0 rw1).type.toNat = rw0.toNat % 2 ^ 8 ∧
    (recordOf rw0 rw1).data.toNat = rw1.toNat / 2 ^ 8 ∧
    (recordOf rw0 rw1).ck.toNat = rw1.toNat % 2 ^ 8 := by
  have h0 := rw0.isLt
  have h1 := rw1.isLt
  simp only [recordOf, byte3, byte0, toNat_field, true_and]
  omega

/-- Record `k` of a decoded DUMP is the record of words `2k` and `2k + 1` after word 0. -/
theorem getElem_records_of_decode {w0 : Word} {rest : List Word} {rsv : Byte} {records : List Record} {n : Nat}
    (h : decode (w0 :: rest) = .ok (.dump rsv records, n)) {k : Nat} (hk : k < records.length) :
    records[k] = recordOf (frameWord rest (2 * k)) (frameWord rest (2 * k + 1)) := by
  obtain ⟨-, rfl⟩ := Instr.dump.inj (decode_operands h)
  have hlen := length_recordsOf (rest.take (n - 1))
  rw [List.length_take] at hlen
  rw [getElem_recordsOf k _ hk, ← frameWord_take (ws := rest) (n := n - 1) (by omega),
    ← frameWord_take (ws := rest) (n := n - 1) (by omega)]
  rfl

/-! ## The fields of a record that DUMP ignores -/

theorem dumpLoop_congr {rs rs' : List Record}
    (h : rs.map (fun r => (r.addr, r.data, r.ck)) = rs'.map (fun r => (r.addr, r.data, r.ck)))
    (i : Nat) (m : Mapping) (s : State) : dumpLoop i m rs s = dumpLoop i m rs' s := by
  induction rs generalizing rs' i m s with
  | nil => rw [List.map_nil, eq_comm, List.map_eq_nil_iff] at h; rw [h]
  | cons r rs ih =>
    obtain ⟨r', rs', rfl, hr, hrs⟩ := List.map_eq_cons_iff.1 h.symm
    simp only [Prod.mk.injEq] at hr
    obtain ⟨haddr, hdata, hck⟩ := hr
    simp only [dumpLoop, haddr, hdata, hck, ih hrs.symm]

/-- DUMP uses `ADDR`, `DATA` and `CK` of each record alone (30_encoding.md R74). -/
theorem execDump_congr {rs rs' : List Record}
    (h : rs.map (fun r => (r.addr, r.data, r.ck)) = rs'.map (fun r => (r.addr, r.data, r.ck))) (rsv : Byte)
    (s : State) : execDump rsv rs s = execDump rsv rs' s := by
  have hloop : dumpLoop 0 [] rs = dumpLoop 0 [] rs' := funext (dumpLoop_congr h 0 [])
  unfold execDump
  rw [hloop]
  rfl

/-! ## Entries -/

theorem toNat_entryOf (w : Word) :
    (entryOf w).rsv.toNat = w.toNat / 2 ^ 24 ∧ (entryOf w).addr.toNat = w.toNat / 2 ^ 8 % 2 ^ 16 ∧
    (entryOf w).ck.toNat = w.toNat % 2 ^ 8 := by
  have h := w.isLt
  simp only [entryOf, byte3, byte0, toNat_field, true_and]
  omega

/-- Entry `k` of a decoded VERIFY is the entry of word `1 + k` after word 0. -/
theorem getElem_entries_of_decode {w0 : Word} {rest : List Word} {rsv0 bc rt : Byte} {rsv1 : BitVec 15}
    {entries : List Entry} {n : Nat} (h : decode (w0 :: rest) = .ok (.verify rsv0 bc rt rsv1 entries, n)) {k : Nat}
    (hk : k < entries.length) : entries[k] = entryOf (frameWord rest (1 + k)) := by
  obtain ⟨-, -, -, -, rfl⟩ := Instr.verify.inj (decode_operands h)
  have hk' := hk
  simp only [List.length_map, List.length_tail, List.length_take] at hk'
  rw [← frameWord_take (ws := rest) (n := n - 1) (by omega)]
  simp [frameWord, Nat.add_comm 1, show k + 1 < rest.length by omega, show k + 1 < n - 1 by omega]

theorem entryOf_mappingWord (a : Addr) (c : Byte) : entryOf (mappingWord (a, c)) = ⟨0, a, c⟩ :=
  entryOf_encodeEntry ⟨0, a, c⟩

/-! ## Packed bytes -/

/-- Byte `j` after word 0, in the words' own order, is byte `j` of R87. -/
theorem toNat_getElem_bytes (w0 : Word) (args : List Word) {j : Nat} (h : j < (args.flatMap bytesOf).length) :
    ((args.flatMap bytesOf)[j]).toNat = packedByte (w0 :: args) j := by
  rw [packedByte, frameWord_succ]
  exact getElem_flatMap_bytesOf args j h

theorem packedByte_take {w0 : Word} {rest : List Word} {n j : Nat} (h : j < 4 * n) :
    packedByte (w0 :: rest.take n) j = packedByte (w0 :: rest) j := by
  simp only [packedByte, frameWord_succ]
  rw [frameWord_take (by omega)]

/-- The bytes and the pad of a decoded CHECKSUM are the bytes of the words after word 0, as many as R76 says. -/
theorem bytes_append_pad_of_decode {w0 : Word} {rest : List Word} {rsv : BitVec 16} {bytes pad : List Byte} {n : Nat}
    (h : decode (w0 :: rest) = .ok (.checksum rsv bytes pad, n)) :
    bytes ++ pad = (rest.take (n - 1)).flatMap bytesOf ∧
      (rest.take (n - 1)).length = (w0.toNat % 2 ^ 8 + 3) / 4 := by
  obtain ⟨-, rfl, rfl⟩ := Instr.checksum.inj (decode_operands h)
  refine ⟨List.take_append_drop _ _, ?_⟩
  have hb : opcodeOfByte (byte3 w0) = some .checksum := by rw [byte3_of_decode h]; rfl
  obtain ⟨_, _, _, e, -, hl, hn, -⟩ := decode_cases h
  cases e
  simp only [frameLength, hb, packedWords, byte0, toNat_field, Nat.pow_zero, Nat.div_one, Option.some.injEq] at hl
  rw [List.length_take_of_le (by omega)]
  omega

end Sys2Proof
end

section
/-! Which commands are refused as a BAD_OPERAND (30_encoding.md R80 (b) and (c)): a command is legal exactly when the
words of its frame have no reserved bit set and no operand out of range. -/

namespace Sys2Proof

open Machine

theorem admission_badOperand_iff (i : Instr) (s : State) : admission i s = some .badOperand ↔ i.legal = false := by
  unfold admission operandsLegal
  cases i.legal <;> cases s.ioerr <;> cases chainsCleared i.opcode s <;> simp

/-! ## Reserved fields as masks -/

/-- The word whose bits `lo` to `lo + len - 1` are set. -/
def fieldMask (lo len : Nat) : Word := (BitVec.allOnes len).setWidth 32 <<< lo

theorem getLsbD_and_fieldMask (w : Word) {lo len : Nat} (h : lo + len ≤ 32) (k : Nat) :
    (w &&& fieldMask lo len).getLsbD k = (w.getLsbD k && decide (lo ≤ k ∧ k < lo + len)) := by
  simp only [fieldMask, BitVec.getLsbD_and, BitVec.getLsbD_shiftLeft, BitVec.getLsbD_setWidth,
    BitVec.getLsbD_allOnes]
  grind

/-- A field is 0 exactly when no bit of the word at its place is set. -/
theorem field_eq_zero_iff (w : Word) (lo len : Nat) (h : lo + len ≤ 32) :
    w.extractLsb' lo len = 0 ↔ w &&& fieldMask lo len = 0 := by
  constructor
  · intro hz
    refine BitVec.eq_of_getLsbD_eq fun k hk => ?_
    have hbit := congrArg (fun v : BitVec len => v.getLsbD (k - lo)) hz
    simp only [BitVec.getLsbD_extractLsb', getLsbD_and_fieldMask w h] at hbit ⊢
    grind
  · intro hz
    refine BitVec.eq_of_getLsbD_eq fun k hk => ?_
    have hbit := congrArg (fun v : Word => v.getLsbD (lo + k)) hz
    simp only [BitVec.getLsbD_extractLsb', getLsbD_and_fieldMask w h] at hbit ⊢
    grind

theorem low24_eq_zero_iff (w : Word) : low24 w = 0#24 ↔ w &&& 0x00FFFFFF#32 = 0#32 :=
  field_eq_zero_iff w 0 24 (by decide)

theorem byte2_eq_zero_iff (w : Word) : byte2 w = 0#8 ↔ w &&& 0x00FF0000#32 = 0#32 :=
  field_eq_zero_iff w 16 8 (by decide)

theorem byte3_eq_zero_iff (w : Word) : byte3 w = 0#8 ↔ w &&& 0xFF000000#32 = 0#32 :=
  field_eq_zero_iff w 24 8 (by decide)

theorem half1_eq_zero_iff (w : Word) : half1 w = 0#16 ↔ w &&& 0xFFFF0000#32 = 0#32 :=
  field_eq_zero_iff w 16 16 (by decide)

theorem high15_eq_zero_iff (w : Word) : w.extractLsb' 17 15 = 0#15 ↔ w &&& 0xFFFE0000#32 = 0#32 :=
  field_eq_zero_iff w 17 15 (by decide)

theorem middle16_eq_zero_iff (w : Word) : w.extractLsb' 8 16 = 0#16 ↔ w &&& 0x00FFFF00#32 = 0#32 :=
  field_eq_zero_iff w 8 16 (by decide)

/-! ## The two halves of a legal command -/

/-- 30_encoding.md R80 (b): every reserved field of the command is 0. -/
def ReservedZero : Instr → Prop
  | .clrAddr rsv | .clrData rsv => rsv = 0
  | .read rsv _ | .dump rsv _ | .lowerMargin rsv _ | .upperMargin rsv _ => rsv = 0
  | .write rsv0 _ rsv1 _ => rsv0 = 0 ∧ rsv1 = 0
  | .verify rsv0 _ _ rsv1 entries => rsv0 = 0 ∧ rsv1 = 0 ∧ ∀ e ∈ entries, e.rsv = 0
  | .bulkRead rsv0 _ rsv1 _ => rsv0 = 0 ∧ rsv1 = 0
  | .checksum rsv _ _ => rsv = 0

/-- 30_encoding.md R80 (c): every operand of the command is in its range. -/
def OperandsInRange : Instr → Prop
  | .verify _ _ _ _ entries => entries.length ≤ maxVerifyEntries ∧ (entries.map Entry.addr).Nodup
  | .bulkRead _ l _ u => l.toNat ≤ u.toNat
  | .checksum _ bytes pad => bytes ≠ [] ∧ ∀ b ∈ pad, b = 0
  | .clrAddr _ | .clrData _ | .write _ _ _ _ | .read _ _ | .dump _ _ | .lowerMargin _ _ | .upperMargin _ _ => True

theorem legal_iff (i : Instr) : i.legal = true ↔ ReservedZero i ∧ OperandsInRange i := by
  cases i <;> simp [Instr.legal, ReservedZero, OperandsInRange, BitVec.le_def, and_assoc]

variable {op : Opcode} {w0 : Word} {args : List Word}

theorem opcField_of_opcode (hop : opcodeOfByte (byte3 w0) = some op) : opcField w0 = op.byte.toNat := by
  rw [opcField_eq, byte_of_opcode hop]

theorem frameWord_zero (w0 : Word) (args : List Word) : frameWord (w0 :: args) 0 = w0 := rfl

theorem frameWord_one (w0 : Word) (args : List Word) : frameWord (w0 :: args) 1 = args.headD 0 := by
  cases args <;> rfl

/-- A frame's reserved bits are those of its command's reserved fields (30_encoding.md R72, R75). -/
theorem reservedSet_iff (hop : opcodeOfByte (byte3 w0) = some op) :
    ReservedSet (w0 :: args) ↔ ¬ ReservedZero (instrOf op w0 args) := by
  have hf := opcField_of_opcode hop
  cases op <;>
    simp [ReservedSet, frameWord_zero, frameWord_one, hf, Opcode.byte, instrOf, ReservedZero, byte2_eq_zero_iff,
      byte3_eq_zero_iff, low24_eq_zero_iff, half1_eq_zero_iff, middle16_eq_zero_iff, high15_eq_zero_iff,
      imp_iff_not_or, entryOf, -List.map_tail]

/-! ## Operands out of range -/

theorem entryAddress_eq (w : Word) : entryAddress w = (entryOf w).addr.toNat := (toNat_entryOf w).2.1.symm

/-- Two entries have the same address exactly when their words do. -/
theorem nodup_entryAddress_iff (ws : List Word) :
    (ws.map entryAddress).Nodup ↔ ((ws.map entryOf).map Entry.addr).Nodup := by
  have e : ws.map entryAddress = ((ws.map entryOf).map Entry.addr).map BitVec.toNat := by
    simp [entryAddress_eq]
  rw [e, List.nodup_map_iff BitVec.toNat_injective]

/-- The bytes from place `n` on are all 0 exactly when R87 finds no byte other than 0 there. -/
theorem forall_mem_drop_bytes_iff (w0 : Word) (args : List Word) (n : Nat) :
    (∀ b ∈ (args.flatMap bytesOf).drop n, b = 0) ↔
      ∀ j, n ≤ j → j < 4 * args.length → packedByte (w0 :: args) j = 0 := by
  have hlen := length_flatMap_bytesOf args
  have hbyte : ∀ j (h : j < (args.flatMap bytesOf).length),
      (args.flatMap bytesOf)[j] = 0 ↔ packedByte (w0 :: args) j = 0 := by
    intro j h
    rw [← toNat_getElem_bytes w0 args h, ← BitVec.toNat_inj]
    rfl
  constructor
  · intro h j hn hj
    rw [← hbyte j (by omega)]
    exact h _ (List.mem_drop_iff_getElem.2 ⟨j - n, by omega, by simp [Nat.add_sub_cancel' hn]⟩)
  · intro h b hb
    obtain ⟨j, hj, rfl⟩ := List.mem_drop_iff_getElem.1 hb
    exact (hbyte _ _).2 (h _ (by omega) (by omega))

/-- A frame's operands are out of range exactly when its command's are (30_encoding.md R80 (c)). -/
theorem outOfRange_iff (hop : opcodeOfByte (byte3 w0) = some op)
    (hl : frameLength (w0 :: args) = some (args.length + 1)) :
    OutOfRange (w0 :: args) ↔ ¬ OperandsInRange (instrOf op w0 args) := by
  have hf := opcField_of_opcode hop
  cases op
  case verify =>
    cases args with
    | nil => simp [frameLength, hop] at hl
    | cons w1 es =>
      have hcount : es.length = w1.toNat % 2 ^ 17 := by
        simp only [frameLength, hop, toNat_field, List.length_cons, Option.some.injEq] at hl
        omega
      simp [OutOfRange, frameWord_zero, frameWord_one, hf, Opcode.byte, instrOf, OperandsInRange, maxVerifyEntries,
        hcount, nodup_entryAddress_iff, imp_iff_not_or]
  case bulkRead =>
    simp [OutOfRange, frameWord_zero, frameWord_one, hf, Opcode.byte, instrOf, OperandsInRange, half0]
  case checksum =>
    have hcount : args.length = (w0.toNat % 2 ^ 8 + 3) / 4 := by
      simp only [frameLength, hop, packedWords, byte0, toNat_field, Nat.pow_zero, Nat.div_one, Option.some.injEq] at hl
      omega
    have hbytes : (args.flatMap bytesOf).take (byte0 w0).toNat = [] ↔ w0.toNat % 2 ^ 8 = 0 := by
      rw [← List.length_eq_zero_iff, List.length_take, length_flatMap_bytesOf, hcount, byte0, toNat_field]
      omega
    simp only [instrOf, OperandsInRange, ne_eq, hbytes, forall_mem_drop_bytes_iff w0, hcount]
    simp [OutOfRange, frameWord_zero, hf, Opcode.byte, byte0, imp_iff_not_or]
  all_goals simp [OutOfRange, frameWord_zero, hf, Opcode.byte, instrOf, OperandsInRange]

/-- A decoded command is legal exactly when R80 (b) and (c) find nothing wrong with the words of its frame. -/
theorem legal_iff_of_decode {ws : List Word} {i : Instr} {n : Nat} (h : decode ws = .ok (i, n)) :
    i.legal = true ↔ ¬ ReservedSet (ws.take n) ∧ ¬ OutOfRange (ws.take n) := by
  obtain ⟨w0, args, op, hws, hop, hl, rfl⟩ := decode_take h
  rw [hws, legal_iff, reservedSet_iff hop, outOfRange_iff hop hl, not_not, not_not]

end Sys2Proof
end

section
/-! The port of an idle block that no reset disturbs (30_encoding.md R76, R77, R80): what is left of the host's words
after a frame, whatever its answer. -/

namespace Sys2Proof.Machine

/-- The state after a whole frame of `n` words is taken. -/
def frameTaken (n : Nat) (s : State) : State :=
  { s with words := s.words.drop n, cmdPtr := s.cmdPtr + n, phase := .idle }

theorem consumeFrame_eq_frameTaken {s : State} (hrx : s.rx = []) (hr : s.resets = []) (k n : Nat) :
    consumeFrame k n s = frameTaken n s := by
  obtain ⟨⟩ := s
  simp only at hrx hr
  subst hrx hr
  rfl

theorem step_of_decode {s : State} {i : Instr} {n : Nat} (hw : Waiting s) (hrx : s.rx = []) (hr : s.resets = [])
    (hd : decode s.words = .ok (i, n)) : step s = exec i (frameTaken n s) := by
  rw [step_waiting hw, receive, hrx, List.nil_append, hd, hr]
  simp only [resetWithin, consumeFrame_eq_frameTaken hrx hr]

theorem step_of_illegal {s : State} {opc : Byte} (hw : Waiting s) (hrx : s.rx = []) (hr : s.resets = [])
    (hd : decode s.words = .error (.illegalCommand opc)) : step s = illegalCommand opc (frameTaken 1 s) := by
  rw [step_waiting hw, receive, hrx, List.nil_append, hd, hr]
  simp only [resetWithin, consumeFrame_eq_frameTaken hrx hr]

/-- An unassigned opcode is answered in one step, with the header alone, and one word is gone (R80 (a)). -/
theorem step_of_unassigned {s : State} {w0 : Word} {rest : List Word} (hw : Waiting s) (hrx : s.rx = [])
    (hr : s.resets = []) (hws : s.words = w0 :: rest) (hop : opcodeOfByte (byte3 w0) = none) :
    step s = .next (answered (byte3 w0) 0x01 [] (frameTaken 1 s)) := by
  rw [step_of_illegal hw hrx hr (hws ▸ (decode_illegal_iff w0 rest).2 hop), illegalCommand,
    respond_answered (s := frameTaken 1 s) hr]
  rfl

/-- A command's work does not touch the host port. -/
theorem Reaches.port {i : Instr} {s u : State} (h : Reaches i.opcode (started i s) u) :
    u.words = s.words ∧ u.cmdPtr = s.cmdPtr ∧ (s.rx = [] → u.rx = []) :=
  ⟨h.words.trans (started_words i s), h.cmdPtr.trans (started_cmdPtr i s),
    fun hrx => h.rx.trans ((started_rx i s).trans hrx)⟩

/-- No command touches the words the host has still to present, or the command pointer, however it ends. -/
theorem exec_port {i : Instr} {s t : State} (h : exec i s = .next t) :
    t.words = s.words ∧ t.cmdPtr = s.cmdPtr ∧ (s.rx = [] → t.rx = []) := by
  cases ending_of_exec h with
  | refused => exact ⟨rfl, rfl, id⟩
  | finished p u rs ha hwork hu => exact hu.port
  | failed p u rs ha hwork hu => exact hu.port
  | hung u ha hwork hu => exact hu.port
  | cutRefused => exact ⟨rfl, rfl, fun _ => rfl⟩
  | cut u m rs sent ha hu =>
    obtain ⟨hwords, hptr, -⟩ := hu.port
    exact ⟨hwords, hptr, fun _ => rfl⟩
  | cutFailed u m rs sent ha hu =>
    obtain ⟨hwords, hptr, -⟩ := hu.port
    exact ⟨hwords, hptr, fun _ => rfl⟩

end Sys2Proof.Machine
end

section
/-! The obligations on the encoding of commands (30_encoding.md R70, R74 to R76, R80, R87). -/

namespace Sys2Proof.Encoding

open Machine

/-- Settles O4: the decoder's branches are the lemmas above, and its opcode table is the one of R70. -/
theorem opcodeMap : Obligations.OpcodeMap := by
  refine fun w0 rest =>
    ⟨(decode_illegal_iff w0 rest).trans (unassigned_iff w0), fun hu n hl hn => ?_, fun i n h => ?_⟩
  · obtain ⟨op, hop⟩ := Option.ne_none_iff_exists'.1 (mt (unassigned_iff w0).1 hu)
    exact ⟨_, decode_present hop ((frameLength_eq w0 rest).trans hl) hn⟩
  · rw [opcField_eq, byte3_of_decode h, toNat_opcode_byte]

/-- Settles O6: record `k` and entry `k` of a decoded frame are read from the words R74 and R75 name, and which bits
are reserved is what makes a command legal. -/
theorem recordAndEntryWords : Obligations.RecordAndEntryWords := by
  refine ⟨fun w0 rest rsv records n h k hk => ?_, fun rsv rs rs' s h => execDump_congr h rsv s,
    fun w0 rest rsv0 bc rt rsv1 entries n h k hk => ?_, entryOf_mappingWord, fun records s => ?_,
    fun bc rt entries s ⟨e, hmem, hne⟩ => ?_⟩
  · rw [getElem_records_of_decode h hk]
    exact toNat_recordOf _ _
  · rw [getElem_entries_of_decode h hk]
    exact toNat_entryOf _
  · rw [Ne, admission_badOperand_iff, Bool.not_eq_false, legal_iff]
    exact ⟨rfl, trivial⟩
  · rw [admission_badOperand_iff, ← Bool.not_eq_true, legal_iff]
    rintro ⟨⟨-, -, hzero⟩, -⟩
    exact hne (hzero e hmem)

/-- Settles O7: the command's bytes and pad together are the bytes of the frame's words, each in its place. -/
theorem packedBytes : Obligations.PackedBytes := by
  intro w0 rest rsv bytes pad n h
  obtain ⟨happ, hwords⟩ := bytes_append_pad_of_decode h
  have hlen : bytes.length + pad.length = 4 * (rest.take (n - 1)).length := by
    rw [← List.length_append, happ, length_flatMap_bytesOf]
  have hbyte : ∀ j (hj : j < (bytes ++ pad).length), (bytes ++ pad)[j].toNat = packedByte (w0 :: rest) j := by
    intro j hj
    have hplace : j < 4 * (n - 1) := by
      rw [List.length_append, hlen, List.length_take] at hj
      omega
    rw [← packedByte_take hplace, ← toNat_getElem_bytes w0 _ (happ ▸ hj)]
    simp only [happ]
  refine ⟨fun j hj => ?_, by rw [hlen, hwords], fun j hj => ?_, fun s j hj hne => ?_⟩
  · rw [← hbyte j (by simp; omega), List.getElem_append_left hj]
  · rw [← hbyte (bytes.length + j) (by simpa using hj), List.getElem_append_right (by omega)]
    simp
  · rw [admission_badOperand_iff, ← Bool.not_eq_true, legal_iff]
    rintro ⟨-, -, hpad⟩
    exact hne (hpad _ (List.getElem_mem hj))

/-- Settles O9: the port takes the table's length of words before the command runs, and no command touches the
port. -/
theorem frameLength : Obligations.FrameLength := by
  intro s t w0 rest n hw hrx hr hws hl hn hstep
  have hlen := (frameLength_eq w0 rest).trans hl
  cases hop : opcodeOfByte (byte3 w0) with
  | none =>
    obtain rfl : 1 = n := by simpa [Sys2Proof.frameLength, hop] using hlen
    rw [step_of_unassigned hw hrx hr hws hop] at hstep
    cases hstep
    exact ⟨rfl, rfl, hrx⟩
  | some op =>
    have hd := decode_present hop hlen hn
    rw [← hws] at hd
    rw [step_of_decode hw hrx hr hd] at hstep
    obtain ⟨hwords, hptr, hrx'⟩ := exec_port hstep
    exact ⟨hptr, hwords, hrx' hrx⟩

/-- Settles O12: an unassigned opcode is answered at the port, and the commands that admission refuses as a
BAD_OPERAND are those whose frame breaks R80 (b) or (c). -/
theorem refusedEncodings : Obligations.RefusedEncodings := by
  refine ⟨fun s w0 rest hw hrx hr hws hu => ?_, fun s w0 rest i n hw hrx hr hws hd hbad => ?_,
    fun ws i n s hd hreserved hrange ha => ?_⟩
  · rw [step_of_unassigned hw hrx hr hws ((unassigned_iff w0).2 hu)]
    simp [answered, frameTaken, hws]
  · have hlegal : i.legal = false := by
      rw [← Bool.not_eq_true, legal_iff_of_decode hd]
      tauto
    rw [step_of_decode hw hrx hr hd, exec_eq, perform_refused ((admission_badOperand_iff i _).2 hlegal),
      respond_answered (s := frameTaken n s) hr, ← byte3_of_decode (hws ▸ hd)]
    rfl
  · rw [admission_badOperand_iff, (legal_iff_of_decode hd).2 ⟨hreserved, hrange⟩] at ha
    cases ha

end Sys2Proof.Encoding
end

section
/-! The checksum as arithmetic (42_hexcodec.md R125, R126), and the CHECKSUM command (R130). -/

namespace Sys2Proof.Machine

/-! ## The checksum by its byte sum -/

/-- The accumulator adds the bytes modulo 256, one a step, to what it held (42_hexcodec.md R126). -/
theorem foldl_add_eq_add_ofNat_sum (bytes : List Byte) (acc : Byte) :
    bytes.foldl (· + ·) acc = acc + BitVec.ofNat 8 (bytes.map BitVec.toNat).sum := by
  induction bytes generalizing acc with
  | nil => simp
  | cons b bytes ih =>
    rw [List.foldl_cons, ih, List.map_cons, List.sum_cons, BitVec.ofNat_add, BitVec.ofNat_toNat, BitVec.setWidth_eq,
      BitVec.add_assoc]

theorem ckAccumulate_eq_ofNat_sum (bytes : List Byte) :
    ckAccumulate bytes = BitVec.ofNat 8 (bytes.map BitVec.toNat).sum :=
  (foldl_add_eq_add_ofNat_sum bytes 0).trans (BitVec.zero_add _)

/-- 42_hexcodec.md R125: the two's complement of the byte sum modulo 256. -/
theorem toNat_ck8 (bytes : List Byte) :
    (ck8 bytes).toNat = (256 - (bytes.map BitVec.toNat).sum % 256) % 256 := by
  simp [ck8, ckAccumulate_eq_ofNat_sum]

/-- The payload word of CHECKSUM (42_hexcodec.md R130). -/
theorem setWidth_ck8 (bytes : List Byte) :
    (ck8 bytes).setWidth 32 = BitVec.ofNat 32 ((256 - (bytes.map BitVec.toNat).sum % 256) % 256) := by
  rw [← toNat_ck8, BitVec.ofNat_toNat]

/-! ## The command -/

/-- CHECKSUM needs neither chain cleared, so only its operands and a standing failure can refuse it (60_exceptions.md
R202). -/
theorem admission_checksum_none {bytes pad : List Byte} {s : State} (hne : bytes ≠ []) (hpad : ∀ b ∈ pad, b = 0)
    (herr : s.ioerr = false) : admission (.checksum 0 bytes pad) s = none :=
  admission_none.2 ⟨(legal_iff _).2 ⟨rfl, hne, hpad⟩, herr, rfl⟩

/-- Settles O23: an admitted CHECKSUM writes `OPC` and `CKACC` alone, then answers at once with its whole frame. -/
theorem checksumCompletes : Obligations.ChecksumCompletes := by
  intro bytes pad s hne hpad herr hr
  have hcalm : (withChecksum bytes (started (.checksum 0 bytes pad) s)).resets = [] := hr
  rw [exec_eq, perform_admitted (admission_checksum_none hne hpad herr)]
  refine (conclude_done hcalm _ _).trans ?_
  simp only [answered, setWidth_ck8, withChecksum, ckAccumulate_eq_ofNat_sum, started, latchOperands, herr]
  rfl

end Sys2Proof.Machine
end

section
/-! The mapping of DUMP (44_batch.md R162): what one put does to it, and what any puts keep of its addresses. -/

namespace Sys2Proof.Machine

/-- Putting a mapped address replaces its checksum where it stands; puts of other addresses before it pass it by. -/
theorem mapPut_mapped (m₁ m₂ : Mapping) {a : Addr} (c c' : Byte) (h : a ∉ m₁.map Prod.fst) :
    mapPut (m₁ ++ (a, c') :: m₂) a c = m₁ ++ (a, c) :: m₂ := by
  induction m₁ with
  | nil => exact if_pos rfl
  | cons e m₁ ih =>
    obtain ⟨hne, hnot⟩ := not_or.1 (mt List.mem_cons.2 h)
    rw [List.cons_append, mapPut, if_neg (Ne.symm hne), ih hnot, List.cons_append]

theorem mapPut_new (m : Mapping) {a : Addr} (c : Byte) (h : a ∉ m.map Prod.fst) : mapPut m a c = m ++ [(a, c)] := by
  induction m with
  | nil => rfl
  | cons e m ih =>
    obtain ⟨hne, hnot⟩ := not_or.1 (mt List.mem_cons.2 h)
    rw [mapPut, if_neg (Ne.symm hne), ih hnot, List.cons_append]

/-- One put keeps the addresses distinct: it either leaves them all as they are or appends one that was not there. -/
theorem nodup_mapPut {m : Mapping} (hm : (m.map Prod.fst).Nodup) (a : Addr) (c : Byte) :
    ((mapPut m a c).map Prod.fst).Nodup := by
  by_cases h : a ∈ m.map Prod.fst
  · obtain ⟨⟨a, c'⟩, hmem, rfl⟩ := List.mem_map.1 h
    obtain ⟨m₁, m₂, rfl⟩ := List.append_of_mem hmem
    have hnot : a ∉ m₁.map Prod.fst := by
      rw [List.map_append, List.map_cons] at hm
      exact fun h => List.disjoint_of_nodup_append hm h List.mem_cons_self
    rw [mapPut_mapped m₁ m₂ c c' hnot]
    simpa using hm
  · rw [mapPut_new m c h, List.map_append]
    exact hm.append (List.nodup_singleton a) (List.disjoint_singleton.2 h)

theorem nodup_foldl_mapPut (puts : List (Addr × Byte)) {m : Mapping} (hm : (m.map Prod.fst).Nodup) :
    ((puts.foldl (fun m p => mapPut m p.1 p.2) m).map Prod.fst).Nodup := by
  induction puts generalizing m with
  | nil => exact hm
  | cons p puts ih => exact ih (nodup_mapPut hm p.1 p.2)

/-- Distinct addresses are no more than the 16 bits of an address allow. -/
theorem length_le_of_nodup_addrs {m : Mapping} (hm : (m.map Prod.fst).Nodup) : m.length ≤ 65536 := by
  have hcard : Fintype.card Addr = 65536 := FinEnum.card_eq_fintypeCard.symm.trans (FinEnum.card_bitVec 16)
  rw [← List.length_map (f := Prod.fst), ← hcard]
  exact hm.length_le_card

/-- Settles O56: a put is one of the two cases above, both keep the addresses distinct, and there are only 65536 of
them. -/
theorem mapPutSemantics : Obligations.MapPutSemantics :=
  ⟨fun m₁ m₂ _ c c' h => mapPut_mapped m₁ m₂ c c' h, fun m _ c h => mapPut_new m c h, fun puts =>
    have hnodup := nodup_foldl_mapPut puts (m := []) List.nodup_nil
    ⟨length_le_of_nodup_addrs hnodup, hnodup⟩⟩

end Sys2Proof.Machine
end

section
/-! A transport failure inside a batch command (44_batch.md R172): a command that sets `IOERR` is one whose work
failed, and the batch loops' failures are told in the laws on failure. -/

namespace Sys2Proof.Machine

/-- The one ending that sets `IOERR`: the command's work failed, in a state that had kept what the work keeps, and its
whole response was taken (60_exceptions.md R203). -/
theorem failed_of_ioerr {i : Instr} {s t : State} (h : exec i s = .next t) (hs : s.ioerr = false)
    (ht : t.ioerr = true) :
    ∃ p u rs, workOf i (started i s) = .failed p u ∧ Reaches i.opcode (started i s) u ∧
      t = respondedTo i 4 p rs (transportFailure u) := by
  cases ending_of_exec h with
  | failed p u rs ha hw hu hf hr => exact ⟨p, u, rs, hw, hu, rfl⟩
  | refused st rs ha hr => cases hs.symm.trans ht
  | finished p u rs ha hw hu hr => cases (hu.ioerr.trans ((started_ioerr i s).trans hs)).symm.trans ht
  | hung u ha hw hu hn => cases (hu.ioerr.trans ((started_ioerr i s).trans hs)).symm.trans ht
  | cutRefused m rs hr => cases ht
  | cut u m rs sent ha hu hr hs => cases ht
  | cutFailed u m rs sent ha hu hf hr hs => cases ht

/-- What is seen of a command that set `IOERR`: the devices unknown, the whole answer `p` of its failed work after what
the host had taken before, and that work's pulses and operations. -/
theorem failure_of_ioerr {i : Instr} {s t : State} (h : exec i s = .next t) (hs : s.ioerr = false)
    (ht : t.ioerr = true) :
    ∃ p u, workOf i (started i s) = .failed p u ∧ Havocked t ∧
      t.out = s.out ++ headerWord i.opcode.byte 4 true false false :: p ∧ t.progress = u.progress ∧ t.io = u.io := by
  obtain ⟨p, u, rs, hw, hu, rfl⟩ := failed_of_ioerr h hs ht
  have hout : u.out = s.out := hu.out.trans (started_out i s)
  refine ⟨p, u, hw, ⟨rfl, rfl, rfl, rfl, rfl, rfl, rfl⟩, ?_, rfl, rfl⟩
  rw [← hout]
  rfl

theorem length_windowAddrs (l u : Addr) : (windowAddrs l u).length = windowSize l u := by simp [windowAddrs]

/-- Settles O42: the work failed, so its loop failed in some unit, and the laws on the three loops say which units were
completed, what was answered and which operations were asked for. -/
theorem batchFailure : Obligations.BatchFailure := by
  refine fun s t hs ht => ⟨fun records h => ?_, fun bc rt entries h => ?_, fun l u h => ?_⟩
  · obtain ⟨p, v, hw, hhavoc, hout, hpulses, hanswers⟩ := failure_of_ioerr h hs ht
    obtain ⟨k, m, hk, hprogress, rfl, hlow, hhigh, hok, hio⟩ := dumpLoop_failed hw
    exact ⟨hhavoc, k, m, hk, hpulses.trans hprogress, hout, hlow, hhigh, hok, hanswers.trans hio⟩
  · obtain ⟨p, v, hw, hhavoc, hout, hpulses, hanswers⟩ := failure_of_ioerr h hs ht
    obtain ⟨lines, m, -, hlines, hcomputed, hdata, hprogress, rfl, hlow, hhigh, hfail⟩ := verifyLoop_failed hw
    exact ⟨hhavoc, lines, m, hlines, hcomputed, hdata, hpulses.trans hprogress, hout, hlow, hhigh, hfail.before,
      hfail.last, hanswers.trans hfail.used⟩
  · obtain ⟨p, v, hw, hhavoc, hout, hpulses, hanswers⟩ := failure_of_ioerr h hs ht
    obtain ⟨data, m, hlen, hprogress, hdata, rfl, hlow, hhigh, hfail⟩ := bulkLoop_failed hw
    rw [← List.range_eq_range'] at hdata hout
    exact ⟨hhavoc, data, m, (length_windowAddrs l u).symm ▸ hlen, hpulses.trans hprogress, hdata, hout, hlow, hhigh,
      hfail.before, hfail.last, hanswers.trans hfail.used⟩

end Sys2Proof.Machine
end

section
/-! Which answer a command gets at admission (60_exceptions.md R202): each refusal by the check that fails first, and
the one response of a command that is admitted. -/

namespace Sys2Proof.Machine

theorem needsAddrChain_iff (i : Instr) : needsAddrChain i.opcode = true ↔ NeedsClra (opcodeNumber i) := by
  cases i <;> simp [Instr.opcode, needsAddrChain, opcodeNumber]

theorem needsDataChain_iff (i : Instr) : needsDataChain i.opcode = true ↔ NeedsClrd (opcodeNumber i) := by
  cases i <;> simp [Instr.opcode, needsDataChain, opcodeNumber]

theorem chainsCleared_iff (i : Instr) (s : State) :
    chainsCleared i.opcode s = true ↔
      (NeedsClra (opcodeNumber i) → s.clra = true) ∧ (NeedsClrd (opcodeNumber i) → s.clrd = true) := by
  simp only [chainsCleared, Bool.and_eq_true, Bool.or_eq_true, Bool.not_eq_true', ← Bool.not_eq_true,
    imp_iff_not_or, needsAddrChain_iff, needsDataChain_iff]

theorem admission_of_ioerr {i : Instr} {s : State} (hlegal : i.legal = true) (herr : s.ioerr = true) :
    admission i s = some .transportError := by
  simp [admission, operandsLegal, hlegal, herr]

theorem admission_of_not_cleared {i : Instr} {s : State} (hlegal : i.legal = true) (herr : s.ioerr = false)
    (hc : (NeedsClra (opcodeNumber i) ∧ s.clra = false) ∨ (NeedsClrd (opcodeNumber i) ∧ s.clrd = false)) :
    admission i s = some .notCleared := by
  have hchains : chainsCleared i.opcode s = false := by
    rw [← Bool.not_eq_true, chainsCleared_iff]
    rintro ⟨ha, hd⟩
    rcases hc with ⟨hn, hf⟩ | ⟨hn, hf⟩
    · exact Bool.false_ne_true (hf.symm.trans (ha hn))
    · exact Bool.false_ne_true (hf.symm.trans (hd hn))
  simp [admission, operandsLegal, hlegal, herr, hchains]

/-- A refused command's next state is the present one with the header taken by the host (60_exceptions.md R208). -/
theorem exec_refused {i : Instr} {s : State} {st : Status} (hr : s.resets = []) (ha : admission i s = some st) :
    exec i s = .next (answered (BitVec.ofNat 8 (opcodeNumber i)) (statusCode st) [] s) := by
  rw [exec_eq, perform_refused ha, respond_answered hr, opcode_byte]

/-- Where no reset is scheduled, an admitted command answers OK, or TRANSPORT_ERROR with `IOERR` set, or hangs and
answers nothing. -/
theorem admitted_response {i : Instr} {s t : State} (hr : s.resets = []) (ha : admission i s = none)
    (h : exec i s = .next t) (hout : t.out ≠ s.out) :
    ∃ status payload, (status = 0x00 ∨ status = 0x04 ∧ t.ioerr = true) ∧
      t.out = s.out ++ headerWord (BitVec.ofNat 8 (opcodeNumber i)) status t.ioerr t.clrd t.clra :: payload := by
  rw [← opcode_byte]
  cases ending_of_exec h with
  | refused st rs ha' => cases ha.symm.trans ha'
  | finished p u rs _ hw hu => exact ⟨0x00, p, .inl rfl, by simp [respondedTo, hu.out]⟩
  | failed p u rs _ hw hu => exact ⟨0x04, p, .inr ⟨rfl, rfl⟩, by simp [respondedTo, hu.out]⟩
  | hung u _ hw hu => exact absurd (hu.out.trans (started_out i s)) hout
  | cutRefused m rs hne => exact absurd hr hne
  | cut u m rs sent _ hu hne => exact absurd hr hne
  | cutFailed u m rs sent _ hu hf hne => exact absurd hr hne

/-- Settles O13: each check's premises fix what `admission` answers, and an unassigned opcode is answered at the port
before there is a command. -/
theorem admissionOrder : Obligations.AdmissionOrder := by
  refine ⟨fun i s hr => ⟨fun hlegal => ?_, fun hlegal herr => ?_, fun hlegal herr hc => ?_,
    fun hlegal herr ha hd t h _ hout => ?_⟩, Encoding.refusedEncodings.1⟩
  · exact exec_refused (st := .badOperand) hr ((admission_badOperand_iff i s).2 hlegal)
  · exact exec_refused (st := .transportError) hr (admission_of_ioerr hlegal herr)
  · exact exec_refused (st := .notCleared) hr (admission_of_not_cleared hlegal herr hc)
  · exact admitted_response hr (admission_none.2 ⟨hlegal, herr, (chainsCleared_iff i s).2 ⟨ha, hd⟩⟩) h hout

end Sys2Proof.Machine
end

section
/-! How a command and a step end (60_exceptions.md R201, R207): every ending is a next state, of one of three phases. -/

namespace Sys2Proof.Machine

/-- The header word of a whole response is the one of the state it leaves: its flags are the response's flags. -/
theorem respondedTo_out (i : Instr) (st : Status) (payload : List Word) (rs : List Nat) (s : State) :
    (respondedTo i (statusCode st) payload rs s).out =
      s.out ++ header (BitVec.ofNat 8 (opcodeNumber i)) st (respondedTo i (statusCode st) payload rs s) :: payload := by
  rw [header_eq, ← opcode_byte]
  rfl

/-- Settles O14: the endings of a command's execution, each in its phase. -/
theorem commandOutcome : Obligations.CommandOutcome := by
  intro i s t hidle h
  have hphase (u : State) (hu : Reaches i.opcode (started i s) u) : u.phase = .idle :=
    hu.phase.trans ((started_phase i s).trans hidle)
  have hout (u : State) (hu : Reaches i.opcode (started i s) u) : u.out = s.out :=
    hu.out.trans (started_out i s)
  cases ending_of_exec h with
  | refused st rs => exact .inl ⟨hidle, rfl, st, [], respondedTo_out i st [] rs s⟩
  | finished p u rs _ hw hu =>
    exact .inl ⟨hphase u hu, rfl, .ok, p, hout u hu ▸ respondedTo_out i .ok p rs u⟩
  | failed p u rs _ hw hu =>
    exact .inl ⟨hphase u hu, rfl, .transportError, p,
      hout u hu ▸ respondedTo_out i .transportError p rs (transportFailure u)⟩
  | hung u _ hw hu hn => exact .inr (.inl ⟨rfl, hout u hu, hn⟩)
  | cutRefused m rs hr => exact .inr (.inr ⟨rfl, hr, [], (List.append_nil _).symm⟩)
  | cut u m rs sent _ hu hr => exact .inr (.inr ⟨rfl, hr, sent, congrArg (· ++ sent) (hout u hu)⟩)
  | cutFailed u m rs sent _ hu _ hr => exact .inr (.inr ⟨rfl, hr, sent, congrArg (· ++ sent) (hout u hu)⟩)

theorem exec_next (i : Instr) (s : State) : ∃ t, exec i s = .next t :=
  (exec_ending i s).imp fun _ h => h.1

theorem respond_next (opc : Byte) (st : Status) (payload : List Word) (s : State) :
    ∃ t, respond opc st payload s = .next t := by
  rcases respond_cases opc st payload s with ⟨rs, -, h⟩ | ⟨k, m, rs, -, -, h⟩
  · exact ⟨_, h⟩
  · exact ⟨_, h⟩

theorem bindPins_next (s : State) : ∃ t, bindPins s = .next t := by
  rcases bindPins_cases s with ⟨bs, t, -, h, -⟩ | ⟨t, h, -⟩ | ⟨t, h, -⟩
  · exact ⟨_, h⟩
  · exact ⟨_, h⟩
  · exact ⟨_, h⟩

theorem step_next_of_waiting {s : State} (hw : Waiting s) : ∃ t, step s = .next t := by
  rw [step_waiting hw]
  cases receive s with
  | command i t => exact exec_next i t
  | illegal opc t => exact respond_next opc .illegalCommand [] t
  | waiting t => exact ⟨t, rfl⟩

theorem step_next (s : State) : ∃ t, step s = .next t := by
  cases h : s.phase with
  | idle => exact step_next_of_waiting (.inl h)
  | receiving => exact step_next_of_waiting (.inr h)
  | hung => exact ⟨_, step_hung h⟩
  | resetting => exact (step_resetting h).symm ▸ bindPins_next s
  | held => exact ⟨_, step_held h⟩

/-- Settles O15: every micro-operation of a command and of the bind is in its role's direction, so neither reaches the
DirectionError fault that `drive` and `sample` raise against it. -/
theorem neverFaults : Obligations.NeverFaults :=
  ⟨exec_next, step_next, fun _ _ => rfl, fun _ _ => rfl⟩

end Sys2Proof.Machine
end

section
/-! The decoder and the encoder are inverse to each other (30_encoding.md R70 to R76, R87): a command is read back from
its own words, and the words a command is read from are its own. -/

namespace Sys2Proof.Encoding

open Machine

/-! ## The fields of a concatenation -/

/-- A field of the left part lies above the right part. -/
theorem extractLsb'_append_left {n m : Nat} (x : BitVec n) (y : BitVec m) (lo len : Nat) :
    (x ++ y).extractLsb' (m + lo) len = x.extractLsb' lo len := by
  refine BitVec.eq_of_getLsbD_eq fun k hk => ?_
  simp only [BitVec.getLsbD_extractLsb', BitVec.getLsbD_append, hk]
  rw [if_neg (by omega), Nat.add_assoc, Nat.add_sub_cancel_left]

/-- A field of the right part stays at its place. -/
theorem extractLsb'_append_right {n m : Nat} (x : BitVec n) (y : BitVec m) {lo len : Nat} (h : lo + len ≤ m) :
    (x ++ y).extractLsb' lo len = y.extractLsb' lo len := by
  refine BitVec.eq_of_getLsbD_eq fun k hk => ?_
  simp only [BitVec.getLsbD_extractLsb', BitVec.getLsbD_append, hk]
  rw [if_pos (by omega)]

theorem left_of_append {n m : Nat} (x : BitVec n) (y : BitVec m) : (x ++ y).extractLsb' m n = x :=
  (extractLsb'_append_left x y 0 n).trans BitVec.extractLsb'_eq_self

theorem right_of_append {n m : Nat} (x : BitVec n) (y : BitVec m) : (x ++ y).extractLsb' 0 m = y :=
  (extractLsb'_append_right x y (Nat.zero_add m).le).trans BitVec.extractLsb'_eq_self

variable (b r x y : Byte) (a : BitVec 16)

theorem byte2_first3 : byte2 (b ++ r ++ a) = r := (extractLsb'_append_left (b ++ r) a 0 8).trans (right_of_append b r)

theorem half0_first3 : half0 (b ++ r ++ a) = a := right_of_append (b ++ r) a

theorem byte2_first4 : byte2 (b ++ r ++ x ++ y) = r :=
  (extractLsb'_append_left (b ++ r ++ x) y 8 8).trans
    ((extractLsb'_append_left (b ++ r) x 0 8).trans (right_of_append b r))

theorem byte1_first4 : byte1 (b ++ r ++ x ++ y) = x :=
  (extractLsb'_append_left (b ++ r ++ x) y 0 8).trans (right_of_append (b ++ r) x)

theorem byte0_first4 : byte0 (b ++ r ++ x ++ y) = y := right_of_append (b ++ r ++ x) y

theorem middle16_checksum : (b ++ a ++ y).extractLsb' 8 16 = a :=
  (extractLsb'_append_left (b ++ a) y 0 16).trans (right_of_append b a)

theorem byte0_checksum : byte0 (b ++ a ++ y) = y := right_of_append (b ++ a) y

/-! ## A word from its fields -/

/-- The opcode byte of each command and the low 24 bits. -/
theorem byte3_append_low24 (w : Word) : byte3 w ++ low24 w = w := by
  apply BitVec.eq_of_toNat_eq
  simp only [byte3, low24, toNat_field, toNat_append_mul]
  omega

theorem byte3_append_byte2_append_half0 (w : Word) : byte3 w ++ byte2 w ++ half0 w = w := by
  apply BitVec.eq_of_toNat_eq
  simp only [byte3, byte2, half0, toNat_field, toNat_append_mul]
  omega

theorem byte3_append_middle16_append_byte0 (w : Word) : byte3 w ++ w.extractLsb' 8 16 ++ byte0 w = w := by
  apply BitVec.eq_of_toNat_eq
  simp only [byte3, byte0, toNat_field, toNat_append_mul]
  omega

theorem half1_append_half0 (w : Word) : half1 w ++ half0 w = w := by
  apply BitVec.eq_of_toNat_eq
  simp only [half1, half0, toNat_field, toNat_append_mul]
  omega

theorem high15_append_low17 (w : Word) : w.extractLsb' 17 15 ++ w.extractLsb' 0 17 = w := by
  apply BitVec.eq_of_toNat_eq
  simp only [toNat_field, toNat_append_mul]
  omega

/-! ## A command from its own words -/

theorem encodedLength (i : Instr) : Laws.EncodedLength.Statement i := by
  cases i with
  | clrAddr rsv => exact Laws.EncodedLength.clrAddr rsv
  | clrData rsv => exact Laws.EncodedLength.clrData rsv
  | write rsv0 a rsv1 d => exact Laws.EncodedLength.write rsv0 a rsv1 d
  | read rsv a => exact Laws.EncodedLength.read rsv a
  | dump rsv records => exact Laws.EncodedLength.dump rsv records
  | verify rsv0 bc rt rsv1 entries => exact Laws.EncodedLength.verify rsv0 bc rt rsv1 entries
  | bulkRead rsv0 l rsv1 u => exact Laws.EncodedLength.bulkRead rsv0 l rsv1 u
  | checksum rsv bytes pad => exact Laws.EncodedLength.checksum rsv bytes pad
  | lowerMargin rsv a => exact Laws.EncodedLength.lowerMargin rsv a
  | upperMargin rsv a => exact Laws.EncodedLength.upperMargin rsv a

/-- The bytes that a frame packs are the bytes of its packed words, the pad after the bytes proper (R87). -/
theorem flatMap_packBytes_padded {bytes pad : List Byte} (h : pad.length = padLength bytes.length) :
    (packBytes (bytes ++ pad)).flatMap bytesOf = bytes ++ pad := by
  refine flatMap_packBytes (packedWords bytes.length) _ ?_
  rw [List.length_append, h, padLength, packedWords]
  omega

/-- The frame of a command begins with a word of its opcode, and its words are read as that command. -/
theorem encode_eq_cons {i : Instr} (h : i.encodable = true) :
    ∃ w0 args, encode i = w0 :: args ∧ byte3 w0 = i.opcode.byte ∧ instrOf i.opcode w0 args = i := by
  cases i with
  | clrAddr rsv =>
    exact ⟨_, _, rfl, byte3_first2 _ _, congrArg Instr.clrAddr (right_of_append Opcode.clrAddr.byte rsv)⟩
  | clrData rsv =>
    exact ⟨_, _, rfl, byte3_first2 _ _, congrArg Instr.clrData (right_of_append Opcode.clrData.byte rsv)⟩
  | write rsv0 a rsv1 d =>
    refine ⟨_, _, rfl, byte3_first3 _ _ _, ?_⟩
    simp only [Instr.opcode, instrOf, byte2_first3, half0_first3, List.headD_cons, byte3_first2]
    exact congrArg _ (right_of_append rsv1 d)
  | read rsv a =>
    exact ⟨_, _, rfl, byte3_first3 _ _ _, congrArg₂ Instr.read (byte2_first3 _ _ _) (half0_first3 _ _ _)⟩
  | dump rsv records =>
    exact ⟨_, _, rfl, byte3_first3 _ _ _,
      congrArg₂ Instr.dump (byte2_first3 _ _ _) (recordsOf_flatMap records)⟩
  | verify rsv0 bc rt rsv1 entries =>
    refine ⟨_, _, rfl, byte3_first4 _ _ _ _, ?_⟩
    have hrsv : (rsv1 ++ BitVec.ofNat 17 entries.length).extractLsb' 17 15 = rsv1 := left_of_append _ _
    have hentries : (entries.map encodeEntry).map entryOf = entries := by
      rw [List.map_map]
      exact List.map_id'' entryOf_encodeEntry entries
    simp only [Instr.opcode, instrOf, byte2_first4, byte1_first4, byte0_first4, List.headD_cons, List.tail_cons,
      hentries]
    exact congrArg (Instr.verify rsv0 bc rt · entries) hrsv
  | bulkRead rsv0 l rsv1 u =>
    refine ⟨_, _, rfl, byte3_first3 _ _ _, ?_⟩
    simp only [Instr.opcode, instrOf, byte2_first3, half0_first3, List.headD_cons]
    exact congrArg₂ (Instr.bulkRead rsv0 l) (left_of_append rsv1 u) (right_of_append rsv1 u)
  | checksum rsv bytes pad =>
    obtain ⟨hlen, hpad⟩ : bytes.length < 2 ^ 8 ∧ pad.length = padLength bytes.length := by
      simpa [Instr.encodable] using h
    refine ⟨_, _, rfl, byte3_checksum _ _ _, ?_⟩
    have hcount : (BitVec.ofNat 8 bytes.length).toNat = bytes.length := by
      rw [BitVec.toNat_ofNat, Nat.mod_eq_of_lt hlen]
    simp only [Instr.opcode, instrOf, byte0_checksum, flatMap_packBytes_padded hpad, hcount, List.take_left',
      List.drop_left']
    exact congrArg (Instr.checksum · bytes pad) (middle16_checksum _ _ rsv)
  | lowerMargin rsv a =>
    exact ⟨_, _, rfl, byte3_first3 _ _ _, congrArg₂ Instr.lowerMargin (byte2_first3 _ _ _) (half0_first3 _ _ _)⟩
  | upperMargin rsv a =>
    exact ⟨_, _, rfl, byte3_first3 _ _ _, congrArg₂ Instr.upperMargin (byte2_first3 _ _ _) (half0_first3 _ _ _)⟩

/-- Settles O2: the first word gives the opcode, the frame's own words its length, and reading them gives the
command. -/
theorem decodeEncode : Obligations.DecodeEncode := by
  intro i rest h
  obtain ⟨w0, args, hws, hop, hi⟩ := encode_eq_cons h
  have hlen := encodedLength i h rest
  rw [hws] at hlen ⊢
  have hd := decode_frame (op := i.opcode) (by rw [hop, opcodeOfByte_byte]) hlen
  rwa [hi] at hd

/-! ## The words from their command -/

/-- The words of a frame that is as long as it says are the frame of the command they are read as, whose counts are
the fields they stand in. -/
theorem encode_instrOf {op : Opcode} {w0 : Word} {args : List Word} (hop : opcodeOfByte (byte3 w0) = some op)
    (hl : Sys2Proof.frameLength (w0 :: args) = some (args.length + 1)) :
    (instrOf op w0 args).encodable = true ∧ encode (instrOf op w0 args) = w0 :: args := by
  have hb := byte_of_opcode hop
  simp only [Sys2Proof.frameLength, hop] at hl
  cases op with
  | clrAddr =>
    obtain rfl : args = [] := by simpa using hl
    exact ⟨rfl, by rw [instrOf, encode, ← hb, byte3_append_low24]⟩
  | clrData =>
    obtain rfl : args = [] := by simpa using hl
    exact ⟨rfl, by rw [instrOf, encode, ← hb, byte3_append_low24]⟩
  | write =>
    obtain ⟨w1, rfl⟩ : ∃ w1, args = [w1] := List.length_eq_one_iff.1 (by simpa using hl.symm)
    exact ⟨rfl, by rw [instrOf, encode, ← hb, byte3_append_byte2_append_half0, List.headD_cons, byte3_append_low24]⟩
  | read =>
    obtain rfl : args = [] := by simpa using hl
    exact ⟨rfl, by rw [instrOf, encode, ← hb, byte3_append_byte2_append_half0]⟩
  | dump =>
    obtain ⟨hwords, hlen⟩ := flatMap_recordsOf (half0 w0).toNat args (by simp at hl; omega)
    refine ⟨?_, ?_⟩
    · simpa [instrOf, Instr.encodable, hlen] using (half0 w0).isLt
    · rw [instrOf, encode, ← hb, hlen, BitVec.ofNat_toNat, BitVec.setWidth_eq, byte3_append_byte2_append_half0, hwords]
  | verify =>
    cases args with
    | nil => cases hl
    | cons w1 es =>
      have hlen : es.length = (w1.extractLsb' 0 17).toNat := by simp at hl ⊢; omega
      have hentries : (es.map entryOf).map encodeEntry = es := by
        rw [List.map_map]
        exact List.map_id'' encodeEntry_entryOf es
      refine ⟨?_, ?_⟩
      · simpa [instrOf, Instr.encodable, hlen] using (w1.extractLsb' 0 17).isLt
      · rw [instrOf, encode, ← hb, append_bytesOf, List.headD_cons, List.tail_cons, List.length_map, hlen,
          BitVec.ofNat_toNat, BitVec.setWidth_eq, high15_append_low17, hentries]
  | bulkRead =>
    obtain ⟨w1, rfl⟩ : ∃ w1, args = [w1] := List.length_eq_one_iff.1 (by simpa using hl.symm)
    exact ⟨rfl, by rw [instrOf, encode, ← hb, byte3_append_byte2_append_half0, List.headD_cons, half1_append_half0]⟩
  | checksum =>
    have hlen := length_flatMap_bytesOf args
    have hwords : args.length = packedWords (byte0 w0).toNat := by simp at hl; omega
    rw [packedWords] at hwords
    have htake : ((args.flatMap bytesOf).take (byte0 w0).toNat).length = (byte0 w0).toNat := by
      rw [List.length_take_of_le (by omega)]
    refine ⟨?_, ?_⟩
    · have hlt := (byte0 w0).isLt
      simp only [instrOf, Instr.encodable, htake, List.length_drop, hlen, padLength, Bool.and_eq_true,
        decide_eq_true_eq]
      omega
    · rw [instrOf, encode, ← hb, htake, BitVec.ofNat_toNat, BitVec.setWidth_eq, byte3_append_middle16_append_byte0,
        List.take_append_drop, packBytes_flatMap]
  | lowerMargin =>
    obtain rfl : args = [] := by simpa using hl
    exact ⟨rfl, by rw [instrOf, encode, ← hb, byte3_append_byte2_append_half0]⟩
  | upperMargin =>
    obtain rfl : args = [] := by simpa using hl
    exact ⟨rfl, by rw [instrOf, encode, ← hb, byte3_append_byte2_append_half0]⟩

/-- Settles O3: the words taken are a frame as long as it says, and the command was read from them alone. -/
theorem encodeDecode : Obligations.EncodeDecode := by
  intro ws i n h
  obtain ⟨w0, args, op, hws, hop, hl, rfl⟩ := decode_take h
  obtain ⟨hcounts, hencode⟩ := encode_instrOf hop hl
  obtain ⟨_, rest, _, rfl, -, -, hn, -⟩ := decode_cases h
  exact ⟨hcounts, hencode.trans hws.symm, hn⟩

end Sys2Proof.Encoding
end

section
/-! The invariant of the block is kept by every step (10_state.md R25 to R27 and R39, 60_exceptions.md R203,
70_reset_and_hazards.md R230): one lemma for each of the states in which a step can end. -/

namespace Sys2Proof.Machine

/-! ## States that meet the invariant -/

/-- What the invariant asks of a block that waits for word 0 of a frame. -/
theorem Inv.of_idle {s : State} (hphase : s.phase = .idle) (hmicro : s.micro = 0) (hrx : s.rx = [])
    (hmem : Memory.wf s.mem) (hquiet : s.ioerr = false → Quiet s)
    (hfailed : s.ioerr = true → s.clra = false ∧ s.clrd = false ∧ Havocked s)
    (haddr : s.clra = true → AllKnown s.sa) (hdata : s.clrd = true → AllKnown s.sd) : Inv s where
  memory := hmem
  quiet _ := hquiet
  failed := hfailed
  failedWaits _ := .inl hphase
  addrKnown _ := haddr
  dataKnown _ := hdata
  idleStep _ := hmicro
  partial_frame := by rwa [if_neg (by simp [hphase])]
  resetFlags h := by simp [hphase] at h
  hungOpcode h := by simp [hphase] at h

/-- What it asks of a block in which no frame is received, no command awaited and no failure stands. -/
theorem Inv.of_not_waiting {s : State} (hphase : ¬ Waiting s) (herr : s.ioerr = false) (hrx : s.rx = [])
    (hmem : Memory.wf s.mem) (hflags : s.phase = .resetting → s.clra = false ∧ s.clrd = false)
    (hopc : s.phase = .hung → s.opc ≠ .bot) : Inv s where
  memory := hmem
  quiet h := absurd h hphase
  failed h := by simp [herr] at h
  failedWaits h := by simp [herr] at h
  addrKnown h := absurd h hphase
  dataKnown h := absurd h hphase
  idleStep h := absurd h hphase
  partial_frame := by rwa [if_neg fun h => hphase (.inr h)]
  resetFlags := hflags
  hungOpcode := hopc

/-- A block in which the reset input was asserted (70_reset_and_hazards.md R230). -/
theorem inv_blockReset (found : Val Byte) {s : State} (h : Memory.wf s.mem) : Inv (blockReset found s) := by
  refine .of_not_waiting (by simp [Waiting]) rfl rfl ?_ (fun _ => ⟨rfl, rfl⟩) (by simp)
  rw [blockReset_mem]
  split
  · exact Memory.wf_unknown
  · exact h

theorem Inv.rx_nil {s : State} (h : Inv s) (hphase : s.phase ≠ .receiving) : s.rx = [] := by
  simpa [hphase] using h.partial_frame

theorem Inv.ioerr_false {s : State} (h : Inv s) (hphase : ¬ Waiting s) : s.ioerr = false :=
  Bool.eq_false_iff.2 fun he => hphase (h.failedWaits he)

/-- The reset input's count is no part of the invariant. -/
theorem Inv.withResets {s : State} (h : Inv s) (rs : List Nat) : Inv { s with resets := rs } :=
  ⟨h.memory, h.quiet, h.failed, h.failedWaits, h.addrKnown, h.dataKnown, h.idleStep, h.partial_frame, h.resetFlags,
    h.hungOpcode⟩

theorem inv_waitForHost {s : State} (h : Inv s) (found : Val Byte) : Inv (waitForHost found s) := by
  rcases waitForHost_cases found s with ⟨-, e⟩ | ⟨-, e⟩
  · exact e ▸ inv_blockReset found h.memory
  · exact e ▸ h.withResets _

/-! ## The port -/

theorem inv_consumeFrame {s : State} (h : Inv s) (hw : Waiting s) (k n : Nat) : Inv (consumeFrame k n s) :=
  .of_idle rfl (h.idleStep hw) rfl h.memory (h.quiet hw) h.failed (h.addrKnown hw) (h.dataKnown hw)

theorem inv_cutReception {s : State} (h : Inv s) (d : Nat) : Inv (cutReception d s) := inv_blockReset _ h.memory

theorem inv_acceptAll {s : State} (h : Inv s) (hw : Waiting s) (hd : decode (s.rx ++ s.words) = .error .incompleteFrame) :
    Inv (acceptAll s) := by
  rcases acceptAll_cases s with ⟨-, -, e⟩ | ⟨-, -, e⟩ | ⟨hne, e⟩
  · exact e ▸ inv_cutReception h 0
  · exact e ▸ h.withResets _
  · rw [e]
    exact
      { memory := h.memory
        quiet := fun _ => h.quiet hw
        failed := h.failed
        failedWaits := fun _ => .inr rfl
        addrKnown := fun _ => h.addrKnown hw
        dataKnown := fun _ => h.dataKnown hw
        idleStep := fun _ => h.idleStep hw
        partial_frame := ⟨List.append_ne_nil_of_right_ne_nil _ hne, hd⟩
        resetFlags := fun hr => by cases hr
        hungOpcode := fun hr => by cases hr }

theorem inv_illegalCommand {s t : State} {opc : Byte} (h : Inv s) (hidle : s.phase = .idle)
    (ht : illegalCommand opc s = .next t) : Inv t := by
  have hrx := h.rx_nil (by simp [hidle])
  rcases respond_cases opc .illegalCommand [] s with ⟨rs, -, e⟩ | ⟨k, m, rs, -, -, e⟩
  · cases e.symm.trans ht
    exact .of_idle hidle rfl hrx h.memory (h.quiet (.inl hidle)) h.failed (h.addrKnown (.inl hidle))
      (h.dataKnown (.inl hidle))
  · cases e.symm.trans ht
    exact inv_blockReset _ h.memory

/-! ## The commands -/

/-- A flag that the work of a command sets or keeps stands for a chain whose stages are known (10_state.md R25). -/
theorem workOf_done_flags {i : Instr} {s t : State} {p : List Word} (hq : Quiet s) (h : workOf i s = .done p t)
    (hr : Reaches i.opcode s t) (ha : s.clra = true → AllKnown s.sa) (hd : s.clrd = true → AllKnown s.sd) :
    (t.clra = true → AllKnown t.sa) ∧ (t.clrd = true → AllKnown t.sd) := by
  obtain ⟨-, ka, kd⟩ := workOf_done hq h
  refine ⟨fun hset => ?_, fun hset => ?_⟩
  · by_cases hi : i.opcode = .clrAddr
    · cases i <;> cases hi
      obtain ⟨bs, u, h1, h2⟩ := Run.bind_eq_done.1 h
      cases h2
      show AllKnown u.sa
      rw [clear_addr_effect hq h1]
      exact allKnown_allZero 16
    · rcases ka with e | hk
      · exact e ▸ ha ((hr.clra hi).symm.trans hset)
      · exact hk
  · by_cases hi : i.opcode = .clrData
    · cases i <;> cases hi
      obtain ⟨bs, u, h1, h2⟩ := Run.bind_eq_done.1 h
      cases h2
      show AllKnown u.sd
      rw [clear_data_effect hq h1]
      exact allKnown_allZero 24
    · rcases kd with e | hk
      · exact e ▸ hd ((hr.clrd hi).symm.trans hset)
      · exact hk

theorem started_opc (i : Instr) (s : State) : (started i s).opc = .known i.opcode.byte := by
  rw [started, latchOperands_keeps]

/-- Every ending of a command of an idle block. -/
theorem inv_exec {i : Instr} {s t : State} (h : Inv s) (hidle : s.phase = .idle) (ht : exec i s = .next t) :
    Inv t := by
  have hw : Waiting s := .inl hidle
  have hrx := h.rx_nil (by simp [hidle])
  have hmem (u : State) (hu : Reaches i.opcode (started i s) u) : Memory.wf u.mem :=
    hu.memWf ((started_mem i s).symm ▸ h.memory)
  have hphase (u : State) (hu : Reaches i.opcode (started i s) u) : u.phase = .idle :=
    hu.phase.trans ((started_phase i s).trans hidle)
  have hrx' (u : State) (hu : Reaches i.opcode (started i s) u) : u.rx = [] :=
    hu.rx.trans ((started_rx i s).trans hrx)
  have herr (u : State) (ha : admission i s = none) (hu : Reaches i.opcode (started i s) u) : u.ioerr = false :=
    hu.ioerr.trans ((started_ioerr i s).trans (admission_none.1 ha).2.1)
  cases ending_of_exec ht with
  | refused st rs ha hr =>
    exact .of_idle hidle rfl hrx h.memory (h.quiet hw) h.failed (h.addrKnown hw) (h.dataKnown hw)
  | finished p u rs ha hwork hu hr =>
    have hq : Quiet (started i s) := (started_pins i s).trans (h.quiet hw (admission_none.1 ha).2.1)
    obtain ⟨haddr, hdata⟩ := workOf_done_flags hq hwork hu (by simpa using h.addrKnown hw) (by simpa using h.dataKnown hw)
    exact .of_idle (hphase u hu) rfl (hrx' u hu) (hmem u hu) (fun _ => (workOf_done hq hwork).1)
      (fun he => by cases (herr u ha hu).symm.trans he) haddr hdata
  | failed p u rs ha hwork hu hf hr =>
    exact .of_idle (hphase u hu) rfl (hrx' u hu) Memory.wf_unknown (fun he => by cases he)
      (fun _ => ⟨rfl, rfl, rfl, rfl, rfl, rfl, rfl, rfl, rfl⟩) (fun he => by cases he) (fun he => by cases he)
  | hung u ha hwork hu hn =>
    refine .of_not_waiting (by simp [Waiting]) (herr u ha hu) (hrx' u hu) (hmem u hu) (fun he => by cases he) fun _ => ?_
    show u.opc ≠ .bot
    rw [hu.opc, started_opc]
    simp
  | cutRefused m rs hr => exact inv_blockReset _ h.memory
  | cut u m rs sent ha hu hr hs => exact inv_blockReset _ (hmem u hu)
  | cutFailed u m rs sent ha hu hf hr hs => exact inv_blockReset _ Memory.wf_unknown

/-! ## The bind and the step -/

theorem inv_bindPins {s t : State} (h : Inv s) (hphase : s.phase = .resetting) (ht : bindPins s = .next t) :
    Inv t := by
  have hrx := h.rx_nil (by simp [hphase])
  have herr := h.ioerr_false (by simp [Waiting, hphase])
  obtain ⟨hca, hcd⟩ := h.resetFlags hphase
  rcases bindPins_cases s with ⟨bs, u, -, e, hpins, -, -, hu⟩ | ⟨u, e, hu, -⟩ | ⟨u, e, hu, -⟩
  · cases e.symm.trans ht
    have hua : u.clra = false := (hu.clra nofun).trans hca
    have hud : u.clrd = false := (hu.clrd nofun).trans hcd
    exact .of_idle rfl rfl (hu.rx.trans hrx) (hu.memWf h.memory) (fun _ => hpins)
      (fun he => by cases (hu.ioerr.trans herr).symm.trans he) (fun he => by cases hua.symm.trans he)
      (fun he => by cases hud.symm.trans he)
  · cases e.symm.trans ht
    exact .of_not_waiting (by simp [Waiting]) (hu.ioerr.trans herr) (hu.rx.trans hrx) (hu.memWf h.memory)
      (fun he => by cases he) (fun he => by cases he)
  · cases e.symm.trans ht
    exact inv_blockReset _ (hu.memWf h.memory)

theorem inv_step_waiting {s t : State} (h : Inv s) (hw : Waiting s) (ht : step s = .next t) : Inv t := by
  rw [step_waiting hw] at ht
  rcases receive_cases s with ⟨i, n, -, -, e⟩ | ⟨opc, -, -, e⟩ | ⟨hd, -, e⟩ | ⟨d, -, e⟩
  all_goals simp only [e] at ht
  · exact inv_exec (inv_consumeFrame h hw _ n) rfl ht
  · exact inv_illegalCommand (inv_consumeFrame h hw _ 1) rfl ht
  · cases ht; exact inv_acceptAll h hw hd
  · cases ht; exact inv_cutReception h d

/-- Settles O35: by the phase the step begins in. -/
theorem invPreserved : Obligations.InvPreserved := by
  intro s t h ht
  cases hphase : s.phase with
  | idle => exact inv_step_waiting h (.inl hphase) ht
  | receiving => exact inv_step_waiting h (.inr hphase) ht
  | hung => cases (step_hung hphase).symm.trans ht; exact inv_waitForHost h _
  | resetting => exact inv_bindPins h hphase ((step_resetting hphase).symm.trans ht)
  | held => cases (step_held hphase).symm.trans ht; exact inv_waitForHost h _

/-- Settles O36: the state after reset is idle with its outputs released and its flags clear; at power-on the bind is
still to be made. -/
theorem invInitially : Obligations.InvInitially :=
  ⟨.of_idle rfl rfl rfl Memory.wf_unknown (fun _ => rfl) nofun nofun nofun,
    .of_not_waiting (by simp [Waiting, State.powerOn]) rfl rfl Memory.wf_unknown (fun _ => ⟨rfl, rfl⟩) nofun⟩

end Sys2Proof.Machine
end

section
/-! Operands of a decoded command as fields of its words, and the registers that decode fills (30_encoding.md R73). -/

namespace Sys2Proof.Encoding

open Machine

/-- Settles O1: each frame is looked up and read word by word. -/
theorem sampleWordsDecode : Obligations.SampleWordsDecode :=
  ⟨rfl, rfl, rfl, rfl, rfl, rfl, rfl, rfl, rfl, rfl⟩

/-- The first two words of a decoded frame are those that the command's encoding begins with. -/
theorem frameWords_of_decode {w0 : Word} {rest : List Word} {i : Instr} {n : Nat}
    (h : decode (w0 :: rest) = .ok (i, n)) :
    frameWord (encode i) 0 = w0 ∧ (1 < (encode i).length → frameWord (encode i) 1 = frameWord rest 0) := by
  obtain ⟨-, hencode, hn⟩ := encodeDecode _ _ _ h
  have hlen : (encode i).length = n := by rw [hencode, List.length_take_of_le hn]
  have hpos : 0 < n := by
    obtain ⟨-, -, -, e, -, hl, -, -⟩ := decode_cases h
    exact (frameLength_take hl).1
  rw [hlen, hencode, frameWord_take hpos]
  exact ⟨rfl, fun h1 => frameWord_take h1⟩

/-- Each operand is the field of its word, as numbers (30_encoding.md R72, R73). -/
theorem operands_of_decode {w0 : Word} {rest : List Word} {i : Instr} {n : Nat}
    (h : decode (w0 :: rest) = .ok (i, n)) :
    match i with
    | .clrAddr _ => True
    | .clrData _ => True
    | .write _ a _ d => a.toNat = w0.toNat % 2 ^ 16 ∧ d.toNat = (frameWord rest 0).toNat % 2 ^ 24
    | .read _ a => a.toNat = w0.toNat % 2 ^ 16
    | .dump _ records => records.length = w0.toNat % 2 ^ 16
    | .verify _ bc rt _ entries =>
      bc.toNat = w0.toNat / 2 ^ 8 % 2 ^ 8 ∧ rt.toNat = w0.toNat % 2 ^ 8 ∧
        entries.length = (frameWord rest 0).toNat % 2 ^ 17
    | .bulkRead _ l _ u => l.toNat = w0.toNat % 2 ^ 16 ∧ u.toNat = (frameWord rest 0).toNat % 2 ^ 16
    | .checksum _ bytes _ => bytes.length = w0.toNat % 2 ^ 8
    | .lowerMargin _ a => a.toNat = w0.toNat % 2 ^ 16
    | .upperMargin _ a => a.toNat = w0.toNat % 2 ^ 16 := by
  obtain ⟨hcounts, -, -⟩ := encodeDecode _ _ _ h
  obtain ⟨rfl, h1⟩ := frameWords_of_decode h
  cases i with
  | clrAddr rsv => trivial
  | clrData rsv => trivial
  | write rsv0 a rsv1 d =>
    rw [← h1 (by simp [encode])]
    simp only [encode, frameWord, List.getD_cons_zero, List.getD_cons_succ, toNat_append_mul]
    omega
  | read rsv a =>
    simp only [encode, frameWord, List.getD_cons_zero, toNat_append_mul]
    omega
  | dump rsv records =>
    have hlen : records.length < 2 ^ 16 := by simpa [Instr.encodable] using hcounts
    simp only [encode, frameWord, List.getD_cons_zero, toNat_append_mul, BitVec.toNat_ofNat]
    omega
  | verify rsv0 bc rt rsv1 entries =>
    have hlen : entries.length < 2 ^ 17 := by simpa [Instr.encodable] using hcounts
    rw [← h1 (by simp [encode])]
    simp only [encode, frameWord, List.getD_cons_zero, List.getD_cons_succ, toNat_append_mul, BitVec.toNat_ofNat]
    omega
  | bulkRead rsv0 l rsv1 u =>
    rw [← h1 (by simp [encode])]
    simp only [encode, frameWord, List.getD_cons_zero, List.getD_cons_succ, toNat_append_mul]
    omega
  | checksum rsv bytes pad =>
    obtain ⟨hlen, -⟩ : bytes.length < 2 ^ 8 ∧ pad.length = padLength bytes.length := by
      simpa [Instr.encodable] using hcounts
    simp only [encode, frameWord, List.getD_cons_zero, toNat_append_mul, BitVec.toNat_ofNat]
    omega
  | lowerMargin rsv a =>
    simp only [encode, frameWord, List.getD_cons_zero, toNat_append_mul]
    omega
  | upperMargin rsv a =>
    simp only [encode, frameWord, List.getD_cons_zero, toNat_append_mul]
    omega

/-- An admitted command that no reset cuts off leaves the operand registers as decode wrote them: its work does not
touch them. -/
theorem registers_of_admitted {i : Instr} {s t : State} (ha : admission i s = none) (h : exec i s = .next t)
    (hp : t.phase ≠ .resetting) :
    t.opc = (started i s).opc ∧ t.opa = (started i s).opa ∧ t.opb = (started i s).opb ∧
      t.opd = (started i s).opd ∧ t.bc = (started i s).bc ∧ t.rt = (started i s).rt := by
  have hkeeps (u : State) (hu : Reaches i.opcode (started i s) u) :
      u.opc = (started i s).opc ∧ u.opa = (started i s).opa ∧ u.opb = (started i s).opb ∧
        u.opd = (started i s).opd ∧ u.bc = (started i s).bc ∧ u.rt = (started i s).rt :=
    ⟨hu.opc, hu.opa, hu.opb, hu.opd, hu.bc, hu.rt⟩
  cases ending_of_exec h with
  | refused st rs ha' => cases ha.symm.trans ha'
  | finished p u rs _ hw hu => exact hkeeps u hu
  | failed p u rs _ hw hu => exact hkeeps u hu
  | hung u _ hw hu => exact hkeeps u hu
  | cutRefused m rs hr => exact absurd rfl hp
  | cut u m rs sent _ hu => exact absurd rfl hp
  | cutFailed u m rs sent _ hu => exact absurd rfl hp

/-- Settles O5: the frame is the encoding of its command, and the work of an admitted command leaves what decode wrote
into the registers. -/
theorem operandFields : Obligations.OperandFields := by
  refine ⟨fun w0 rest i n h => ?_, fun i s t _ ha h hp => ?_⟩
  · have hfields := operands_of_decode h
    cases i <;> exact hfields
  · obtain ⟨hopc, hopa, hopb, hopd, hbc, hrt⟩ := registers_of_admitted ha h hp
    refine ⟨hopc.trans (opcode_byte i ▸ started_opc i s), ?_⟩
    cases i with
    | write rsv0 a rsv1 d => exact ⟨hopa, hopd⟩
    | verify rsv0 bc rt rsv1 entries => exact ⟨hbc, hrt⟩
    | bulkRead rsv0 l rsv1 u => exact ⟨hopa, hopb⟩
    | _ => exact hopa

end Sys2Proof.Encoding
end

section
/-! The host port over one step (10_state.md R26, 30_encoding.md R77): a whole frame runs its command, an incomplete one
is kept, and no word is lost. -/

namespace Sys2Proof.Machine

/-- Settles O8: the port answers the command with its frame consumed. -/
theorem stepRunsDecodedCommand : Obligations.StepRunsDecodedCommand := by
  intro s i n hw hd hr
  rw [step_waiting hw, receive, hd]
  simp only [hr]
  rfl

/-! ## A frame in two pieces -/

/-- What a block has received of a frame's first piece. -/
def pieceReceived (ws : List Word) (s : State) : State := { s with words := [], rx := ws, phase := .receiving }

theorem step_incomplete {s : State} {ws : List Word} (hidle : s.phase = .idle) (hrx : s.rx = []) (hr : s.resets = [])
    (hne : ws ≠ []) (hd : decode ws = .error .incompleteFrame) :
    step { s with words := ws } = .next (pieceReceived ws s) := by
  rw [step_waiting (s := { s with words := ws }) (.inl hidle), receive]
  simp only [hrx, List.nil_append, hd, hr, resetWithin, acceptAll, if_neg hne, countDown, pieceReceived]

/-- The port sees the received words and the presented ones as one list. -/
theorem receive_second_piece {s : State} (ws₁ ws₂ : List Word) (hrx : s.rx = []) (hr : s.resets = []) (hne : ws₁ ≠ []) :
    receive { pieceReceived ws₁ s with words := ws₂ } = receive { s with words := ws₁ ++ ws₂ } := by
  simp only [receive, pieceReceived, hrx, hr, List.nil_append, resetWithin, consumeFrame, countDown]
  cases decode (ws₁ ++ ws₂) with
  | ok p => rfl
  | error e =>
    cases e with
    | illegalCommand opc => rfl
    | incompleteFrame =>
      cases ws₂ with
      | nil => simp [acceptAll, State.resetDue, hne, countDown]
      | cons w ws₂ => simp [acceptAll, hne, countDown]

/-- Settles O10: the first piece is only received, and then the port sees both pieces together. -/
theorem frameInPieces : Obligations.FrameInPieces := by
  intro s u ws₁ ws₂ hidle hrx hr hne hd hu
  cases (step_incomplete hidle hrx hr hne hd).symm.trans hu
  refine ⟨rfl, rfl, ?_⟩
  rw [step_waiting (s := { pieceReceived ws₁ s with words := ws₂ }) (.inr rfl),
    step_waiting (s := { s with words := ws₁ ++ ws₂ }) (.inl hidle), receive_second_piece ws₁ ws₂ hrx hr hne]

/-! ## No word is lost -/

/-- A step that moves the command pointer from `s` to `t` leaves the words past it. -/
def WordsConserved (s t : State) : Prop :=
  s.cmdPtr ≤ t.cmdPtr ∧ t.rx ++ t.words = (s.rx ++ s.words).drop (t.cmdPtr - s.cmdPtr)

theorem WordsConserved.of_moved {s t : State} (n : Nat) (hptr : t.cmdPtr = s.cmdPtr + n)
    (hwords : t.rx ++ t.words = (s.rx ++ s.words).drop n) : WordsConserved s t :=
  ⟨by omega, by rw [hwords, hptr, Nat.add_sub_cancel_left]⟩

theorem WordsConserved.of_kept {s t : State} (hptr : t.cmdPtr = s.cmdPtr) (hrx : t.rx = s.rx)
    (hwords : t.words = s.words) : WordsConserved s t :=
  .of_moved 0 hptr (by rw [hrx, hwords, List.drop_zero])

/-- A reset passes the words of the frame it cut off (70_reset_and_hazards.md R230; assumption log 26). -/
theorem wordsConserved_cutReception (d : Nat) (s : State) : WordsConserved s (cutReception d s) :=
  .of_moved (s.rx.length + d) (Nat.add_assoc ..) (List.drop_append ▸ by simp [cutReception])

theorem wordsConserved_acceptAll (s : State) : WordsConserved s (acceptAll s) := by
  rcases acceptAll_cases s with ⟨-, -, e⟩ | ⟨-, -, e⟩ | ⟨-, e⟩
  · exact e ▸ wordsConserved_cutReception 0 s
  · exact e ▸ .of_kept rfl rfl rfl
  · exact e ▸ .of_moved 0 rfl (by simp)

/-- Whatever follows a consumed frame without touching the port. -/
theorem wordsConserved_consumeFrame {s t : State} (k n : Nat) (hwords : t.words = (consumeFrame k n s).words)
    (hptr : t.cmdPtr = (consumeFrame k n s).cmdPtr) (hrx : t.rx = []) : WordsConserved s t :=
  .of_moved n hptr (by rw [hrx, hwords]; rfl)

theorem respond_port {opc : Byte} {st : Status} {payload : List Word} {s t : State}
    (h : respond opc st payload s = .next t) : t.words = s.words ∧ t.cmdPtr = s.cmdPtr ∧ (s.rx = [] → t.rx = []) := by
  rcases respond_cases opc st payload s with ⟨rs, -, e⟩ | ⟨k, m, rs, -, -, e⟩
  · cases e.symm.trans h; exact ⟨rfl, rfl, id⟩
  · cases e.symm.trans h; exact ⟨rfl, rfl, fun _ => rfl⟩

theorem wordsConserved_waiting {s t : State} (hw : Waiting s) (h : step s = .next t) : WordsConserved s t := by
  rw [step_waiting hw] at h
  rcases receive_cases s with ⟨i, n, -, -, e⟩ | ⟨opc, -, -, e⟩ | ⟨-, -, e⟩ | ⟨d, -, e⟩
  all_goals simp only [e] at h
  · obtain ⟨hwords, hptr, hrx⟩ := exec_port h
    exact wordsConserved_consumeFrame _ n hwords hptr (hrx rfl)
  · obtain ⟨hwords, hptr, hrx⟩ := respond_port h
    exact wordsConserved_consumeFrame _ 1 hwords hptr (hrx rfl)
  · cases h; exact wordsConserved_acceptAll s
  · cases h; exact wordsConserved_cutReception d s

theorem wordsConserved_waitForHost {s : State} (hrx : s.rx = []) (found : Val Byte) :
    WordsConserved s (waitForHost found s) := by
  rcases waitForHost_cases found s with ⟨-, e⟩ | ⟨-, e⟩
  · exact e ▸ .of_kept rfl hrx.symm rfl
  · exact e ▸ .of_kept rfl rfl rfl

theorem wordsConserved_bindPins {s t : State} (hrx : s.rx = []) (h : bindPins s = .next t) : WordsConserved s t := by
  rcases bindPins_cases s with ⟨bs, u, -, e, -, -, -, hu⟩ | ⟨u, e, hu, -⟩ | ⟨u, e, hu, -⟩
  · cases e.symm.trans h; exact .of_kept hu.cmdPtr hu.rx hu.words
  · cases e.symm.trans h; exact .of_kept hu.cmdPtr hu.rx hu.words
  · cases e.symm.trans h; exact .of_kept hu.cmdPtr hrx.symm hu.words

/-- Settles O11: by the phase; only a block that receives holds words of a frame. -/
theorem commandWordsConserved : Obligations.CommandWordsConserved := by
  intro s t hs h
  cases hphase : s.phase with
  | idle => exact wordsConserved_waiting (.inl hphase) h
  | receiving => exact wordsConserved_waiting (.inr hphase) h
  | hung =>
    cases (step_hung hphase).symm.trans h
    exact wordsConserved_waitForHost (hs.rx_nil (by simp [hphase])) _
  | resetting => exact wordsConserved_bindPins (hs.rx_nil (by simp [hphase])) ((step_resetting hphase).symm.trans h)
  | held =>
    cases (step_held hphase).symm.trans h
    exact wordsConserved_waitForHost (hs.rx_nil (by simp [hphase])) _

/-- Settles O43: such a block only waits. -/
theorem hungUntilReset : Obligations.HungUntilReset := by
  intro s t hphase h
  obtain ⟨found, hstep⟩ : ∃ found, step s = .next (waitForHost found s) :=
    hphase.elim (fun hh => ⟨_, step_hung hh⟩) fun hh => ⟨_, step_held hh⟩
  cases hstep.symm.trans h
  rcases waitForHost_cases found s with ⟨hdue, e⟩ | ⟨hdue, e⟩
  · rw [e]; exact ⟨rfl, rfl, rfl, fun hf => (by cases hdue.symm.trans hf), fun _ => rfl⟩
  · rw [e]; exact ⟨rfl, rfl, rfl, fun _ => rfl, fun hf => (by cases hdue.symm.trans hf)⟩

end Sys2Proof.Machine
end

section
/-! The margins and the window of BULK_READ by arithmetic (44_batch.md R166, R167, R170, R171), and what the checksum
validates (42_hexcodec.md R125 to R129). -/

namespace Sys2Proof.Machine

/-! ## Margins -/

theorem toNat_lowerMargin (a : Addr) : (lowerMargin a).toNat = a.toNat - a.toNat % 8 := by
  have h := a.isLt
  simp only [lowerMargin, BitVec.toNat_sub, BitVec.toNat_umod, BitVec.ofNat_eq_ofNat, BitVec.toNat_ofNat,
    Nat.reducePow, Nat.reduceMod]
  omega

theorem toNat_upperMargin (a : Addr) : (upperMargin a).toNat = a.toNat + (7 - a.toNat % 8) := by
  have h := a.isLt
  simp only [upperMargin, BitVec.toNat_add, BitVec.toNat_sub, BitVec.toNat_umod, BitVec.ofNat_eq_ofNat, BitVec.toNat_ofNat,
    Nat.reducePow, Nat.reduceMod]
  omega

/-- An address whose number is that of `a` with bits [2:0] replaced by those of `low`. -/
theorem getLsbD_of_low3 {a b : Addr} {low : Nat} (hlow : low < 8) (h : b.toNat = 8 * (a.toNat / 8) + low) (k : Nat) :
    b.getLsbD k = if k < 3 then low.testBit k else a.getLsbD k := by
  rw [← BitVec.testBit_toNat, h, Nat.testBit_two_pow_mul_add (i := 3) _ hlow]
  split
  · rfl
  · rw [Nat.testBit_div_two_pow (n := 3), Nat.sub_add_cancel (by omega), BitVec.testBit_toNat]

theorem lowerMargin_eq_and (a : Addr) : lowerMargin a = a &&& 0xFFF8 := by
  refine BitVec.eq_of_getLsbD_eq fun k hk => ?_
  have hmask : ∀ k < 16, (0xFFF8 : Addr).getLsbD k = decide (3 ≤ k) := by decide
  rw [getLsbD_of_low3 (a := a) (low := 0) (by decide) (by rw [toNat_lowerMargin]; omega), BitVec.getLsbD_and, hmask k hk]
  by_cases h3 : k < 3
  · simp [h3]
  · simp [h3, Nat.not_lt.1 h3]

theorem upperMargin_eq_or (a : Addr) : upperMargin a = a ||| 0x0007 := by
  refine BitVec.eq_of_getLsbD_eq fun k hk => ?_
  have hmask : ∀ k < 16, (0x0007 : Addr).getLsbD k = decide (k < 3) := by decide
  have hseven : ∀ k < 3, Nat.testBit 7 k = true := by decide
  rw [getLsbD_of_low3 (a := a) (low := 7) (by decide) (by rw [toNat_upperMargin]; omega), BitVec.getLsbD_or, hmask k hk]
  by_cases h3 : k < 3
  · simp [h3, hseven k h3]
  · simp [h3]

/-- Settles O57: the arithmetic is on the numbers, the masks bit by bit. -/
theorem margins : Obligations.Margins := fun a =>
  ⟨toNat_lowerMargin a, lowerMargin_eq_and a, fun m h8 hm => by rw [toNat_lowerMargin]; omega, toNat_upperMargin a,
    upperMargin_eq_or a, fun m h8 hm => by rw [toNat_upperMargin]; omega⟩

/-! ## The window -/

theorem windowSize_eq (l u : Addr) :
    windowSize l u = u.toNat + (7 - u.toNat % 8) - (l.toNat - l.toNat % 8) + 1 := by
  rw [windowSize, toNat_lowerMargin, toNat_upperMargin]

/-- Address number `k` of the window, as a number: the window does not wrap. -/
theorem toNat_window {l u : Addr} {k : Nat} (hlu : l.toNat ≤ u.toNat) (hk : k < windowSize l u) :
    (lowerMargin l + BitVec.ofNat 16 k).toNat = (lowerMargin l).toNat + k := by
  have hu := u.isLt
  rw [windowSize_eq] at hk
  rw [BitVec.toNat_add, BitVec.toNat_ofNat, toNat_lowerMargin]
  omega

theorem getLast?_windowAddrs {l u : Addr} (hlu : l.toNat ≤ u.toNat) :
    (windowAddrs l u).getLast? = some (upperMargin u) := by
  have hsize : windowSize l u = (upperMargin u).toNat - (lowerMargin l).toNat + 1 := rfl
  have hle : (lowerMargin l).toNat ≤ (upperMargin u).toNat := by
    rw [toNat_lowerMargin, toNat_upperMargin]; omega
  have hlast : lowerMargin l + BitVec.ofNat 16 ((upperMargin u).toNat - (lowerMargin l).toNat) = upperMargin u := by
    apply BitVec.eq_of_toNat_eq
    rw [toNat_window hlu (by omega)]
    omega
  rw [windowAddrs, hsize, List.range_succ, List.map_append, List.map_singleton, List.getLast?_append, hlast]
  rfl

/-- Settles O58: the window is the range of numbers from one margin to the other. -/
theorem windowShape : Obligations.WindowShape := by
  intro l u h
  have hlu : l.toNat ≤ u.toNat := h
  have hu := u.isLt
  have hsize := windowSize_eq l u
  have hlen := length_windowAddrs l u
  refine ⟨by omega, by omega, by omega, fun k hk => ?_, getLast?_windowAddrs hlu, fun a hla hau => ?_⟩
  · simp only [windowAddrs, List.getElem_map, List.getElem_range]
    exact toNat_window hlu (hlen ▸ hk)
  · have hla' : l.toNat ≤ a.toNat := hla
    have hau' : a.toNat ≤ u.toNat := hau
    have hlow := toNat_lowerMargin l
    have hk : a.toNat - (lowerMargin l).toNat < windowSize l u := by omega
    refine List.mem_map.2 ⟨a.toNat - (lowerMargin l).toNat, List.mem_range.2 hk, BitVec.eq_of_toNat_eq ?_⟩
    rw [toNat_window hlu hk]
    omega

/-! ## The checksum -/

/-- Settles O55: the accumulator is the byte sum, and the canonical bytes are the fields R129 names. -/
theorem checksumValidates : Obligations.ChecksumValidates := by
  refine ⟨toNat_ck8, fun bytes c => ?_, fun bytes bytes' h => ?_, fun bc a rt d => ?_⟩
  · rw [← BitVec.toNat_inj, toNat_ck8]
    have hc := c.isLt
    omega
  · rw [ck8, ck8, ckAccumulate_eq_ofNat_sum, ckAccumulate_eq_ofNat_sum, (h.map _).sum_eq]
  · have ha := a.isLt
    have hd := d.isLt
    simp only [canon, List.map_cons, List.map_nil, toNat_field, List.cons.injEq, and_true, true_and]
    omega

end Sys2Proof.Machine
end

section
/-! Hex text and its value (42_hexcodec.md R120, R124), and the text of a record (30_encoding.md R84, R85): reading digits
and writing them undo each other, digit by digit from the right. -/

namespace Sys2Proof.Machine

theorem readDigits_append (base : Nat) (digit : Char → Option Nat) (acc : Nat) (cs ds : List Char) :
    readDigits base digit acc (cs ++ ds) = (readDigits base digit acc cs).bind (readDigits base digit · ds) := by
  induction cs generalizing acc with
  | nil => rfl
  | cons c cs ih =>
    simp only [List.cons_append, readDigits]
    cases digit c with
    | none => rfl
    | some d => exact ih _

theorem hexValue_concat (cs : List Char) (c : Char) :
    hexValue (cs ++ [c]) = (hexValue cs).bind fun v => (hexDigitValue c).map (v * 16 + ·) := by
  rw [hexValue, readDigits_append]
  refine congrArg (Option.bind _) (funext fun v => ?_)
  simp only [readDigits]
  cases hexDigitValue c <;> rfl

/-- A digit character of either case stands for a digit, whose own character is the one in lower case. -/
theorem digitChar_of_hexDigitValue {c : Char} {d : Nat} (h : hexDigitValue c = some d) :
    d < 16 ∧ digitChar d = lowerChar c := by
  unfold hexDigitValue at h
  unfold digitChar lowerChar
  split at h
  case isTrue hc =>
    cases h
    rw [if_pos (by omega), if_neg (by omega), Nat.add_sub_cancel' hc.1, Char.ofNat_toNat]
    exact ⟨by omega, rfl⟩
  split at h
  case isTrue hc =>
    cases h
    rw [if_neg (by omega), if_neg (by omega), show 87 + (c.toNat - 87) = c.toNat by omega, Char.ofNat_toNat]
    exact ⟨by omega, rfl⟩
  split at h
  case isTrue hc =>
    cases h
    rw [if_neg (by omega), if_pos hc, show 87 + (c.toNat - 55) = c.toNat + 32 by omega]
    exact ⟨by omega, rfl⟩
  cases h

theorem hexDigitValue_digitChar : ∀ d < 16, hexDigitValue (digitChar d) = some d := by decide

/-- Digits that are read and written again are the same digits in lower case. -/
theorem digitsOf_hexValue {cs : List Char} {v : Nat} (h : hexValue cs = some v) :
    digitsOf 16 cs.length v = cs.map lowerChar := by
  induction cs using List.reverseRecOn generalizing v with
  | nil => rfl
  | append_singleton cs c ih =>
    rw [hexValue_concat] at h
    obtain ⟨u, hu, hc⟩ := Option.bind_eq_some_iff.1 h
    obtain ⟨d, hd, rfl⟩ := Option.map_eq_some_iff.1 hc
    obtain ⟨hlt, hchar⟩ := digitChar_of_hexDigitValue hd
    rw [List.length_append, List.length_singleton, digitsOf, show (u * 16 + d) / 16 = u by omega,
      show (u * 16 + d) % 16 = d by omega, ih hu, hchar, List.map_append, List.map_singleton]

/-- Digits that are written and read again are the low digits of the number. -/
theorem hexValue_digitsOf (w n : Nat) : hexValue (digitsOf 16 w n) = some (n % 16 ^ w) := by
  induction w generalizing n with
  | zero => rw [Nat.pow_zero, Nat.mod_one]; rfl
  | succ w ih =>
    rw [digitsOf, hexValue_concat, ih, Option.bind_some, hexDigitValue_digitChar _ (Nat.mod_lt _ (by decide)),
      Option.map_some, Nat.pow_succ', Nat.mod_mul, Nat.add_comm, Nat.mul_comm]

/-- Settles O59: a hex literal is its two marks and digits that are read. -/
theorem hexRoundTrip : Obligations.HexRoundTrip := by
  intro s h hs
  unfold parseHex at hs
  cases hds : hexDigitsOf s with
  | none => simp only [hds] at hs; cases hs
  | some ds =>
    obtain rfl : s = '0' :: 'x' :: ds := by
      unfold hexDigitsOf at hds
      split at hds
      · cases hds; rfl
      · cases hds
    simp only [hds] at hs
    split at hs
    · cases hs
    · split at hs
      · next v hv =>
        cases hs
        rw [hexRender, digitsOf_hexValue hv]
        rfl
      · cases hs

/-! ## Records -/

@[simp] theorem length_digitsOf (base w n : Nat) : (digitsOf base w n).length = w := by
  induction w generalizing n with
  | zero => rfl
  | succ w ih => rw [digitsOf, List.length_append, ih, List.length_singleton]

/-- The digits of a field that is as many bits wide are read as the field, between the offsets at which they lie. -/
theorem hexValue_slice {n i j w : Nat} (before after : List Char) (v : BitVec n) (hi : before.length = i)
    (hj : i + w = j) (hw : 2 ^ n = 16 ^ w) :
    hexValue (slice i j (before ++ (digitsOf 16 w v.toNat ++ after))) = some v.toNat := by
  have hslice : slice i j (before ++ (digitsOf 16 w v.toNat ++ after)) = digitsOf 16 w v.toNat := by
    subst hi hj
    simp [slice]
  rw [hslice, hexValue_digitsOf, Nat.mod_eq_of_lt (hw ▸ v.isLt)]

/-- Settles O60: each field's digits lie at its offsets, and are read as the field. -/
theorem recordTextRoundTrip : Obligations.RecordTextRoundTrip := by
  intro marker ⟨bc, addr, type, data, ck⟩
  let bcText := digitsOf 16 2 bc.toNat
  let addrText := digitsOf 16 4 addr.toNat
  let typeText := digitsOf 16 2 type.toNat
  let dataText := digitsOf 16 6 data.toNat
  let ckText := digitsOf 16 2 ck.toNat
  have hbc := hexValue_slice (i := 1) (j := 3) (w := 2) [marker] (addrText ++ typeText ++ dataText ++ ckText) bc rfl
    rfl rfl
  have haddr := hexValue_slice (i := 3) (j := 7) (w := 4) (marker :: bcText) (typeText ++ dataText ++ ckText) addr
    (by simp [bcText]) rfl rfl
  have htype := hexValue_slice (i := 7) (j := 9) (w := 2) (marker :: (bcText ++ addrText)) (dataText ++ ckText) type
    (by simp [bcText, addrText]) rfl rfl
  have hdata := hexValue_slice (i := 9) (j := 15) (w := 6) (marker :: (bcText ++ addrText ++ typeText)) ckText data
    (by simp [bcText, addrText, typeText]) rfl rfl
  have hck := hexValue_slice (i := 15) (j := 17) (w := 2) (marker :: (bcText ++ addrText ++ typeText ++ dataText)) []
    ck (by simp [bcText, addrText, typeText, dataText]) rfl rfl
  simp only [bcText, addrText, typeText, dataText, ckText, List.cons_append, List.nil_append, List.append_nil,
    List.append_assoc] at hbc haddr htype hdata hck ⊢
  rw [decodeRecord, if_neg (by simp [recordLength]), hbc, haddr, htype, hdata, hck]
  simp only [BitVec.ofNat_toNat, BitVec.setWidth_eq]

end Sys2Proof.Machine
end

section
/-! The words of a response (30_encoding.md R78, R79; 10_state.md R28; 44_batch.md R170): the fields of each, as
numbers. -/

namespace Sys2Proof.Machine

theorem toNat_statusCode_le (st : Status) : (statusCode st).toNat ≤ 4 := by cases st <;> decide

theorem header_fields (opc : Byte) (st : Status) (s : State) :
    (header opc st s).toNat / 2 ^ 24 = opc.toNat ∧ (header opc st s).toNat / 2 ^ 16 % 2 ^ 8 ≤ 4 ∧
    (header opc st s).toNat / 2 ^ 3 % 2 ^ 13 = 0 ∧ (header opc st s).getLsbD 2 = s.ioerr ∧
    (header opc st s).getLsbD 1 = s.clrd ∧ (header opc st s).getLsbD 0 = s.clra := by
  have hst := toNat_statusCode_le st
  have hflags := (flagField s).isLt
  have hnum : (header opc st s).toNat = ((opc.toNat * 2 ^ 8 + (statusCode st).toNat) * 2 ^ 13 + 0) * 2 ^ 3 +
      (flagField s).toNat := by
    simp only [header, toNat_append_mul, BitVec.ofNat_eq_ofNat, BitVec.toNat_ofNat, Nat.reducePow, Nat.reduceMod]
  refine ⟨by omega, by omega, by omega, ?_, ?_, ?_⟩
  all_goals rw [header_eq, getLsbD_headerWord]; rfl

/-- The count field of a payload's first word (30_encoding.md R79). -/
theorem toNat_countWord {n : Nat} (h : n ≤ 65536) : (countWord n).toNat = n := by
  simp only [countWord, BitVec.toNat_setWidth, BitVec.toNat_ofNat]
  omega

/-- VERIFY's first word. -/
theorem verifyHead_fields (allpass blinked : Bool) {n : Nat} (h : n ≤ 65536) :
    let w : Word := BitVec.ofBool allpass ++ BitVec.ofBool blinked ++ (0 : BitVec 13) ++ BitVec.ofNat 17 n
    w.getLsbD 31 = allpass ∧ w.getLsbD 30 = blinked ∧ w.toNat % 2 ^ 30 = n := by
  refine ⟨?_, ?_, ?_⟩
  · simp only [BitVec.getLsbD_append]; simp
  · simp only [BitVec.getLsbD_append]; simp
  · simp only [toNat_append_mul, BitVec.ofNat_eq_ofNat, BitVec.toNat_ofNat, Nat.reducePow, Nat.reduceMod]
    omega

theorem lineWords_fields (l : Line) :
    ∃ l0 l1, lineWords l = [l0, l1] ∧ l0.getLsbD 31 = (l.computed == l.expected) ∧
      l0.toNat % 2 ^ 31 = l.addr.toNat * 2 ^ 8 + l.computed.toNat ∧
      l1.toNat = l.expected.toNat * 2 ^ 24 + l.data.toNat := by
  refine ⟨_, _, rfl, ?_, ?_, toNat_append_mul _ _⟩
  · simp only [BitVec.getLsbD_append]; simp [linePass]
  · have ha := l.addr.isLt
    have hc := l.computed.isLt
    simp only [toNat_append_mul, BitVec.ofNat_eq_ofNat, BitVec.toNat_ofNat, Nat.reducePow, Nat.reduceMod]
    omega

theorem mappingWord_eq (e : Addr × Byte) : mappingWord e = BitVec.ofNat 32 (e.1.toNat * 2 ^ 8 + e.2.toNat) := by
  have ha := e.1.isLt
  have hc := e.2.isLt
  apply BitVec.eq_of_toNat_eq
  simp only [mappingWord, toNat_append_mul, BitVec.ofNat_eq_ofNat, BitVec.toNat_ofNat, Nat.reducePow, Nat.reduceMod]
  omega

theorem toNat_valueWord (l u a : Addr) (d : Data) :
    (valueWord l u a d).toNat = (if l.toNat ≤ a.toNat ∧ a.toNat ≤ u.toNat then 2 ^ 24 else 0) + d.toNat := by
  simp only [valueWord, toNat_append_mul, BitVec.toNat_ofBool, BitVec.le_def, BitVec.ofNat_eq_ofNat,
    BitVec.toNat_ofNat, ← Bool.decide_and]
  by_cases h : l.toNat ≤ a.toNat ∧ a.toNat ≤ u.toNat
  · simp [h]
  · simp [h]

/-- Settles O16: field by field; a count of at most 65536 fits its 17 bits. -/
theorem responseFields : Obligations.ResponseFields := by
  refine ⟨header_fields, fun allpass blinked lines h => ⟨_, rfl, verifyHead_fields allpass blinked h⟩, lineWords_fields,
    fun m h => ⟨_, ?_, toNat_countWord h⟩,
    fun l u values h => ⟨_, _, rfl, toNat_countWord h, toNat_append_mul _ _⟩, toNat_valueWord⟩
  rw [dumpPayload, funext mappingWord_eq]

end Sys2Proof.Machine
end

section
/-! The next state of each command that nothing disturbs (43_memory_driver.md R140 to R147, 44_batch.md R161 to R170):
its work under a calm I/O layer, then its whole response. -/

namespace Sys2Proof.Machine

/-! ## The frame of every such proof -/

/-- An admitted command whose work ends while no reset is scheduled, with these flags. -/
theorem exec_done {i : Instr} {s u : State} {p : List Word} {clrd clra : Bool} (ha : admission i s = none)
    (hw : workOf i (started i s) = .done p u) (hr : u.resets = []) (herr : u.ioerr = false) (hcd : u.clrd = clrd)
    (hca : u.clra = clra) :
    exec i s = .next { u with out := u.out ++ headerWord i.opcode.byte 0x00 false clrd clra :: p, micro := 0 } := by
  subst hcd hca
  rw [exec_eq, perform_admitted ha, ← herr]
  exact (congrArg _ hw).trans (conclude_done hr _ _)

/-- Work that goes on after a piece that ends. -/
theorem bind_of_done {ε ε' α β : Type} {r : Run ε α} {e : ε'} {k : α → State → Run ε' β} {a : α} {s : State}
    (h : r = .done a s) : r.bind e k = k a s := by rw [h]; rfl

theorem admission_ready {i : Instr} {s : State} (hl : i.legal = true) (hs : Ready s)
    (ha : needsAddrChain i.opcode = true → s.clra = true) (hd : needsDataChain i.opcode = true → s.clrd = true) :
    admission i s = none := by
  obtain ⟨-, -, herr⟩ := hs
  rw [needsAddrChain_iff] at ha
  rw [needsDataChain_iff] at hd
  exact admission_none.2 ⟨hl, herr, (chainsCleared_iff i s).2 ⟨ha, hd⟩⟩

/-! ## The single commands -/

/-- Settles O17: one pulse of the chain's clear, then its flag. -/
theorem clearsComplete : Obligations.ClearsComplete := by
  intro s h
  have ⟨hc, hq, herr⟩ := h
  obtain ⟨m, hm⟩ := clear_addr_calm (s := started (.clrAddr 0) s) hc hq
  obtain ⟨n, hn⟩ := clear_data_calm (s := started (.clrData 0) s) hc hq
  exact ⟨exec_done (i := .clrAddr 0) (admission_ready rfl h nofun nofun) (bind_of_done hm) hc.1 herr rfl rfl,
    exec_done (i := .clrData 0) (admission_ready rfl h nofun nofun) (bind_of_done hn) hc.1 herr rfl rfl⟩

/-- Settles O18: `WriteSeq` under a calm I/O layer, whatever the schedule. -/
theorem writeCompletes : Obligations.WriteCompletes := by
  intro a d s h hca hcd
  have ⟨hc, hq, herr⟩ := h
  obtain ⟨m, n, hm⟩ := writeSeq_calm (s := started (.write 0 a 0 d) s) a d hc hq
  exact ⟨n, exec_done (i := .write 0 a 0 d) (admission_ready rfl h (fun _ => hca) fun _ => hcd) (bind_of_done hm) hc.1
    herr hcd hca⟩

/-- Settles O19: `ReadSeq` under a calm I/O layer, whose result is the one word of the payload. -/
theorem readCompletes : Obligations.ReadCompletes := by
  intro a s h hca
  have ⟨hc, hq, herr⟩ := h
  obtain ⟨m, hm⟩ := readSeq_calm (s := started (.read 0 a) s) a hc hq
  exact exec_done (i := .read 0 a) (admission_ready rfl h (fun _ => hca) nofun) (bind_of_done hm) hc.1 herr rfl hca

/-- Settles O24: no micro-operation is made. -/
theorem marginsComplete : Obligations.MarginsComplete := by
  intro a s herr hr
  have hlow : (lowerMargin a).setWidth 32 = BitVec.ofNat 32 (a.toNat - a.toNat % 8) := by
    rw [← toNat_lowerMargin, BitVec.ofNat_toNat]
  have hup : (upperMargin a).setWidth 32 = BitVec.ofNat 32 (a.toNat + (7 - a.toNat % 8)) := by
    rw [← toNat_upperMargin, BitVec.ofNat_toNat]
  rw [← hlow, ← hup]
  exact ⟨exec_done (i := .lowerMargin 0 a) (admission_none.2 ⟨rfl, herr, rfl⟩) rfl hr herr rfl rfl,
    exec_done (i := .upperMargin 0 a) (admission_none.2 ⟨rfl, herr, rfl⟩) rfl hr herr rfl rfl⟩

end Sys2Proof.Machine
end

section
/-! The batch commands that nothing disturbs, and that every command of a live block answers (44_batch.md R161 to R170,
60_exceptions.md R200, R201). -/

namespace Sys2Proof.Machine

/-! ## DUMP -/

/-- Settles O20: DUMP's loop under a calm I/O layer. -/
theorem dumpCompletes : Obligations.DumpCompletes := by
  intro records s h hca hcd
  have ⟨hc, hq, herr⟩ := h
  obtain ⟨t, hrun, ht, htail⟩ := dumpLoop_calm (s := started (.dump 0 records) s) 0 [] records hc hq
  have hkeeps : t.resets = [] ∧ t.ioerr = false ∧ t.clrd = true ∧ t.clra = true := by
    rw [ht]; exact ⟨hc.1, herr, hcd, hca⟩
  obtain ⟨hr, herr', hcd', hca'⟩ := hkeeps
  refine ⟨_, exec_done (i := .dump 0 records) (admission_ready rfl h (fun _ => hca) fun _ => hcd) hrun hr herr' hcd' hca',
    ?_, ?_⟩
  · conv_lhs => rw [ht]
    rfl
  · unfold dumpTail at htail
    cases hlast : records.getLast? with
    | none => simp only [hlast] at htail; exact htail
    | some r => simp only [hlast, Nat.zero_add] at htail; exact htail

/-! ## BULK_READ -/

theorem exists_getLast?_of_length_eq {α β : Type} {xs : List α} {ys : List β} {x : α} (hx : xs.getLast? = some x)
    (hlen : ys.length = xs.length) : ∃ y, ys.getLast? = some y := by
  rw [List.getLast?_eq_getElem?] at hx ⊢
  obtain ⟨hlt, -⟩ := List.getElem?_eq_some_iff.1 hx
  exact ⟨_, List.getElem?_eq_getElem (by omega)⟩

/-- Settles O22: BULK_READ's loop over the window under a calm I/O layer; the last address is the upper margin. -/
theorem bulkReadCompletes : Obligations.BulkReadCompletes := by
  intro l u s h hca hlu
  have ⟨hc, hq, herr⟩ := h
  intro addrs data
  have haddrs : addrs.getLast? = some (upperMargin u) := getLast?_windowAddrs hlu
  have hlen : addrs.length = windowSize l u := length_windowAddrs l u
  obtain ⟨d, hd⟩ : ∃ d, data.getLast? = some d :=
    exists_getLast?_of_length_eq haddrs (length_readValues ..)
  obtain ⟨t, hrun, ht, htail⟩ :=
    bulkLoop_calm l u (windowSize l u) 0 [] (s := started (.bulkRead 0 l 0 u) s) hc hq
  rw [← List.range_eq_range'] at hrun ht htail
  change readTail 0 addrs data _ t at htail
  simp only [readTail, haddrs, hd, hlen, Nat.zero_add] at htail
  obtain ⟨hsa, hoa, hqv, hacc, hbit, hidx⟩ := htail
  rw [hsa, hoa, hqv, hacc, hbit, hidx] at ht
  generalize t.micro = m at ht
  subst ht
  have hlegal : (Instr.bulkRead 0 l 0 u).legal = true := (legal_iff _).2 ⟨⟨rfl, rfl⟩, hlu⟩
  rw [hlen]
  exact ⟨d, hd, exec_done (i := .bulkRead 0 l 0 u) (admission_ready hlegal h (fun _ => hca) nofun) hrun hc.1 herr rfl hca⟩

/-! ## VERIFY -/

theorem legal_verify {bc rt : Byte} {entries : List Entry} (hrsv : ∀ e ∈ entries, e.rsv = 0)
    (hlen : entries.length ≤ 65536) (hnodup : (entries.map Entry.addr).Nodup) :
    (Instr.verify 0 bc rt 0 entries).legal = true :=
  (legal_iff _).2 ⟨⟨rfl, rfl, hrsv⟩, hlen, hnodup⟩

/-- The last line is the one of the last entry and the last word read. -/
theorem getLast?_linesOf (bc rt : Byte) {entries : List Entry} {data : List Data} {e : Entry} {d : Data}
    (he : entries.getLast? = some e) (hd : data.getLast? = some d) (hlen : data.length = entries.length) :
    (linesOf bc rt entries data).getLast? = some (lineOf bc rt e d) := by
  rw [List.getLast?_eq_getElem?] at he hd ⊢
  rw [hlen] at hd
  rw [linesOf, List.length_zipWith, hlen, Nat.min_self, List.getElem?_zipWith, he, hd]

/-- What VERIFY's reads and checksums leave, told by its last line (44_batch.md R163). -/
theorem verifyTail_of_parts {bc rt : Byte} {entries : List Entry} {data : List Data} {s t : State}
    (hlen : data.length = entries.length) (hread : readTail 0 (entries.map Entry.addr) data s t)
    (hck : ckaccTail (linesOf bc rt entries data) s t) :
    match (linesOf bc rt entries data).getLast? with
    | none =>
      t.sa = s.sa ∧ t.oa = s.oa ∧ t.q = s.q ∧ t.acc = s.acc ∧ t.ckacc = s.ckacc ∧ t.bitcnt = s.bitcnt ∧
        t.idx = s.idx
    | some l =>
      t.sa = bitsOf l.addr ∧ t.oa = bitsOf l.addr ∧ t.q = shiftOut^[23] (bitsOf l.data) ∧
        t.acc = .known l.data ∧ t.ckacc = .known (0 - l.computed) ∧ t.bitcnt = .known 23 ∧
        t.idx = .known (BitVec.ofNat 17 (entries.length - 1)) := by
  cases he : entries.getLast? with
  | none =>
    obtain rfl := List.getLast?_eq_none_iff.1 he
    obtain ⟨hsa, hoa, hq, hacc, hbit, hidx⟩ := hread
    exact ⟨hsa, hoa, hq, hacc, hck, hbit, hidx⟩
  | some e =>
    obtain ⟨d, hd⟩ := exists_getLast?_of_length_eq he hlen
    have hline := getLast?_linesOf bc rt he hd hlen
    simp only [readTail, List.getLast?_map, he, hd, Option.map_some, List.length_map, Nat.zero_add] at hread
    simp only [ckaccTail, hline] at hck
    simp only [hline]
    obtain ⟨hsa, hoa, hq, hacc, hbit, hidx⟩ := hread
    exact ⟨hsa, hoa, hq, hacc, hck, hbit, hidx⟩

/-- The blink's drives and waits (44_batch.md R164). -/
theorem blink_trace :
    drivesOf blinkOps =
        [(.out .notify, true), (.out .notify, false), (.out .notify, true), (.out .notify, false)] ∧
      waitTime blinkOps = 3 * Config.tBlink := by
  refine ⟨rfl, ?_⟩
  simp only [waitTime, blinkOps, waitTimeBy, Config.Parameters.minTime, Config.tBlink]
  omega

/-- A VERIFY whose reads complete and pass and whose blink's drive number `j` is never answered hangs inside it. -/
theorem verify_hangs_in_blink {bc rt : Byte} {entries : List Entry} {s : State} {j : Nat} {rest : List IoOutcome}
    (ha : admission (.verify 0 bc rt 0 entries) s = none) (hr : s.resets = []) (hi : s.ioRest = some .ok) (hq : Quiet s)
    (hj : j < 4) (hio : s.io = List.replicate (124 * entries.length + j) .ok ++ .never :: rest)
    (hpass : (linesOf bc rt entries (readValues s.mem s.draws (entries.map Entry.addr))).all linePass = true) :
    ∃ u, exec (.verify 0 bc rt 0 entries) s = .next u ∧ u.phase = .hung ∧ u.out = s.out ∧ u.io = rest ∧
      u.pins = { Pins.released with notify := if j % 2 = 1 then .asserted else .released } := by
  obtain ⟨t, hloop, htr, htq, htio, htout⟩ := verifyLoop_prefix bc rt 0 [] entries
    (List.replicate j .ok ++ .never :: rest) (s := started (.verify 0 bc rt 0 entries) s) hr hi hq
    (by rw [← List.append_assoc, List.replicate_append_replicate]; exact hio)
  obtain ⟨v, hblink, hvio, hvout, hvpins⟩ := blink_hang j rest hj htr htq htio
  have hwork : workOf (.verify 0 bc rt 0 entries) (started (.verify 0 bc rt 0 entries) s) = .hung v := by
    refine hloop.trans ?_
    rw [verifyEnd, List.nil_append, started_mem, started_draws, if_pos hpass, hblink]
    rfl
  refine ⟨{ v with phase := .hung }, ?_, rfl, hvout.trans htout, hvio, hvpins⟩
  rw [exec_eq, perform_admitted ha]
  exact congrArg (conclude _) hwork

/-- Settles O21: VERIFY's loop under a calm I/O layer, and its blink stopped at drive `j`. -/
theorem verifyCompletes : Obligations.VerifyCompletes := by
  intro bc rt entries s h hca hrsv hlen hnodup
  have ⟨hc, hq, herr⟩ := h
  have ha : admission (.verify 0 bc rt 0 entries) s = none :=
    admission_ready (legal_verify hrsv hlen hnodup) h (fun _ => hca) nofun
  intro data lines allpass
  have hdata : data.length = entries.length := by
    rw [show data = readValues s.mem s.draws (entries.map Entry.addr) from rfl, length_readValues, List.length_map]
  refine ⟨?_, blink_trace, fun j rest hpass hj =>
    verify_hangs_in_blink (s := { s with io := _ }) ha hc.1 hc.2.2 hq hj rfl hpass⟩
  obtain ⟨t, hrun, ht, hread, hck⟩ :=
    verifyLoop_calm bc rt 0 [] entries (s := started (.verify 0 bc rt 0 entries) s) hc hq
  have hkeeps : t.resets = [] ∧ t.ioerr = false ∧ t.clrd = s.clrd ∧ t.clra = true := by
    rw [ht]; exact ⟨hc.1, herr, rfl, hca⟩
  obtain ⟨hr, herr', hcd', hca'⟩ := hkeeps
  refine ⟨_, exec_done (i := .verify 0 bc rt 0 entries) ha hrun hr herr' hcd' hca', ?_,
    verifyTail_of_parts hdata hread hck⟩
  have htaken : (if allpass then 4 else 0) = blinkTaken lines := (Bool.cond_eq_ite ..).symm
  rw [htaken]
  conv_lhs => rw [ht]
  rfl

/-! ## Every command -/

/-- Settles O25: with no reset scheduled and every operation answered, two of the three endings are left, and each is a
whole response. -/
theorem everyCommandAnswers : Obligations.EveryCommandAnswers := by
  intro i s hr hlive
  obtain ⟨t, h, hend⟩ := exec_ending i s
  have hkept (u : State) (hu : Reaches i.opcode (started i s) u) : u.phase = s.phase ∧ u.out = s.out :=
    ⟨hu.phase.trans (started_phase i s), hu.out.trans (started_out i s)⟩
  cases hend with
  | refused st rs => exact ⟨_, st, [], h, rfl, rfl, respondedTo_out i st [] rs s⟩
  | finished p u rs _ hw hu =>
    obtain ⟨hphase, hout⟩ := hkept u hu
    exact ⟨_, .ok, p, h, hphase, rfl, hout ▸ respondedTo_out i .ok p rs u⟩
  | failed p u rs _ hw hu =>
    obtain ⟨hphase, hout⟩ := hkept u hu
    exact ⟨_, .transportError, p, h, hphase, rfl, hout ▸ respondedTo_out i .transportError p rs (transportFailure u)⟩
  | hung u _ hw hu hn => exact absurd hlive hn
  | cutRefused m rs hne => exact absurd hr hne
  | cut u m rs sent _ hu hne => exact absurd hr hne
  | cutFailed u m rs sent _ hu hf hne => exact absurd hr hne

end Sys2Proof.Machine
end

section
/-! What each command that ended OK leaves, whatever the I/O layer did (41_shift_chain.md R110, 43_memory_driver.md R140
to R146, 44_batch.md R161 to R170): the effect of its work, seen through its response. -/

namespace Sys2Proof.Machine

/-! ## The single commands -/

theorem clrAddr_effect {rsv : BitVec 24} {s t : State} (hq : Quiet s) (h : exec (.clrAddr rsv) s = .next t)
    (he : EndsOk 0x01 [] s t) :
    t = { s with
          opc := .known 0x01, sa := allZero 16, oa := allBot 16, clra := true
          out := t.out, micro := 0, resets := t.resets, io := t.io, draws := t.draws } := by
  obtain ⟨u, rs, -, hw, rfl⟩ := endsOk_work h he (.inr (.inl rfl))
  obtain ⟨bs, v, hclear, hv⟩ := Run.bind_eq_done.1 hw
  cases hv
  rw [clear_addr_effect (s := started (.clrAddr rsv) s) hq hclear]
  rfl

theorem clrData_effect {rsv : BitVec 24} {s t : State} (hq : Quiet s) (h : exec (.clrData rsv) s = .next t)
    (he : EndsOk 0x02 [] s t) :
    t = { s with
          opc := .known 0x02, sd := allZero 24, od := allBot 24, clrd := true
          out := t.out, micro := 0, resets := t.resets, io := t.io, draws := t.draws } := by
  obtain ⟨u, rs, -, hw, rfl⟩ := endsOk_work h he (.inr (.inr rfl))
  obtain ⟨bs, v, hclear, hv⟩ := Run.bind_eq_done.1 hw
  cases hv
  rw [clear_data_effect (s := started (.clrData rsv) s) hq hclear]
  rfl

/-- Settles O26: the clear's one pulse, then the flag. -/
theorem clearEffect : Obligations.ClearEffect := fun _ _ _ hq => ⟨clrAddr_effect hq, clrData_effect hq⟩

/-- WRITE's effect with the memory it leaves (43_memory_driver.md R144). -/
theorem write_effect {rsv₀ : Byte} {a : Addr} {rsv₁ : Byte} {d : Data} {s t : State} (hq : Quiet s)
    (h : exec (.write rsv₀ a rsv₁ d) s = .next t) (he : EndsOk 0x03 [] s t) :
    t = { s with
          opc := .known 0x03, opa := .known a, opd := .known d, mem := Memory.set s.mem a.toNat d
          sa := bitsOf a, oa := bitsOf a, sd := bitsOf d, od := bitsOf d, bitcnt := t.bitcnt
          sched := t.sched, out := t.out, micro := 0, resets := t.resets, io := t.io, draws := t.draws } := by
  obtain ⟨u, rs, -, hw, rfl⟩ := endsOk_work h he (.inl rfl)
  obtain ⟨bs, v, hseq, hv⟩ := Run.bind_eq_done.1 hw
  cases hv
  rw [writeSeq_effect (s := started (.write rsv₀ a rsv₁ d) s) hq hseq]
  rfl

theorem write_effect_mem {rsv₀ : Byte} {a : Addr} {rsv₁ : Byte} {d : Data} {s t : State} (hq : Quiet s)
    (h : exec (.write rsv₀ a rsv₁ d) s = .next t) (he : EndsOk 0x03 [] s t) : t.mem = Memory.set s.mem a.toNat d := by
  rw [write_effect hq h he]

/-- Settles O27: the effect of `WriteSeq`, and reading after one word changed. -/
theorem writeEffect : Obligations.WriteEffect := by
  intro rsv₀ a rsv₁ d s t hq h he
  have hmem := write_effect_mem hq h he
  refine ⟨?_, fun b hb => ?_, ?_⟩
  · rw [hmem]; exact Memory.read_set_same ..
  · rw [hmem]; exact Memory.read_set_other _ _ hb
  · rw [hmem]; exact write_effect hq h he

/-- Settles O28: the effect of `ReadSeq`. -/
theorem readEffect : Obligations.ReadEffect := by
  intro rsv a w s t hq h he
  obtain ⟨u, rs, -, hw, rfl⟩ := endsOk_work h he (.inl rfl)
  obtain ⟨d, v, hseq, hv⟩ := Run.bind_eq_done.1 hw
  cases hv
  obtain ⟨hread, hstate⟩ := readSeq_effect (s := started (.read rsv a) s) hq hseq
  refine ⟨fun d' hd' => by rw [hread d' hd'], d, rfl, ?_⟩
  rw [hstate]
  rfl

/-- Settles O33: WRITE left the word known at that address, so READ answers it. -/
theorem writeThenRead : Obligations.WriteThenRead := by
  intro a d w s t u v hqs hw hew hmem hqu hr her
  obtain ⟨hword, -, -⟩ := writeEffect 0 a 0 d s t hqs hw hew
  obtain ⟨hread, -⟩ := readEffect 0 a w u v hqu hr her
  exact hread d (by rw [hmem, hword])

/-- Settles O34: WRITE's effect does not speak of the schedule. -/
theorem interleavingDoesNotMatter : Obligations.InterleavingDoesNotMatter := by
  intro a d s t₁ t₂ σ₁ σ₂ hq h₁ he₁ h₂ he₂
  rw [write_effect (s := { s with sched := σ₁ }) hq h₁ he₁, write_effect (s := { s with sched := σ₂ }) hq h₂ he₂]
  exact ⟨rfl, rfl, rfl, rfl, rfl, rfl, rfl⟩

/-! ## The commands with no pin activity -/

/-- A command whose work only computes leaves its start state with that computation, or is refused and leaves its
state, if no reset cuts it off. -/
theorem pure_ending {i : Instr} {s t u : State} {p : List Word} (hwork : workOf i (started i s) = .done p u)
    (h : exec i s = .next t) (hp : t.phase ≠ .resetting) :
    (∃ st rs, t = respondedTo i st [] rs s) ∨ ∃ rs, t = respondedTo i 0 p rs u := by
  cases ending_of_exec h with
  | refused st rs => exact .inl ⟨_, rs, rfl⟩
  | finished p' u' rs _ hw =>
    cases hwork.symm.trans hw
    exact .inr ⟨rs, rfl⟩
  | failed p' u' rs _ hw => cases hwork.symm.trans hw
  | hung u' _ hw => cases hwork.symm.trans hw
  | cutRefused => exact absurd rfl hp
  | cut => exact absurd rfl hp
  | cutFailed => exact absurd rfl hp

/-- Settles O29: their work is a computation on `CKACC` or on nothing. -/
theorem pureCommandFrame : Obligations.PureCommandFrame := by
  refine fun s t _ hp => ⟨fun rsv bytes pad h => ?_, fun rsv a h => ?_⟩
  · rcases pure_ending rfl h hp with ⟨st, rs, rfl⟩ | ⟨rs, rfl⟩ <;> rfl
  · rcases h with h | h
    · rcases pure_ending rfl h hp with ⟨st, rs, rfl⟩ | ⟨rs, rfl⟩ <;> rfl
    · rcases pure_ending rfl h hp with ⟨st, rs, rfl⟩ | ⟨rs, rfl⟩ <;> rfl

/-! ## The batch commands -/

/-- After the records a word is that of the last record of its address (44_batch.md R161). -/
theorem read_foldl_set (records : List Record) (m : Memory) (b : Nat) :
    Memory.read (records.foldl (fun m r => Memory.set m r.addr.toNat r.data) m) b =
      match (records.filter fun r => r.addr.toNat == b).getLast? with
      | some r => .known r.data
      | none => Memory.read m b := by
  induction records using List.reverseRecOn with
  | nil => rfl
  | append_singleton records r ih =>
    rw [List.foldl_append, List.foldl_cons, List.foldl_nil, Memory.read_set, List.filter_append, ih]
    by_cases hb : b = r.addr.toNat
    · rw [if_pos hb, List.filter_cons_of_pos (by simp [hb])]
      simp
    · rw [if_neg hb, List.filter_cons_of_neg (by simpa using Ne.symm hb)]
      simp

/-- Settles O30: DUMP's loop that ran to its end. -/
theorem dumpEffect : Obligations.DumpEffect := by
  intro rsv records payload s t hq h he
  obtain ⟨u, rs, -, hw, rfl⟩ := endsOk_work h he (.inl rfl)
  obtain ⟨hpayload, hstate, -, -⟩ := dumpLoop_effect (s := started (.dump rsv records) s) hq hw
  refine ⟨hpayload, fun b => ?_, ?_⟩
  · have hmem : u.mem = records.foldl (fun m r => Memory.set m r.addr.toNat r.data) s.mem := by rw [hstate]; rfl
    show Memory.read u.mem b = _
    rw [hmem]
    exact read_foldl_set records s.mem b
  · rw [hstate]
    rfl

/-- Settles O31: VERIFY's loop that ran to its end. -/
theorem verifyEffect : Obligations.VerifyEffect := by
  intro rsv₀ bc rt rsv₁ entries payload s t hq h he
  obtain ⟨u, rs, -, hw, rfl⟩ := endsOk_work h he (.inl rfl)
  obtain ⟨hlines, hstate, -⟩ := verifyLoop_effect (s := started (.verify rsv₀ bc rt rsv₁ entries) s) hq hw
  refine ⟨hlines, ?_⟩
  rw [hstate]
  rfl

/-- Settles O32: BULK_READ's loop over the window that ran to its end. -/
theorem bulkReadEffect : Obligations.BulkReadEffect := by
  intro rsv₀ l rsv₁ u payload s t hq h he
  obtain ⟨v, rs, -, hw, rfl⟩ := endsOk_work h he (.inl rfl)
  obtain ⟨hdata, hstate, -⟩ := bulkLoop_effect (s := started (.bulkRead rsv₀ l rsv₁ u) s) hq hw
  rw [← List.range_eq_range'] at hdata
  rw [length_windowAddrs]
  refine ⟨hdata, ?_⟩
  rw [hstate]
  rfl

end Sys2Proof.Machine
end

section
/-! What a command does to the SRAM and to the flags, however it ends (10_state.md R25, 43_memory_driver.md R148,
60_exceptions.md R203, 70_reset_and_hazards.md R230, R232). -/

namespace Sys2Proof.Machine

/-! ## The SRAM -/

theorem writesSram_iff (i : Instr) : writesSram i.opcode = true ↔ opcodeNumber i = 0x03 ∨ opcodeNumber i = 0x05 := by
  cases i <;> simp [Instr.opcode, writesSram, opcodeNumber]

/-- A reset inside a command makes the SRAM unknown exactly where the command writes it (70_reset_and_hazards.md
R230). -/
theorem resetHavocsSram_opcode (i : Instr) : resetHavocsSram (.known i.opcode.byte) = writesSram i.opcode := by
  cases i <;> rfl

theorem blockReset_mem_of_not_writes {i : Instr} (hi : writesSram i.opcode = false) (s : State) :
    (blockReset (.known i.opcode.byte) s).mem = s.mem := by
  rw [blockReset_mem, resetHavocsSram_opcode, hi]
  rfl

/-- Settles O37: the work of the other commands keeps the memory, a reset too, and a transport failure makes it
unknown. -/
theorem onlyWritesChangeMemory : Obligations.OnlyWritesChangeMemory := by
  intro i s t h3 h5 h
  have hi : writesSram i.opcode = false := by
    rw [← Bool.not_eq_true, writesSram_iff]
    exact not_or.2 ⟨h3, h5⟩
  have hmem (u : State) (hu : Reaches i.opcode (started i s) u) : u.mem = s.mem := (hu.mem hi).trans (started_mem i s)
  have hkept (m : Memory) (hm : m = s.mem) : (IoNoFail s → m = s.mem) ∧ (m = s.mem ∨ m = Memory.unknown) :=
    ⟨fun _ => hm, .inl hm⟩
  have hlost (m : Memory) (hm : m = Memory.unknown) (hf : ¬ IoNoFail s) :
      (IoNoFail s → m = s.mem) ∧ (m = s.mem ∨ m = Memory.unknown) := ⟨fun hn => absurd hn hf, .inr hm⟩
  cases ending_of_exec h with
  | refused st rs => exact hkept _ rfl
  | finished p u rs _ hw hu => exact hkept _ (hmem u hu)
  | failed p u rs _ hw hu hf => exact hlost _ rfl hf
  | hung u _ hw hu => exact hkept _ (hmem u hu)
  | cutRefused m rs => exact hkept _ (blockReset_mem_of_not_writes hi _)
  | cut u m rs sent _ hu => exact hkept _ ((blockReset_mem_of_not_writes hi _).trans (hmem u hu))
  | cutFailed u m rs sent _ hu hf => exact hlost _ (blockReset_mem_of_not_writes hi _) hf

/-! ## A reset inside a command -/

/-- A command of an idle block that ends in reset was cut off by one. -/
theorem blockReset_of_exec {i : Instr} {s t : State} (hidle : s.phase = .idle) (h : exec i s = .next t)
    (hp : t.phase = .resetting) : ∃ u, t = blockReset (.known i.opcode.byte) u := by
  have hphase (u : State) (hu : Reaches i.opcode (started i s) u) (hr : u.phase = .resetting) : False := by
    cases (hu.phase.trans ((started_phase i s).trans hidle)).symm.trans hr
  cases ending_of_exec h with
  | refused st rs => cases hidle.symm.trans hp
  | finished p u rs _ hw hu => exact (hphase u hu hp).elim
  | failed p u rs _ hw hu => exact (hphase u hu hp).elim
  | hung u => cases hp
  | cutRefused => exact ⟨_, rfl⟩
  | cut => exact ⟨_, rfl⟩
  | cutFailed => exact ⟨_, rfl⟩

/-- Settles O44: such a command left the state of a block reset. -/
theorem resetCutsCommand : Obligations.ResetCutsCommand := by
  intro i s t hidle h hp
  obtain ⟨u, rfl⟩ := blockReset_of_exec hidle h hp
  refine ⟨rfl, rfl, rfl, rfl, rfl, ⟨rfl, rfl, rfl, rfl, rfl, rfl, rfl, rfl, rfl, rfl⟩, ⟨rfl, rfl, rfl, rfl, rfl⟩,
    fun hw => ?_, fun h3 h5 => (onlyWritesChangeMemory i s _ h3 h5 h).1⟩
  rw [blockReset_mem, resetHavocsSram_opcode, (writesSram_iff i).2 hw]
  rfl

/-! ## A transport failure -/

/-- Settles O39: the one ending that sets `IOERR` is the whole response to a transport failure. -/
theorem failureHavocs : Obligations.FailureHavocs := by
  intro i s t hs h ht
  obtain ⟨p, u, rs, hw, hu, rfl⟩ := failed_of_ioerr h hs ht
  refine ⟨rfl, rfl, ⟨rfl, rfl, rfl, rfl, rfl, rfl, rfl⟩, rfl, hu.phase.trans (started_phase i s), p, ?_⟩
  rw [← opcode_byte, ← started_out i s, ← hu.out]
  rfl

/-! ## The flags -/

/-- Everything one step can do to the flags (10_state.md R25). -/
inductive FlagEvent (s t : State) : Prop where
  /-- nothing -/
  | kept (ha : t.clra = s.clra) (hd : t.clrd = s.clrd) (he : t.ioerr = s.ioerr)
  /-- a reset clears them -/
  | reset (hp : t.phase = .resetting) (ha : t.clra = false) (hd : t.clrd = false) (he : t.ioerr = false)
  /-- a CLR_ADDR that ended OK sets `CLRA` -/
  | addrCleared (rsv : BitVec 24) (u : State) (hr : receive s = .command (.clrAddr rsv) u) (hok : EndsOk 0x01 [] u t)
    (ha : t.clra = true) (hd : t.clrd = s.clrd) (he : t.ioerr = s.ioerr)
  /-- a CLR_DATA that ended OK sets `CLRD` -/
  | dataCleared (rsv : BitVec 24) (u : State) (hr : receive s = .command (.clrData rsv) u) (hok : EndsOk 0x02 [] u t)
    (ha : t.clra = s.clra) (hd : t.clrd = true) (he : t.ioerr = s.ioerr)
  /-- an admitted command that a transport failure ended sets `IOERR` and clears the others -/
  | failed (i : Instr) (u : State) (p : List Word) (hr : receive s = .command i u) (hadm : admission i u = none)
    (hout : t.out = u.out ++ headerWord (BitVec.ofNat 8 (opcodeNumber i)) 0x04 true false false :: p)
    (hhavoc : Havocked t) (ha : t.clra = false) (hd : t.clrd = false) (hs : s.ioerr = false) (he : t.ioerr = true)

theorem flagEvent_blockReset (s : State) (found : Val Byte) (u : State) : FlagEvent s (blockReset found u) :=
  .reset rfl rfl rfl rfl

/-- The command's whole answer is OK, in the state that it leaves. -/
theorem endsOk_respondedTo {i : Instr} {s u : State} (p : List Word) (rs : List Nat) (hout : u.out = s.out) :
    EndsOk i.opcode.byte p s (respondedTo i 0 p rs u) := by
  have h := respondedTo_out i .ok p rs u
  rw [← opcode_byte, hout] at h
  exact h

/-- The command finished: only the clears touch a flag, and each sets its own. -/
theorem flagEvent_finished {i : Instr} {s u v : State} {p : List Word} (rs : List Nat)
    (hr : receive s = .command i u) (hflags : u.clra = s.clra ∧ u.clrd = s.clrd ∧ u.ioerr = s.ioerr)
    (hw : workOf i (started i u) = .done p v) (hv : Reaches i.opcode (started i u) v) :
    FlagEvent s (respondedTo i 0 p rs v) := by
  obtain ⟨hca, hcd, herr⟩ := hflags
  have hout : v.out = u.out := hv.out.trans (started_out i u)
  have he : v.ioerr = s.ioerr := hv.ioerr.trans ((started_ioerr i u).trans herr)
  have ha (hi : i.opcode ≠ .clrAddr) : v.clra = s.clra := (hv.clra hi).trans ((started_clra i u).trans hca)
  have hd (hi : i.opcode ≠ .clrData) : v.clrd = s.clrd := (hv.clrd hi).trans ((started_clrd i u).trans hcd)
  have hok := endsOk_respondedTo (i := i) p rs hout
  by_cases hia : i.opcode = .clrAddr
  · cases i <;> cases hia
    obtain ⟨bs, w, -, hset⟩ := Run.bind_eq_done.1 hw
    cases hset
    exact .addrCleared _ u hr hok rfl (hd nofun) he
  · by_cases hid : i.opcode = .clrData
    · cases i <;> cases hid
      obtain ⟨bs, w, -, hset⟩ := Run.bind_eq_done.1 hw
      cases hset
      exact .dataCleared _ u hr hok (ha nofun) rfl he
    · exact .kept (ha hia) (hd hid) he

/-- A clear that hangs has made nothing but micro-operations, which touch no flag. -/
theorem clear_hung_flags {c : Chain} {s v : State} {setFlag : State → State} {p : List Word}
    (h : ((runOps (clearOps c) s).bind [] fun _ u => .done p (setFlag u) : Run (List Word) (List Word)) = .hung v) :
    v.clra = s.clra ∧ v.clrd = s.clrd := by
  cases hr : runOps (clearOps c) s with
  | done a u => rw [hr] at h; cases h
  | hung u =>
    rw [hr] at h
    cases h
    have hseq : sequencerPart v = sequencerPart s := runOps_sequencerPart (ops := clearOps c) (by rw [hr]; rfl)
    exact ⟨(congrArg State.clra hseq :), (congrArg State.clrd hseq :)⟩
  | failed e u => rw [hr] at h; cases h
  | cut u => rw [hr] at h; cases h
  | fault f => rw [hr] at h; cases h

theorem workOf_hung_flags {i : Instr} {s v : State} (hw : workOf i s = .hung v) (hv : Reaches i.opcode s v) :
    v.clra = s.clra ∧ v.clrd = s.clrd := by
  cases i
  case clrAddr rsv => exact clear_hung_flags hw
  case clrData rsv => exact clear_hung_flags hw
  all_goals exact ⟨hv.clra nofun, hv.clrd nofun⟩

theorem flagEvent_exec {i : Instr} {s u t : State} (hr : receive s = .command i u)
    (hflags : u.clra = s.clra ∧ u.clrd = s.clrd ∧ u.ioerr = s.ioerr) (h : exec i u = .next t) : FlagEvent s t := by
  have ⟨hca, hcd, herr⟩ := hflags
  cases ending_of_exec h with
  | refused st rs => exact .kept hca hcd herr
  | finished p v rs _ hw hv => exact flagEvent_finished rs hr hflags hw hv
  | failed p v rs ha hw hv =>
    refine .failed i u p hr ha ?_ ⟨rfl, rfl, rfl, rfl, rfl, rfl, rfl⟩ rfl rfl (herr.symm.trans (admission_none.1 ha).2.1)
      rfl
    rw [← opcode_byte, ← started_out i u, ← hv.out]
    rfl
  | hung v _ hw hv =>
    obtain ⟨hva, hvd⟩ := workOf_hung_flags hw hv
    exact .kept (hva.trans ((started_clra i u).trans hca)) (hvd.trans ((started_clrd i u).trans hcd))
      (hv.ioerr.trans ((started_ioerr i u).trans herr))
  | cutRefused => exact flagEvent_blockReset ..
  | cut => exact flagEvent_blockReset ..
  | cutFailed => exact flagEvent_blockReset ..

theorem flagEvent_acceptAll (s : State) : FlagEvent s (acceptAll s) := by
  rcases acceptAll_cases s with ⟨-, -, e⟩ | ⟨-, -, e⟩ | ⟨-, e⟩
  · exact e ▸ flagEvent_blockReset ..
  · exact e ▸ .kept rfl rfl rfl
  · exact e ▸ .kept rfl rfl rfl

theorem flagEvent_illegalCommand {s u t : State} {opc : Byte}
    (hflags : u.clra = s.clra ∧ u.clrd = s.clrd ∧ u.ioerr = s.ioerr) (h : illegalCommand opc u = .next t) :
    FlagEvent s t := by
  obtain ⟨hca, hcd, herr⟩ := hflags
  rcases respond_cases opc .illegalCommand [] u with ⟨rs, -, e⟩ | ⟨k, m, rs, -, -, e⟩
  · cases e.symm.trans h; exact .kept hca hcd herr
  · cases e.symm.trans h; exact flagEvent_blockReset ..

theorem flagEvent_waiting {s t : State} (hw : Waiting s) (h : step s = .next t) : FlagEvent s t := by
  rw [step_waiting hw] at h
  rcases receive_cases s with ⟨i, n, -, -, e⟩ | ⟨opc, -, -, e⟩ | ⟨-, -, e⟩ | ⟨d, -, e⟩
  all_goals simp only [e] at h
  · exact flagEvent_exec e ⟨rfl, rfl, rfl⟩ h
  · exact flagEvent_illegalCommand (u := consumeFrame _ 1 s) ⟨rfl, rfl, rfl⟩ h
  · cases h; exact flagEvent_acceptAll s
  · cases h; exact flagEvent_blockReset ..

theorem flagEvent_waitForHost (found : Val Byte) (s : State) : FlagEvent s (waitForHost found s) := by
  rcases waitForHost_cases found s with ⟨-, e⟩ | ⟨-, e⟩
  · exact e ▸ flagEvent_blockReset ..
  · exact e ▸ .kept rfl rfl rfl

theorem flagEvent_bindPins {s t : State} (h : bindPins s = .next t) : FlagEvent s t := by
  rcases bindPins_cases s with ⟨bs, u, -, e, -, -, -, hu⟩ | ⟨u, e, hu, -⟩ | ⟨u, e, -, -⟩
  · cases e.symm.trans h; exact .kept (hu.clra nofun) (hu.clrd nofun) hu.ioerr
  · cases e.symm.trans h; exact .kept (hu.clra nofun) (hu.clrd nofun) hu.ioerr
  · cases e.symm.trans h; exact flagEvent_blockReset ..

theorem flagEvent_step {s t : State} (h : step s = .next t) : FlagEvent s t := by
  cases hphase : s.phase with
  | idle => exact flagEvent_waiting (.inl hphase) h
  | receiving => exact flagEvent_waiting (.inr hphase) h
  | hung => cases (step_hung hphase).symm.trans h; exact flagEvent_waitForHost ..
  | resetting => exact flagEvent_bindPins ((step_resetting hphase).symm.trans h)
  | held => cases (step_held hphase).symm.trans h; exact flagEvent_waitForHost ..

/-- Settles O38: each clause allows the events that bring about its change. -/
theorem flagsChange : Obligations.FlagsChange := by
  intro s t h
  cases flagEvent_step h with
  | kept ha hd he => simp_all
  | reset hp ha hd he => simp_all
  | addrCleared rsv u hr hok ha hd he =>
    refine ⟨fun _ _ => ⟨rsv, u, hr, hok⟩, ?_, ?_, ?_, ?_, ?_⟩
    all_goals simp_all
  | dataCleared rsv u hr hok ha hd he =>
    refine ⟨?_, fun _ _ => ⟨rsv, u, hr, hok⟩, ?_, ?_, ?_, ?_⟩
    all_goals simp_all
  | failed i u p hr hadm hout hhavoc ha hd hs he =>
    refine ⟨?_, ?_, fun _ _ => .inr ⟨hs, he⟩, fun _ _ => .inr ⟨hs, he⟩, ?_, fun _ _ => ⟨hhavoc, i, u, p, hr, hadm, hout⟩⟩
    all_goals simp_all

end Sys2Proof.Machine
end

section
/-! The first operation that the I/O layer does not complete (60_exceptions.md R203, R204), and the reset and its bind
(10_state.md R38, 40_pin.md R100, 70_reset_and_hazards.md R230). -/

namespace Sys2Proof.Machine

/-! ## The first operation not completed -/

/-- How a piece stops, in state `v`, at an operation to which the I/O layer's answer is `o`. -/
def StopsAt {ε α : Type} (o : IoOutcome) (e : ε) (r : Run ε α) (v : State) : Prop :=
  (o = .fail ∧ r = .failed e v) ∨ (o = .never ∧ r = .hung v)

theorem StopsAt.bind {ε ε' α β : Type} {o : IoOutcome} {e : ε} {e' : ε'} {r : Run ε α} {v : State}
    {k : α → State → Run ε' β} (h : StopsAt o e r v) : StopsAt o e' (r.bind e' k) v := by
  rcases h with ⟨ho, rfl⟩ | ⟨ho, rfl⟩
  · exact .inl ⟨ho, rfl⟩
  · exact .inr ⟨ho, rfl⟩

theorem StopsAt.runState {ε α : Type} {o : IoOutcome} {e : ε} {r : Run ε α} {v : State} (h : StopsAt o e r v) :
    runState r = some v := by
  rcases h with ⟨-, rfl⟩ | ⟨-, rfl⟩ <;> rfl

/-- A sequence stops where its first operation does, after the operations it completed. -/
theorem StopsAt.append {before post : List MicroOp} {op : MicroOp} {s u v : State} {bs : List Bool} {o : IoOutcome}
    (hbefore : runOps before s = .done bs u) (h : StopsAt o () (stepOp op u) v) :
    StopsAt o () (runOps (before ++ op :: post) s) v := by
  rw [runOps_append, hbefore, Run.bind_done, runOps_cons]
  exact h.bind.bind

theorem runOps_stopsAt {ops : List MicroOp} {s : State} {k : Nat} {o : IoOutcome} {rest : List IoOutcome}
    (hd : ∀ op ∈ ops, directed op = true) (hr : s.resets = []) (hk : k < ioCount ops) (ho : o ≠ .ok)
    (hio : s.io = List.replicate k .ok ++ o :: rest) :
    ∃ v, StopsAt o () (runOps ops s) v ∧ v.io = rest ∧ v.resets = [] ∧ v.out = s.out := by
  obtain ⟨before, op, post, bs, u, rfl, -, -, hbefore, -, -, v, hvio, hvr, hstop, -⟩ := runOps_stops hd hr hk ho hio
  have hrun : StopsAt o () (runOps (before ++ op :: post) s) v := .append hbefore hstop
  exact ⟨v, hrun, hvio, hvr, (congrArg State.out (runOps_sequencerPart hrun.runState) :)⟩

/-- The commands of one sequence, of which operation `k` is one. -/
theorem single_sequence {i : Instr} {k : Nat} {s : State} (herr : s.ioerr = false)
    (hi : (i = .clrAddr 0 ∨ i = .clrData 0) ∧ k < 2 ∨ (∃ a, i = .read 0 a) ∧ s.clra = true ∧ k < 124) :
    admission i s = none ∧ ∃ ops, (∀ op ∈ ops, directed op = true) ∧ k < ioCount ops ∧
      ∀ o v, StopsAt o () (runOps ops (started i s)) v → StopsAt o [] (workOf i (started i s)) v := by
  have hclear (c : Chain) : ∀ op ∈ clearOps c, directed op = true :=
    fun op hop => directed_of_plainOp (plain_clear c op hop)
  rcases hi with ⟨rfl | rfl, hk⟩ | ⟨⟨a, rfl⟩, hca, hk⟩
  · exact ⟨admission_none.2 ⟨rfl, herr, rfl⟩, clearOps .addr, hclear .addr, hk, fun _ _ h => h.bind⟩
  · exact ⟨admission_none.2 ⟨rfl, herr, rfl⟩, clearOps .data, hclear .data, hk, fun _ _ h => h.bind⟩
  · exact ⟨admission_none.2 ⟨rfl, herr, (chainsCleared_iff _ s).2 ⟨fun _ => hca, nofun⟩⟩, readOps a, directed_read a,
      (ioCount_read a).symm ▸ hk, fun _ _ h => h.bind.bind⟩

/-- Settles O40: the command's sequence stops there, and its end follows. -/
theorem firstFailureEndsCommand : Obligations.FirstFailureEndsCommand := by
  intro i k rest s hr herr hi
  obtain ⟨ha, ops, hd, hk, hwork⟩ := single_sequence herr hi
  have hstop (o : IoOutcome) (ho : o ≠ .ok) (hio : s.io = List.replicate k .ok ++ o :: rest) :=
    runOps_stopsAt (s := started i s) (rest := rest) hd ((started_resets i s).trans hr) hk ho
      ((started_io i s).trans hio)
  have hexec : exec i s = conclude i.opcode.byte (workOf i (started i s)) := by
    rw [exec_eq, perform_admitted ha]
    rfl
  refine ⟨fun hio => ?_, fun hio => ?_⟩
  · obtain ⟨v, hrun, hvio, hvr, hvout⟩ := hstop .fail nofun hio
    obtain ⟨-, hfailed⟩ | ⟨hne, -⟩ := hwork _ _ hrun
    · refine ⟨_, hexec.trans ((congrArg _ hfailed).trans (conclude_failed hvr _ _)), hvio, rfl,
        ⟨rfl, rfl, rfl, rfl, rfl, rfl, rfl⟩, ?_⟩
      rw [← opcode_byte, ← started_out i s, ← hvout]
      rfl
    · cases hne
  · obtain ⟨v, hrun, hvio, -, hvout⟩ := hstop .never nofun hio
    obtain ⟨hne, -⟩ | ⟨-, hhung⟩ := hwork _ _ hrun
    · cases hne
    · exact ⟨_, hexec.trans (congrArg _ hhung), hvio, rfl, hvout.trans (started_out i s)⟩

/-! ## The bind -/

/-- A bind whose drives complete (40_pin.md R100). -/
theorem bind_completes {s : State} (hc : Calm s) (hphase : s.phase = .resetting) :
    step s = .next { s with pins := Pins.released, phase := .idle, micro := 0, io := s.io.drop 13 } := by
  obtain ⟨bs, t, hrun, hct⟩ := runOps_calm (ops := bindOps) hc fun op hop => directed_of_allowed (allowed_bind .read op hop)
  obtain ⟨hpins, hdev, hdraws⟩ := runOps_release hrun
  rw [bind_pins] at hpins
  have e := eq_of_devicePart hdev
  rw [hpins, runOps_io hrun, hdraws (by simp [hc.2.2]), runOps_bitcnt hrun, hct.1, ← hc.1] at e
  rw [step_resetting hphase, bindPins, hrun]
  simp only
  generalize t.micro = m at e
  subst e
  rfl

/-- Drives that all release are taken from the roles in order. -/
theorem releases_of_bindOps {before after : List MicroOp} (h : bindOps = before ++ after) :
    ∃ rs : List OutRole, before = rs.map fun r => MicroOp.drive (.out r) false := by
  obtain ⟨rs, -, -, hrs, -⟩ := List.map_eq_append_iff.1 h
  exact ⟨rs, hrs.symm⟩

/-- A bind of which drive number `k` does not complete leaves the block in reset and its devices alone. -/
theorem bind_stops {s : State} {k : Nat} {o : IoOutcome} {rest : List IoOutcome} (hphase : s.phase = .resetting)
    (hr : s.resets = []) (hk : k < 13) (ho : o ≠ .ok) (hio : s.io = List.replicate k .ok ++ o :: rest) :
    ∃ t, step s = .next t ∧ t.phase = .held ∧ t.io = rest ∧
      t.sa = s.sa ∧ t.oa = s.oa ∧ t.sd = s.sd ∧ t.od = s.od ∧ t.q = s.q ∧ t.mem = s.mem := by
  obtain ⟨before, op, post, bs, u, hops, -, -, hbefore, -, -, v, hvio, -, hstop, hv, -⟩ :=
    runOps_stops (ops := bindOps) (fun op hop => directed_of_allowed (allowed_bind .read op hop)) hr hk ho hio
  obtain ⟨rs, rfl⟩ := releases_of_bindOps hops
  obtain ⟨-, hdev, -⟩ := runOps_release hbefore
  have hu := eq_of_devicePart hdev
  have hstep : step s = .next { v with phase := .held } := by
    have hrun : StopsAt o () (runOps bindOps s) v := hops ▸ .append hbefore hstop
    rw [step_resetting hphase, bindPins]
    rcases hrun with ⟨-, e⟩ | ⟨-, e⟩ <;> rw [e]
  refine ⟨_, hstep, rfl, hvio, ?_⟩
  rw [hv]
  simp only [withPins_sa, withPins_oa, withPins_sd, withPins_od, withPins_q, withPins_mem, ioUsed_sa, ioUsed_oa,
    ioUsed_sd, ioUsed_od, ioUsed_q, ioUsed_mem, tick_sa, tick_oa, tick_sd, tick_od, tick_q, tick_mem]
  rw [hu]
  exact ⟨rfl, rfl, rfl, rfl, rfl, rfl⟩

/-- Settles O45: the bind's thirteen drives all release, and a release makes no edge. -/
theorem bindEndsReset : Obligations.BindEndsReset := fun _ hphase hr =>
  ⟨fun hio => bind_completes ⟨hr, hio⟩ hphase, fun _ _ _ hk ho hio => bind_stops hphase hr hk ho hio⟩

/-! ## The reset values -/

/-- What the assertion of the reset input makes of a block with no frame in its port (70_reset_and_hazards.md R230). -/
theorem step_of_resetDue {s : State} (hphase : Waiting s ∨ s.phase = .hung ∨ s.phase = .held) (hws : s.words = [])
    (hrx : s.rx = []) (hr : s.resets = [0]) :
    step s = .next (blockReset (if s.phase = .hung then s.opc else .bot) s) := by
  have hdue : s.resetDue = true := by rw [State.resetDue, hr]; rfl
  rcases hphase with hw | hh | hh
  · have hne : s.phase ≠ .hung := by rcases hw with e | e <;> simp [e]
    have hcut : cutReception 0 s = blockReset .bot s := by
      simp [cutReception, hws, hrx, opcReceived, blockReset]
    rw [step_waiting hw, receive, hws, hrx, if_neg hne, ← hcut]
    simp [decode, hr, resetWithin, acceptAll, hws, hdue]
  · rw [step_hung hh, waitForHost, if_pos hdue, if_pos hh]
  · rw [step_held hh, waitForHost, if_pos hdue, if_neg (by simp [hh])]

theorem resetHavocsSram_found (s : State) :
    resetHavocsSram (if s.phase = .hung then s.opc else .bot) = true ↔
      s.phase = .hung ∧ (s.opc = .known 0x03 ∨ s.opc = .known 0x05) := by
  by_cases hh : s.phase = .hung
  · cases hopc : s.opc with
    | bot => simp [hh, resetHavocsSram]
    | known b => simp [hh, resetHavocsSram, Opcode.byte]
  · simp [hh, resetHavocsSram]

/-- Settles O46: the constants of the reset state, and the reset's two steps: its assertion, then the bind. -/
theorem resetValues : Obligations.ResetValues := by
  refine ⟨rfl, Pins.get_released, rfl, rfl, rfl, rfl, rfl, rfl, fun _ => rfl, rfl, rfl, rfl, rfl, rfl, rfl, rfl, rfl, rfl, rfl,
    rfl, rfl, rfl, rfl, rfl, rfl, fun s hphase hws hrx hr hio => ?_⟩
  have hbind := bind_completes (s := blockReset (if s.phase = .hung then s.opc else .bot) s)
    ⟨by rw [blockReset_resets, hr]; rfl, hio⟩ rfl
  refine ⟨_, _, step_of_resetDue hphase hws hrx hr, hbind, rfl, rfl, Pins.get_released, rfl, rfl, rfl, rfl, rfl, ?_, rfl, rfl,
    rfl, rfl, rfl, rfl, rfl, rfl, rfl, rfl, rfl, rfl, rfl, rfl, rfl⟩
  rw [blockReset_mem]
  simp only [resetHavocsSram_found]

end Sys2Proof.Machine
end

section
/-! Single micro-operations and the devices (10_state.md R29 to R34, 20_memory.md R55, 41_shift_chain.md R112, R113): the
load of the PISO, drives that make no edge, and a shift from levels that need not be known. -/

namespace Sys2Proof.Machine

/-! ## The load of the PISO -/

theorem latchEdge_mem (s : State) : (latchEdge s).mem = s.mem := by
  unfold latchEdge
  split
  · split <;> rfl
  · rfl

theorem latchEdge_bot {s : State} (h : s.pins.wrEn ≠ .released ∨ wordOf s.oa = .bot) : (latchEdge s).q = allBot 24 := by
  unfold latchEdge
  split
  · next a hw ha =>
    rcases h with hne | hbot
    · exact absurd hw hne
    · cases hbot.symm.trans ha
  · rfl

theorem draws_le_ioUsed (s : State) : s.draws ≤ s.ioUsed.draws := by
  unfold State.ioUsed
  split
  · exact le_rfl
  · split
    · exact le_rfl
    · exact Nat.le_succ _

/-- A completed assert drive of a released latch is a load edge, of a state that differs in no element it reads. -/
theorem latch_drive_done {s t : State} {bs : List Bool} (hl : s.pins.rdLatch = .released)
    (h : stepOp (.drive (.out .rdLatch) true) s = .done bs t) :
    ∃ u, t = latchEdge u ∧ u.pins.wrEn = s.pins.wrEn ∧ u.oa = s.oa ∧ u.mem = s.mem ∧ s.draws ≤ u.draws := by
  obtain ⟨-, -, -, rfl⟩ := drive_done h
  have hg : s.pins.get .rdLatch = .released := hl
  rw [driveOk_known (by simp [hg])]
  refine ⟨s.tick.ioUsed.withPins (s.pins.set .rdLatch .asserted), by simp [hg, rises, react, driven], rfl, by simp, by simp,
    draws_le_ioUsed s.tick⟩

/-- Settles O48: the load edge by what write-enable, the chain outputs and the word are. -/
theorem sramReadEdge : Obligations.SramReadEdge := by
  intro s t bs hl h
  obtain ⟨u, rfl, hw, hoa, hmem, hdraws⟩ := latch_drive_done hl h
  rw [← hw, ← hoa, ← hmem]
  refine ⟨latchEdge_mem u, fun a d hen ha hd => ?_, fun a hen ha hd => ?_, latchEdge_bot⟩
  · simp [latchEdge_known hen ha, readValue, hd, qHolds, withDraws]
  · refine ⟨u.draws, hdraws, ?_, ?_⟩
    · simp [latchEdge_known hen ha, drawsAfter, hd]
    · simp [latchEdge_known hen ha, readValue, hd, qHolds, withDraws]

/-! ## Drives that make no edge -/

theorem driveOk_no_edge {r : OutRole} {on : Bool} {s : State} (h : on = false ∨ s.pins.get r = .asserted) :
    driveOk r on s = s.withPins (s.pins.set r (driven on)) := by
  rcases h with rfl | hl
  · rfl
  · cases on with
    | false => rfl
    | true => simp [driveOk, hl, isEdge, edgeDrawn]

/-- Settles O49: by the micro-operation. -/
theorem noEdgeNoReaction : Obligations.NoEdgeNoReaction := by
  intro op s t bs h hno
  cases op with
  | bitcnt i => cases h; exact ⟨rfl, rfl, rfl, rfl, rfl, rfl, rfl⟩
  | wait d => obtain ⟨-, -, rfl⟩ := wait_done h; exact ⟨rfl, rfl, rfl, rfl, rfl, rfl, rfl⟩
  | sample r =>
    cases r with
    | out r => cases h
    | rdSer =>
      have hdev : devicePart t = devicePart s := by
        rcases sample_cases s with ⟨-, e⟩ | ⟨-, -, e⟩ | ⟨-, -, e⟩ | ⟨-, -, e⟩
        · cases e.symm.trans h
        · rcases sampleOk_cases s.tick.ioUsed with ⟨b, -, e'⟩ | ⟨-, e'⟩
          · cases (e.trans e').symm.trans h; simp
          · cases (e.trans e').symm.trans h; simp
        · cases e.symm.trans h
        · cases e.symm.trans h
      rw [eq_of_devicePart hdev]
      exact ⟨rfl, rfl, rfl, rfl, rfl, rfl, rfl⟩
  | drive r on =>
    cases r with
    | rdSer => cases h
    | out r =>
      obtain ⟨-, -, -, rfl⟩ := drive_done h
      rw [driveOk_no_edge (by simpa using hno r on rfl)]
      simp

/-! ## A shift -/

/-- The serial pin's drive moves no device, whatever the pin's level was. -/
theorem driveOk_ser (c : Chain) (on : Bool) (s : State) :
    driveOk (serRole c) on s =
      (edgeDrawn (s.pins.get (serRole c)) on s).withPins (s.pins.set (serRole c) (driven on)) := by
  cases c <;> simp only [driveOk, serRole, react, edgeDrawn_pins, ite_self]

theorem shiftOps_eq_cons {n : Nat} (c : Chain) (w : BitVec (n + 1)) :
    ∃ b post, shiftOps c w = .bitcnt 0 :: .drive (.out (serRole c)) b :: post := by
  cases hbits : bitList w with
  | nil => simpa [hbits] using length_bitList w
  | cons b bs => exact ⟨b, _, by rw [shiftOps, hbits]; rfl⟩

/-- A completed drive of the serial pin changes its level and nothing else of the devices. -/
theorem devicePart_drive_ser {c : Chain} {on : Bool} {s t : State} {bs : List Bool}
    (h : stepOp (.drive (.out (serRole c)) on) s = .done bs t) :
    devicePart t = (devicePart s).withPins (s.pins.set (serRole c) (driven on)) := by
  obtain ⟨-, -, -, rfl⟩ := drive_done h
  have edge : ∀ (l : Level) (u : State), devicePart (edgeDrawn l on u) = devicePart u := by
    intro l u; unfold edgeDrawn; split <;> rfl
  rw [driveOk_ser, devicePart_withPins, edge]
  simp

/-- The first two operations of a shift leave the serial pin known, and touch nothing else that its engine reads. -/
theorem shift_starts {n : Nat} {c : Chain} {w : BitVec (n + 1)} {s t : State} {bs : List Bool}
    (h : runOps (shiftOps c w) s = .done bs t) :
    ∃ b post cs u, shiftOps c w = .bitcnt 0 :: .drive (.out (serRole c)) b :: post ∧
      devicePart u = (devicePart s).withPins (s.pins.set (serRole c) (driven b)) ∧ runOps post u = .done cs t ∧
      ∀ op ∈ post, engineOp c op = true := by
  obtain ⟨b, post, e⟩ := shiftOps_eq_cons c w
  rw [e] at h
  obtain ⟨_, v, _, h1, h2, -⟩ := runOps_cons_done.1 h
  obtain ⟨_, u, cs, h3, h4, -⟩ := runOps_cons_done.1 h2
  cases h1
  have hu := devicePart_drive_ser h3
  refine ⟨b, post, cs, u, e, hu, h4, fun op hop => engineOp_shift c w op ?_⟩
  rw [e]
  exact List.mem_cons_of_mem _ (List.mem_cons_of_mem _ hop)

/-- From a known serial pin and released clocks the engine's levels are known. -/
theorem engineKnown_of_ser {c : Chain} {b : Bool} {p : Pins} {u : State} (hp : u.pins = p.set (serRole c) (driven b))
    (hs : p.get (sclkRole c) = .released) (hr : p.get (rclkRole c) = .released) : EngineKnown c u := by
  have hne : sclkRole c ≠ serRole c ∧ rclkRole c ≠ serRole c := by cases c <;> exact ⟨nofun, nofun⟩
  unfold EngineKnown
  simp only [hp, Pins.get_set, if_true, if_neg hne.1, if_neg hne.2, hs, hr]
  cases b <;> exact ⟨nofun, nofun, nofun⟩

theorem addrView_shift {a : Addr} {s t : State} {bs : List Bool} (hs : s.pins.aSclk = .released)
    (hr : s.pins.aRclk = .released) (h : runOps (shiftOps .addr a) s = .done bs t) :
    addrView t = viewRun .addr (shiftOps .addr a) (addrView s) := by
  obtain ⟨b, post, cs, u, e, hu, hpost, hops⟩ := shift_starts h
  have hk : EngineKnown .addr u := engineKnown_of_ser (congrArg State.pins hu :) hs hr
  have hview : addrView u = viewStep .addr (.drive (.out .aSer) b) (addrView s) := (congrArg addrView hu :)
  rw [((alone hops hk hpost).1 rfl).1, hview, e]
  rfl

theorem dataView_shift {d : Data} {s t : State} {bs : List Bool} (hs : s.pins.dSclk = .released)
    (hr : s.pins.dRclk = .released) (h : runOps (shiftOps .data d) s = .done bs t) :
    dataView t = viewRun .data (shiftOps .data d) (dataView s) := by
  obtain ⟨b, post, cs, u, e, hu, hpost, hops⟩ := shift_starts h
  have hk : EngineKnown .data u := engineKnown_of_ser (congrArg State.pins hu :) hs hr
  have hview : dataView u = viewStep .data (.drive (.out .dSer) b) (dataView s) := (congrArg dataView hu :)
  rw [((alone hops hk hpost).2 rfl).1, hview, e]
  rfl

/-- Settles O50: after its first drive the shift is a run of its engine from known levels. -/
theorem shiftPostcondition : Obligations.ShiftPostcondition := by
  intro s t bs
  refine ⟨fun a hs hr hc h => ?_, fun d hs hr hc h => ?_⟩
  · have hv := (addrView_shift hs hr h).trans (viewRun_shift .addr a hs hr hc)
    have hser : t.pins.aSer = .released := (congrArg ChainView.ser hv :)
    refine ⟨(congrArg ChainView.stages hv :), (congrArg ChainView.outs hv :), ?_⟩
    simp only [State.lvl, Pins.get, hser]
    exact physicalLevel_ser .addr false
  · have hv := (dataView_shift hs hr h).trans (viewRun_shift .data d hs hr hc)
    have hser : t.pins.dSer = .released := (congrArg ChainView.ser hv :)
    refine ⟨(congrArg ChainView.stages hv :), (congrArg ChainView.outs hv :), ?_⟩
    simp only [State.lvl, Pins.get, hser]
    exact physicalLevel_ser .data false

/-! ## The loop of a shift -/

/-- A run, however it ends, keeps what each of its operations keeps however it ends. -/
theorem runOps_keeps {P : State → Prop} {ops : List MicroOp} {s t : State}
    (hstep : ∀ op ∈ ops, ∀ u v, P u → runState (stepOp op u) = some v → P v) (hs : P s)
    (h : runState (runOps ops s) = some t) : P t := by
  induction ops generalizing s with
  | nil => cases h; exact hs
  | cons op ops ih =>
    have hrest := fun o ho => hstep o (List.mem_cons_of_mem op ho)
    rcases Run.bind_state h with h | ⟨bs, u, h1, h⟩
    · exact hstep op List.mem_cons_self s t hs h
    · have hu : P u := hstep op List.mem_cons_self s u hs (by rw [h1]; rfl)
      rcases Run.bind_state h with h | ⟨cs, v, h2, h⟩
      · exact ih hrest hu h
      · cases h; exact ih hrest hu (by rw [h2]; rfl)

/-- The outputs of both chains, the PISO and the SRAM are as they were (41_shift_chain.md R113). -/
def OutputsKept (s₀ s : State) : Prop := s.oa = s₀.oa ∧ s.od = s₀.od ∧ s.q = s₀.q ∧ s.mem = s₀.mem

theorem OutputsKept.trans {s t u : State} (h : OutputsKept s t) (h' : OutputsKept t u) : OutputsKept s u := by
  obtain ⟨ha, hd, hq, hm⟩ := h
  obtain ⟨ha', hd', hq', hm'⟩ := h'
  exact ⟨ha'.trans ha, hd'.trans hd, hq'.trans hq, hm'.trans hm⟩

/-- The operations of the loop of a shift: no register clock among them. -/
def loopOp (c : Chain) : MicroOp → Prop
  | .drive (.out r) _ => r = serRole c ∨ r = sclkRole c
  | .drive .rdSer _ => False
  | .sample _ => False
  | .bitcnt _ => True
  | .wait _ => True

theorem loopOp_shiftLoop (c : Chain) (i : Nat) (bits : List Bool) : ∀ op ∈ shiftLoopOps c i bits, loopOp c op := by
  induction bits generalizing i with
  | nil => nofun
  | cons b bits ih =>
    intro op h
    rcases List.mem_append.1 h with h | h
    · simp only [shiftBitOps, pulseOps, List.mem_cons, List.not_mem_nil, or_false] at h
      rcases h with rfl | rfl | rfl | rfl | rfl | rfl <;> simp [loopOp]
    · exact ih (i + 1) op h

theorem outputsKept_react {c : Chain} {r : OutRole} (h : r = serRole c ∨ r = sclkRole c) (s : State) :
    OutputsKept s (react r s) := by
  rcases h with rfl | rfl <;> cases c <;> exact ⟨rfl, rfl, rfl, rfl⟩

theorem outputsKept_driveOk {c : Chain} {r : OutRole} (h : r = serRole c ∨ r = sclkRole c) (on : Bool) (s : State) :
    OutputsKept s (driveOk r on s) := by
  have hdrawn : OutputsKept s (edgeDrawn (s.pins.get r) on s) := by
    unfold edgeDrawn; split <;> exact ⟨rfl, rfl, rfl, rfl⟩
  unfold driveOk
  dsimp only
  split
  · exact hdrawn.trans (outputsKept_react h _)
  · exact hdrawn

theorem outputsKept_ioUsed (s : State) : OutputsKept s s.tick.ioUsed := ⟨by simp, by simp, by simp, by simp⟩

theorem outputsKept_stepOp {c : Chain} {op : MicroOp} {s t : State} (hop : loopOp c op)
    (h : runState (stepOp op s) = some t) : OutputsKept s t := by
  cases op with
  | bitcnt i => cases h; exact ⟨rfl, rfl, rfl, rfl⟩
  | wait d => simp only [stepOp, wait] at h; split at h <;> cases h <;> exact ⟨rfl, rfl, rfl, rfl⟩
  | sample r => exact hop.elim
  | drive r on =>
    cases r with
    | rdSer => exact hop.elim
    | out r =>
      rcases drive_cases r on s with ⟨-, e⟩ | ⟨-, -, e⟩ | ⟨-, -, e⟩ | ⟨-, -, e⟩ <;>
        simp only [stepOp, e, runState, Option.some.injEq] at h <;> subst h
      · exact ⟨rfl, rfl, rfl, rfl⟩
      · exact (outputsKept_ioUsed s).trans (outputsKept_driveOk hop on _)
      · exact outputsKept_ioUsed s
      · exact outputsKept_ioUsed s

/-- Settles O51: no operation of the loop is one that moves the outputs. -/
theorem outputsHeldDuringShift : Obligations.OutputsHeldDuringShift := by
  intro c i bits s t h
  exact runOps_keeps (P := OutputsKept s)
    (fun op hop u v hu hv => hu.trans (outputsKept_stepOp (loopOp_shiftLoop c i bits op hop) hv)) ⟨rfl, rfl, rfl, rfl⟩ h

end Sys2Proof.Machine
end

section
/-! The pin traces of the shift and of READ, and BIND's check of a configuration (41_shift_chain.md R115,
43_memory_driver.md R147 and R148, 40_pin.md R100). -/

namespace Sys2Proof.Machine

/-! ## The counts of a sequence in two parts -/

@[simp] theorem drivesOf_append (xs ys : List MicroOp) : drivesOf (xs ++ ys) = drivesOf xs ++ drivesOf ys := by
  induction xs with
  | nil => rfl
  | cons op xs ih => cases op <;> simp [drivesOf, ih]

@[simp] theorem waitTime_append (xs ys : List MicroOp) : waitTime (xs ++ ys) = waitTime xs + waitTime ys := by
  unfold waitTime
  induction xs with
  | nil => simp [waitTimeBy]
  | cons op xs ih => cases op <;> simp [waitTimeBy, ih, Nat.add_assoc]

@[simp] theorem sampleCount_append (xs ys : List MicroOp) :
    sampleCount (xs ++ ys) = sampleCount xs + sampleCount ys := by
  induction xs with
  | nil => simp [sampleCount]
  | cons op xs ih => cases op <;> simp [sampleCount, ih, Nat.add_right_comm]

@[simp] theorem readPathOps_append (xs ys : List MicroOp) :
    readPathOps (xs ++ ys) = readPathOps xs ++ readPathOps ys :=
  List.filter_append ..

/-! ## The trace of a shift -/

/-- The drives of one turn of the loop (41_shift_chain.md R111). -/
def bitDrives (c : Chain) (b : Bool) : List (Role × Bool) :=
  [(.out (serRole c), b), (.out (sclkRole c), true), (.out (sclkRole c), false)]

/-- The drives that end a shift. -/
def endDrives (c : Chain) : List (Role × Bool) :=
  [(.out (rclkRole c), true), (.out (rclkRole c), false), (.out (serRole c), false)]

theorem drivesOf_shiftLoop (c : Chain) (i : Nat) (bits : List Bool) :
    drivesOf (shiftLoopOps c i bits) = bits.flatMap (bitDrives c) := by
  induction bits generalizing i with
  | nil => rfl
  | cons b bits ih => rw [shiftLoopOps, drivesOf_append, ih, List.flatMap_cons]; rfl

theorem drivesOf_shift {n : Nat} (c : Chain) (v : BitVec n) :
    drivesOf (shiftOps c v) = (bitList v).flatMap (bitDrives c) ++ endDrives c := by
  rw [shiftOps, drivesOf_append, drivesOf_shiftLoop]; rfl

theorem waitTime_shiftBit (c : Chain) (i : Nat) (b : Bool) :
    waitTime (shiftBitOps c i b) = Config.tSettle + Config.tHold := rfl

theorem waitTime_shiftLoop (c : Chain) (i : Nat) (bits : List Bool) :
    waitTime (shiftLoopOps c i bits) = bits.length * (Config.tSettle + Config.tHold) := by
  induction bits generalizing i with
  | nil => simp [shiftLoopOps, waitTime, waitTimeBy]
  | cons b bits ih => rw [shiftLoopOps, waitTime_append, ih, waitTime_shiftBit, List.length_cons, Nat.succ_mul, Nat.add_comm]

theorem waitTime_shift {n : Nat} (c : Chain) (v : BitVec n) :
    waitTime (shiftOps c v) = n * (Config.tSettle + Config.tHold) + Config.tHold := by
  rw [shiftOps, waitTime_append, waitTime_shiftLoop, length_bitList]; rfl

/-- Settles O52: by the loop's turns and the end of the shift. -/
theorem shiftTrace : Obligations.ShiftTrace := by
  intro c n v
  refine ⟨?_, ?_, waitTime_shift c v⟩
  · rw [drivesOf_shift, bitList, List.flatMap_map]; rfl
  · simp [drivesOf_shift, bitDrives, endDrives, List.length_flatMap, Nat.mul_comm]

/-! ## The trace of READ -/

theorem mem_drivesOf {r : Role} {on : Bool} {ops : List MicroOp} : (r, on) ∈ drivesOf ops ↔ .drive r on ∈ ops := by
  induction ops with
  | nil => simp [drivesOf]
  | cons op ops ih => cases op <;> simp [drivesOf, ih]

/-- A chain's engine drives no pin but the chain's. -/
theorem not_mem_drivesOf_shift {r : Role} (on : Bool) (a : Addr) (h : engineOp .addr (.drive r on) = false) :
    (r, on) ∉ drivesOf (shiftOps .addr a) := fun hmem =>
  Bool.false_ne_true (h.symm.trans (engineOp_shift .addr a _ (mem_drivesOf.1 hmem)))

theorem not_onReadPath_of_engineOp {op : MicroOp} (h : engineOp .addr op = true) : onReadPath op = false := by
  cases op with
  | bitcnt i => rfl
  | wait d => rfl
  | sample r => cases h
  | drive r on =>
    cases r with
    | rdSer => cases h
    | out r => cases r <;> simp [engineOp, onReadPath, serRole, sclkRole, rclkRole] at h ⊢

theorem readPathOps_shift (a : Addr) : readPathOps (shiftOps .addr a) = [] :=
  List.filter_eq_nil_iff.2 fun op hop => by simp [not_onReadPath_of_engineOp (engineOp_shift .addr a op hop)]

theorem sampleCount_engine {c : Chain} {ops : List MicroOp} (h : ∀ op ∈ ops, engineOp c op = true) :
    sampleCount ops = 0 := by
  induction ops with
  | nil => rfl
  | cons op ops ih =>
    have hrest := ih fun o ho => h o (List.mem_cons_of_mem op ho)
    have hop := h op List.mem_cons_self
    cases op with
    | bitcnt i => exact hrest
    | wait d => exact hrest
    | sample r => cases hop
    | drive r on => exact hrest

/-- READ, with what it does on the read path written out. -/
theorem readOps_eq_shift (a : Addr) :
    readOps a = .drive (.out .wrEn) false ::
      (shiftOps .addr a ++ ((.wait .settle :: pulseOps .rdLatch) ++ readSampleOps)) := by
  simp [readOps, readLoadOps]

theorem drivesOf_readOps (a : Addr) :
    drivesOf (readOps a) = (Role.out .wrEn, false) :: (drivesOf (shiftOps .addr a) ++
      drivesOf ((.wait .settle :: pulseOps .rdLatch) ++ readSampleOps)) := by
  rw [readOps_eq_shift, drivesOf, drivesOf_append]

theorem waitTime_sampleBits (js : List Nat) :
    waitTime (js.flatMap sampleBitOps) = js.length * (Config.tHold + 2 * Config.tSettle) := by
  induction js with
  | nil => simp [waitTime, waitTimeBy]
  | cons j js ih =>
    have hbit : waitTime (sampleBitOps j) = Config.tHold + (Config.tSettle + Config.tSettle) := rfl
    rw [List.flatMap_cons, waitTime_append, ih, hbit, List.length_cons]
    ring

theorem waitTime_readOps (a : Addr) :
    waitTime (readOps a) =
      16 * (Config.tSettle + Config.tHold) + Config.tHold + (2 * Config.tSettle + Config.tHold) +
        23 * (Config.tHold + 2 * Config.tSettle) := by
  have hdrive : waitTime [.drive (.out .wrEn) false] = 0 := rfl
  have hload : waitTime (.wait .settle :: pulseOps .rdLatch) = Config.tSettle + Config.tHold := rfl
  have hfirst : waitTime [.wait .settle, .sample .rdSer] = Config.tSettle := rfl
  rw [readOps_eq_shift, ← List.singleton_append, waitTime_append, waitTime_append, waitTime_append, readSampleOps,
    waitTime_append, waitTime_sampleBits, List.length_range', waitTime_shift, hdrive, hload, hfirst]
  ring

/-- Settles O53: the shift of the address is off the read path, and the rest is one list for every address. -/
theorem readTrace : Obligations.ReadTrace := by
  intro a
  refine ⟨?_, ?_, ?_, by rw [drivesOf_readOps]; rfl, ?_, fun on => ?_, ?_, ?_, waitTime_readOps a⟩
  · rw [readOps_eq_shift, ← List.singleton_append, readPathOps_append, readPathOps_append, readPathOps_shift]
    rfl
  · rw [readOps_eq_shift, sampleCount, sampleCount_append, sampleCount_engine (engineOp_shift .addr a)]
    rfl
  · rw [drivesOf_readOps, List.count_cons_of_ne (by decide), List.count_append,
      List.count_eq_zero.2 (not_mem_drivesOf_shift true a rfl)]
    rfl
  · rw [drivesOf_readOps, List.mem_cons, List.mem_append, not_or, not_or]
    exact ⟨by decide, not_mem_drivesOf_shift true a rfl, by decide⟩
  · rw [drivesOf_readOps, List.mem_cons, List.mem_append, not_or, not_or]
    exact ⟨nofun, not_mem_drivesOf_shift on a rfl, by cases on <;> decide⟩
  · rw [readLoadOps, sampleCount, sampleCount_append, sampleCount_engine (engineOp_shift .addr a)]
    rfl
  · rw [readLoadOps, drivesOf, drivesOf_append, List.mem_cons, List.mem_append, not_or, not_or]
    exact ⟨by decide, not_mem_drivesOf_shift true a rfl, by decide⟩

/-! ## BIND's check of a configuration -/

/-- What one pin's own check accepts (40_pin.md R100). -/
theorem checkPin_eq_none {seen : List Int} {p : RawPin} :
    checkPin seen p = none ↔
      (0 ≤ p.id ∧ p.id ≤ 27) ∧ p.direction = p.role.direction ∧ p.id ∉ seen ∧
        ∀ r, p.role = .out r → p.initial = some (Config.releaseLvl r) := by
  unfold checkPin
  by_cases hid : p.id < 0 ∨ 27 < p.id
  · rw [if_pos hid]
    exact ⟨nofun, fun h => absurd hid (by omega)⟩
  rw [if_neg hid]
  have hrange : 0 ≤ p.id ∧ p.id ≤ 27 := by omega
  by_cases hdir : p.direction = p.role.direction
  · by_cases hseen : p.id ∈ seen
    · simp [hdir, hseen]
    · cases hrole : p.role with
      | rdSer => simp [hdir, hseen, hrole, hrange]
      | out r => simp [hdir, hseen, hrole, hrange]
  · simp [hdir]

/-- The pins in order are accepted where each is, no id is bound before, and the ids are distinct. -/
theorem checkPins_eq_none {seen : List Int} {pins : List RawPin} :
    checkPins seen pins = none ↔
      (∀ p ∈ pins, 0 ≤ p.id ∧ p.id ≤ 27) ∧ (pins.map RawPin.id).Nodup ∧ (∀ p ∈ pins, p.id ∉ seen) ∧
      (∀ p ∈ pins, p.direction = p.role.direction) ∧
      ∀ p ∈ pins, ∀ r, p.role = .out r → p.initial = some (Config.releaseLvl r) := by
  induction pins generalizing seen with
  | nil => simp [checkPins]
  | cons p pins ih =>
    have hcons : checkPins seen (p :: pins) = none ↔ checkPin seen p = none ∧ checkPins (p.id :: seen) pins = none := by
      rw [checkPins]
      cases checkPin seen p <;> simp
    rw [hcons, checkPin_eq_none, ih]
    simp only [List.forall_mem_cons]
    simp only [List.map_cons, List.nodup_cons, List.mem_cons, List.mem_map, not_or, not_exists, not_and]
    constructor
    · rintro ⟨⟨hid, hdir, hseen, hinit⟩, hids, hnd, hnew, hdirs, hinits⟩
      exact ⟨⟨hid, hids⟩, ⟨fun q hq => (hnew q hq).1, hnd⟩, ⟨hseen, fun q hq => (hnew q hq).2⟩, ⟨hdir, hdirs⟩, hinit,
        hinits⟩
    · rintro ⟨⟨hid, hids⟩, ⟨hfresh, hnd⟩, ⟨hseen, hold⟩, ⟨hdir, hdirs⟩, hinit, hinits⟩
      exact ⟨⟨hid, hdir, hseen, hinit⟩, hids, hnd, fun q hq => ⟨hfresh q hq, hold q hq⟩, hdirs, hinits⟩

theorem Role.mem_all (r : Role) : r ∈ Role.all := by
  cases r with
  | rdSer => decide
  | out r => cases r <;> decide

theorem unmappedRoles_eq_nil {pins : List RawPin} : unmappedRoles pins = [] ↔ ∀ r, ∃ p ∈ pins, p.role = r := by
  simp [unmappedRoles, List.filter_eq_nil_iff, Role.mem_all]

theorem checkConfiguration_eq_none {pins : List RawPin} :
    checkConfiguration pins = none ↔ (∀ r : Role, ∃ p ∈ pins, p.role = r) ∧ checkPins [] pins = none := by
  rw [← unmappedRoles_eq_nil, checkConfiguration]
  cases unmappedRoles pins <;> simp

/-- The pin numbers in use are distinct, for `pinOrder` is a permutation. -/
theorem boundPins_ids_nodup : (boundPins.map RawPin.id).Nodup := by
  have hindex : (Role.all.map Role.index).Nodup := by decide
  have hids : boundPins.map RawPin.id = (Role.all.map Role.index).map fun i => ((Config.pinOrder i).val : Int) := by
    rw [boundPins, List.map_map, List.map_map]; rfl
  rw [hids]
  exact hindex.map fun i j h => Config.pinOrder.injective (Fin.ext (Int.ofNat_inj.1 h))

theorem boundPins_check : checkPins [] boundPins = none := by
  refine checkPins_eq_none.2 ⟨?_, boundPins_ids_nodup, fun _ _ => List.not_mem_nil, ?_, ?_⟩ <;>
    rw [boundPins, List.forall_mem_map]
  · intro r _
    have hlt := (Config.pinOrder r.index).isLt
    simp only [Config.pinMap]
    omega
  · exact fun _ _ => rfl
  · rintro r _ o rfl; rfl

/-- Settles O54: the check pin by pin, and the roles that have one. -/
theorem configurationCheck : Obligations.ConfigurationCheck := by
  refine ⟨fun pins => ?_, checkConfiguration_eq_none.2 ⟨fun r => ?_, boundPins_check⟩⟩
  · rw [checkConfiguration_eq_none, checkPins_eq_none]
    simp
  · exact ⟨_, List.mem_map_of_mem (Role.mem_all r), rfl⟩

end Sys2Proof.Machine
end

section
/-! WRITE's barrier (43_memory_driver.md R142): an operation of the two shifts that is not completed stops its engine,
and the other engine's steps are then a run of their own. -/

namespace Sys2Proof.Machine

/-! ## One chain or the other -/

/-- The stages of a chain. -/
def width : Chain → Nat
  | .addr => 16
  | .data => 24

/-- What the engine of a chain reads and writes. -/
def chainView : (c : Chain) → State → ChainView (width c)
  | .addr, s => addrView s
  | .data, s => dataView s

/-- The value that WRITE shifts into a chain. -/
def chainWord (a : Addr) (d : Data) : (c : Chain) → BitVec (width c)
  | .addr => a
  | .data => d

def otherChain : Chain → Chain
  | .addr => .data
  | .data => .addr

/-- Whether the two engines run, the one of `c` being as given. -/
def engines (c : Chain) (e : Engine) : Engine × Engine :=
  match c with
  | .addr => (e, .running)
  | .data => (.running, e)

/-- What becomes of an engine whose operation is answered so. -/
def stoppedBy : IoOutcome → Engine
  | .ok => .running
  | .fail => .failed
  | .never => .stuck

theorem stoppedBy_ne_running {o : IoOutcome} (h : o ≠ .ok) : stoppedBy o ≠ .running := by
  cases o with
  | ok => exact absurd rfl h
  | fail => nofun
  | never => nofun

theorem chainView_mixed {ops : List (Chain × MicroOp)} {s t : State} {bs : List Bool} (hk : LevelsKnown s)
    (hops : ∀ p ∈ ops, engineOp p.1 p.2 = true) (h : runOps (ops.map Prod.snd) s = .done bs t) (c : Chain) :
    chainView c t = viewRun c (stepsOf c ops) (chainView c s) := by
  obtain ⟨ha, hd, -⟩ := mixed_device hk hops h
  cases c with
  | addr => exact ha
  | data => exact hd

theorem chainView_alone {c : Chain} {ops : List MicroOp} {s t : State} {bs : List Bool}
    (hops : ∀ op ∈ ops, engineOp (otherChain c) op = true) (hk : EngineKnown (otherChain c) s)
    (h : runOps ops s = .done bs t) :
    chainView (otherChain c) t = viewRun (otherChain c) ops (chainView (otherChain c) s) ∧
      (chainView c t).outs = (chainView c s).outs := by
  obtain ⟨ha, hd⟩ := alone hops hk h
  cases c with
  | addr => exact hd rfl
  | data => exact ha rfl

theorem runPar_other_alone {c : Chain} {e : Engine} {ops : List (Chain × MicroOp)} {s t : State} {bs : List Bool}
    (he : e ≠ .running) (h : runOps (stepsOf (otherChain c) ops) s = .done bs t) :
    runPar ops (engines c e).1 (engines c e).2 s = barrier (engines c e).1 (engines c e).2 t := by
  cases c with
  | addr => exact runPar_data_alone he h
  | data => exact runPar_addr_alone he h

theorem stepsOf_shifts (a : Addr) (d : Data) (sc : List Chain) (c : Chain) :
    stepsOf c (interleave sc (shiftOps .addr a) (shiftOps .data d)) = shiftOps c (chainWord a d c) := by
  obtain ⟨ha, hd⟩ := stepsOf_interleave sc (shiftOps .addr a) (shiftOps .data d)
  cases c with
  | addr => exact ha
  | data => exact hd

theorem engineOp_shifts {a : Addr} {d : Data} {sc : List Chain} :
    ∀ p ∈ interleave sc (shiftOps .addr a) (shiftOps .data d), engineOp p.1 p.2 = true := fun p hp =>
  engineOp_shift p.1 (chainWord a d p.1) p.2 (by rw [← stepsOf_shifts a d sc]; exact mem_stepsOf hp)

theorem par_shifts (a : Addr) (d : Data) (s : State) :
    par (shiftOps .addr a) (shiftOps .data d) s =
      runPar (interleave s.sched (shiftOps .addr a) (shiftOps .data d)) .running .running
        (s.withSched (s.sched.drop (writeShiftSteps a d))) := by
  rw [par, interleave_take _ _ _ le_rfl]; rfl

/-! ## The first operation that is not completed -/

/-- The interleaved steps come to an operation of engine `c` that is answered `o`, not OK: `u` is the state before it
and `v` the one after it. -/
structure EngineStops (ops : List (Chain × MicroOp)) (s : State) (k : Nat) (o : IoOutcome) (rest : List IoOutcome)
    (pre : List (Chain × MicroOp)) (c : Chain) (op : MicroOp) (post : List (Chain × MicroOp)) (u v : State) :
    Prop where
  split : ops = pre ++ (c, op) :: post
  count : ioCount (pre.map Prod.snd) = k
  asks : ioTaken op = 1
  ran : ∃ bs, runOps (pre.map Prod.snd) s = .done bs u
  io : v.io = rest
  resets : v.resets = []
  stopped : (o = .fail ∧ stepOp op u = .failed () v) ∨ (o = .never ∧ stepOp op u = .hung v)
  state : v = u.tick.ioUsed.withPins v.pins
  pins : v.pins = u.pins ∨ ∃ r on, op = .drive (.out r) on ∧ v.pins = u.pins.set r .bot

theorem engineStops {ops : List (Chain × MicroOp)} {s : State} {k : Nat} {o : IoOutcome} {rest : List IoOutcome}
    (hops : ∀ p ∈ ops, engineOp p.1 p.2 = true) (hr : s.resets = []) (hk : k < ioCount (ops.map Prod.snd))
    (ho : o ≠ .ok) (hio : s.io = List.replicate k .ok ++ o :: rest) :
    ∃ pre c op post u v, EngineStops ops s k o rest pre c op post u v := by
  have hdir : ∀ op ∈ ops.map Prod.snd, directed op = true := by
    intro op hop
    obtain ⟨p, hp, rfl⟩ := List.mem_map.1 hop
    exact directed_of_plainOp (plainOp_of_engineOp (hops p hp))
  obtain ⟨ran, op, unrun, bs, u, hsplit, hcount, hasks, hran, -, -, v, hvio, hvr, hstop, hv, hpins⟩ :=
    runOps_stops hdir hr hk ho hio
  obtain ⟨pre, c, post, hops', rfl, rfl⟩ := mapsnd_split hsplit
  exact ⟨pre, c, op, post, u, v, hops', hcount, hasks, ⟨bs, hran⟩, hvio, hvr, hstop, hv, hpins⟩

section
variable {ops : List (Chain × MicroOp)} {s : State} {k : Nat} {o : IoOutcome} {rest : List IoOutcome}
  {pre : List (Chain × MicroOp)} {c : Chain} {op : MicroOp} {post : List (Chain × MicroOp)} {u v : State}

/-- Its engine stops, and the other goes on. -/
theorem EngineStops.runPar (h : EngineStops ops s k o rest pre c op post u v) :
    runPar ops .running .running s = Machine.runPar post (engines c (stoppedBy o)).1 (engines c (stoppedBy o)).2 v := by
  obtain ⟨bs, hran⟩ := h.ran
  rw [h.split, runPar_append_done hran]
  rcases h.stopped with ⟨rfl, e⟩ | ⟨rfl, e⟩ <;> cases c <;> simp [Machine.runPar, engines, stoppedBy, e]

/-- The operation is the `k`-th that asks the I/O layer. -/
theorem EngineStops.turn (h : EngineStops ops s k o rest pre c op post u v) :
    (asked ops)[k]? = some c ∧ (asked ops).take k = asked pre := by
  have hlen : (asked pre).length = k := by rw [asked_length, h.count]
  have hop : asksIo op = true := by simpa [asksIo_iff] using h.asks
  have hcons : asked ((c, op) :: post) = c :: asked post := by simp [asked, hop]
  rw [h.split, asked_append, hcons, ← hlen]
  simp

/-- A level that the stopped engine's drive loses is one of its own roles'. -/
theorem EngineStops.other_pins (h : EngineStops ops s k o rest pre c op post u v) (he : engineOp c op = true)
    {r : OutRole} (hr : ∀ on, engineOp c (.drive (.out r) on) = false) : v.pins.get r = u.pins.get r := by
  rcases h.pins with e | ⟨r', on, rfl, e⟩
  · rw [e]
  · have hne : r ≠ r' := by rintro rfl; exact Bool.false_ne_true ((hr on).symm.trans he)
    rw [e, Pins.get_set, if_neg hne]

/-- The other chain, and the stopped engine's outputs, are as before the operation. -/
theorem EngineStops.views (h : EngineStops ops s k o rest pre c op post u v) (he : engineOp c op = true) :
    (chainView c v).outs = (chainView c u).outs ∧ chainView (otherChain c) v = chainView (otherChain c) u := by
  have hsa : v.sa = u.sa := by rw [h.state]; simp
  have hoa : v.oa = u.oa := by rw [h.state]; simp
  have hsd : v.sd = u.sd := by rw [h.state]; simp
  have hod : v.od = u.od := by rw [h.state]; simp
  cases c with
  | addr =>
    have hser := h.other_pins he (r := .dSer) fun _ => rfl
    have hsclk := h.other_pins he (r := .dSclk) fun _ => rfl
    have hrclk := h.other_pins he (r := .dRclk) fun _ => rfl
    have hclr := h.other_pins he (r := .dClr) fun _ => rfl
    simp only [Pins.get] at hser hsclk hrclk hclr
    have hview : dataView v = dataView u := by simp only [dataView, hser, hsclk, hrclk, hclr, hsd, hod]
    exact ⟨hoa, hview⟩
  | data =>
    have hser := h.other_pins he (r := .aSer) fun _ => rfl
    have hsclk := h.other_pins he (r := .aSclk) fun _ => rfl
    have hrclk := h.other_pins he (r := .aRclk) fun _ => rfl
    have hclr := h.other_pins he (r := .aClr) fun _ => rfl
    simp only [Pins.get] at hser hsclk hrclk hclr
    have hview : addrView v = addrView u := by simp only [addrView, hser, hsclk, hrclk, hclr, hsa, hoa]
    exact ⟨hod, hview⟩

theorem EngineStops.other_known (h : EngineStops ops s k o rest pre c op post u v) (he : engineOp c op = true)
    (hk : LevelsKnown u) : EngineKnown (otherChain c) v := by
  unfold EngineKnown
  rw [h.other_pins he (r := serRole (otherChain c)) (by cases c <;> exact fun _ => rfl),
    h.other_pins he (r := sclkRole (otherChain c)) (by cases c <;> exact fun _ => rfl),
    h.other_pins he (r := rclkRole (otherChain c)) (by cases c <;> exact fun _ => rfl)]
  exact ⟨hk _, hk _, hk _⟩

theorem EngineStops.calm (h : EngineStops ops s k o rest pre c op post u v) (hrest : ∀ r ∈ rest, r = .ok)
    (hio : s.ioRest = some .ok) : Calm v := by
  obtain ⟨bs, hran⟩ := h.ran
  refine ⟨h.resets, by rwa [h.io], ?_⟩
  rw [h.state]
  simpa using (runOps_ioRest hran).trans hio

/-- However the later operations are answered, the barrier is not passed. -/
theorem EngineStops.not_passed (h : EngineStops ops s k o rest pre c op post u v)
    (hops : ∀ p ∈ ops, engineOp p.1 p.2 = true) (ho : o ≠ .ok) :
    ∃ t, Machine.runPar ops .running .running s = .hung t ∨
      o = .fail ∧ Machine.runPar ops .running .running s = .failed () t := by
  have hpost : ∀ p ∈ post, allowed .write p.2 = true := fun p hp =>
    allowed_of_engineOp (hops p (by rw [h.split]; simp [hp]))
  have hstop := stoppedBy_ne_running ho
  rw [h.runPar]
  obtain ⟨t, ht⟩ := runPar_stopped (ea := (engines c (stoppedBy o)).1) (ed := (engines c (stoppedBy o)).2) hpost
    h.resets (by cases c <;> simp [engines, hstop])
  refine ⟨t, ht.imp_right fun ⟨ha, hd, e⟩ => ⟨?_, e⟩⟩
  cases o with
  | ok => exact absurd rfl ho
  | fail => rfl
  | never => cases c <;> simp [engines, stoppedBy] at ha hd

end

/-! ## The two shifts -/

section
variable {a : Addr} {d : Data} {sc : List Chain} {s : State} {k : Nat} {o : IoOutcome} {rest : List IoOutcome}
  {pre : List (Chain × MicroOp)} {c : Chain} {op : MicroOp} {post : List (Chain × MicroOp)} {u v : State}

theorem chainView_quiet (hq : Quiet s) (c : Chain) :
    (chainView c s).sclk = .released ∧ (chainView c s).rclk = .released ∧ (chainView c s).clr = .released := by
  have hp : s.pins = Pins.released := hq
  cases c <;> simp [chainView, addrView, dataView, hp, Pins.released]

/-- Each chain's steps, by what came before the operation and what comes after it. -/
theorem EngineStops.steps
    (h : EngineStops (interleave sc (shiftOps .addr a) (shiftOps .data d)) s k o rest pre c op post u v) :
    shiftOps c (chainWord a d c) = stepsOf c pre ++ op :: stepsOf c post ∧
    shiftOps (otherChain c) (chainWord a d (otherChain c)) =
      stepsOf (otherChain c) pre ++ stepsOf (otherChain c) post := by
  rw [← stepsOf_shifts a d sc c, ← stepsOf_shifts a d sc (otherChain c), h.split, stepsOf_append, stepsOf_append]
  cases c <;> exact ⟨rfl, rfl⟩

/-- Where all later operations complete, the other engine ends and nothing else is asked for. -/
theorem EngineStops.other_ends
    (h : EngineStops (interleave sc (shiftOps .addr a) (shiftOps .data d)) s k o rest pre c op post u v)
    (hq : Quiet s) (ho : o ≠ .ok) (hv : Calm v) :
    ∃ w, Machine.runPar (interleave sc (shiftOps .addr a) (shiftOps .data d)) .running .running s =
        barrier (engines c (stoppedBy o)).1 (engines c (stoppedBy o)).2 w ∧
      (chainView c w).outs =
        (if ioCount (stepsOf c pre) ≤ 3 * width c then (chainView c s).outs else bitsOf (chainWord a d c)) ∧
      (chainView (otherChain c) w).outs = bitsOf (chainWord a d (otherChain c)) ∧
      w.io = rest.drop (3 * width (otherChain c) + 3 - ioCount (stepsOf (otherChain c) pre)) := by
  obtain ⟨hself, hother⟩ := h.steps
  obtain ⟨bs, hran⟩ := h.ran
  have hpre : ∀ p ∈ pre, engineOp p.1 p.2 = true := fun p hp =>
    engineOp_shifts p (by rw [h.split]; exact List.mem_append_left _ hp)
  have hop : engineOp c op = true := engineOp_shift c (chainWord a d c) op (by rw [hself]; simp)
  have hpost : ∀ x ∈ stepsOf (otherChain c) post, engineOp (otherChain c) x = true := fun x hx =>
    engineOp_shift _ (chainWord a d (otherChain c)) x (by rw [hother]; exact List.mem_append_right _ hx)
  have hk := levelsKnown_of_quiet hq
  obtain ⟨hvouts, hvother⟩ := h.views hop
  obtain ⟨cs, w, hw, -⟩ := runOps_calm hv fun x hx => directed_of_plainOp (plainOp_of_engineOp (hpost x hx))
  obtain ⟨hwother, hwouts⟩ := chainView_alone hpost (h.other_known hop (mixed_device hk hpre hran).2.2) hw
  refine ⟨w, h.runPar.trans (runPar_other_alone (stoppedBy_ne_running ho) hw), ?_, ?_, ?_⟩
  · obtain ⟨h1, h2, h3⟩ := chainView_quiet hq c
    rw [hwouts, hvouts, chainView_mixed hk hpre hran, prefix_outs c _ hself h1 h2 h3]
  · obtain ⟨h1, h2, h3⟩ := chainView_quiet hq (otherChain c)
    rw [hwother, hvother, chainView_mixed hk hpre hran, ← viewRun_append, ← hother, viewRun_shift _ _ h1 h2 h3]
  · have hcount := congrArg ioCount hother
    rw [ioCount_shift, ioCount_append] at hcount
    rw [runOps_io hw, h.io]
    congr 1
    omega

end

/-! ## WRITE -/

theorem writeSeq_not_passed {a : Addr} {d : Data} {s t : State} {o : IoOutcome}
    (h : par (shiftOps .addr a) (shiftOps .data d) s = .hung t ∨
      o = .fail ∧ par (shiftOps .addr a) (shiftOps .data d) s = .failed () t) :
    writeSeq a d s = .hung t ∨ o = .fail ∧ writeSeq a d s = .failed () t := by
  unfold writeSeq
  rcases h with e | ⟨ho, e⟩ <;> rw [e]
  · exact .inl rfl
  · exact .inr ⟨ho, rfl⟩

theorem writeSeq_failed_of_par {a : Addr} {d : Data} {s t : State}
    (h : par (shiftOps .addr a) (shiftOps .data d) s = .failed () t) : writeSeq a d s = .failed () t := by
  unfold writeSeq; rw [h]; rfl

theorem barrier_failed (c : Chain) (w : State) :
    barrier (engines c (stoppedBy .fail)).1 (engines c (stoppedBy .fail)).2 w = .failed () w := by
  cases c <;> rfl

theorem barrier_stuck (c : Chain) (w : State) :
    barrier (engines c (stoppedBy .never)).1 (engines c (stoppedBy .never)).2 w = .hung w := by
  cases c <;> rfl

/-- The barrier changes nothing. -/
theorem barrier_keeps {c : Chain} {o : IoOutcome} {w t : State} (ho : o ≠ .ok)
    (h : barrier (engines c (stoppedBy o)).1 (engines c (stoppedBy o)).2 w = .hung t ∨
      o = .fail ∧ barrier (engines c (stoppedBy o)).1 (engines c (stoppedBy o)).2 w = .failed () t) : t = w := by
  cases o with
  | ok => exact absurd rfl ho
  | fail =>
    rw [barrier_failed] at h
    rcases h with e | ⟨-, e⟩ <;> cases e
    rfl
  | never =>
    rw [barrier_stuck] at h
    rcases h with e | ⟨-, e⟩ <;> cases e
    rfl

/-- Settles O41: the operation not completed stops its engine; the other one runs to its end where the I/O layer
answers, and the strobe waits for both. -/
theorem barrierBeforeStrobe : Obligations.BarrierBeforeStrobe := by
  intro a d k o rest s hr hq hk ho hio
  have hpar := par_shifts a d s
  generalize hσ : s.withSched (s.sched.drop (writeShiftSteps a d)) = σ at hpar
  have hqσ : Quiet σ := by rw [← hσ]; exact hq
  obtain ⟨pre, c, op, post, u, v, h⟩ := engineStops (s := σ) (engineOp_shifts (a := a) (d := d) (sc := s.sched))
    (by rw [← hσ]; exact hr) (by rw [ioCount_par]; exact hk) ho (by rw [← hσ]; exact hio)
  obtain ⟨t, ht⟩ := h.not_passed engineOp_shifts ho
  obtain ⟨hmem, hen, hclk⟩ : StrobeIdle σ t :=
    strobeIdle_runPar engineOp_shifts (by rcases ht with e | ⟨-, e⟩ <;> rw [e] <;> rfl)
  have hpσ : σ.pins = Pins.released := hqσ
  refine ⟨t, writeSeq_not_passed (by rwa [hpar]), by rw [hmem, ← hσ]; rfl, by rw [hen, hpσ]; rfl, by rw [hclk, hpσ]; rfl,
    fun hrest hiorest => ?_⟩
  obtain ⟨w, hrun, hself, hother, hwio⟩ := h.other_ends hqσ ho (h.calm hrest (by rw [← hσ]; exact hiorest))
  obtain ⟨hturn, htake⟩ := h.turn
  rw [← asked_count, ← htake] at hself hwio
  rw [hrun] at hpar ht
  obtain rfl : t = w := barrier_keeps ho ht
  refine ⟨?_, ?_⟩
  · rintro rfl
    exact writeSeq_failed_of_par (hpar.trans (barrier_failed c t))
  · have hoa : σ.oa = s.oa := by rw [← hσ]; rfl
    have hod : σ.od = s.od := by rw [← hσ]; rfl
    rw [← hoa, ← hod]
    cases c with
    | addr => exact .inl ⟨hturn, hother, hself, hwio⟩
    | data => exact .inr ⟨hturn, hother, hself, hwio⟩

end Sys2Proof.Machine
end
